-- ==== Sys2Proof/Word.lean ====
section
/-! DEFINITION. The word types of HUFF1 (spec/00_scope.md R9, R10): every value is unsigned. -/

namespace Sys2Proof

/-- A byte: a symbol, a buffer byte, a container byte (spec/00_scope.md R8: 8-bit symbols). -/
abbrev Byte := BitVec 8

/-- A host-bus word, a register, a command word (spec/20_memory.md R80: 32-bit data). -/
abbrev Word := BitVec 32

/-- A byte offset in the block's window (spec/20_memory.md R80: 18 bits, relative to BASE). -/
abbrev Offset := BitVec 18

/-- A bit string, `c_0` first: the first bit in transmission order (spec/00_scope.md R10). -/
abbrev Code := List Bool

end Sys2Proof
end

