-- ==== Sys2Proof/Config.lean ====
section
/-! DEFINITION. What an implementation of HUFF1 fixes (spec/00_scope.md R8) and the free values
(spec/60_exceptions.md R279, spec/70_reset_and_hazards.md R301, R304). -/

namespace Sys2Proof

/-- The buffer sizes, build parameters of the block (spec/00_scope.md R8). They are carried in State and
never change; the model's statements hold for every legal value (log 4). -/
structure Params where
  /-- IN_SIZE: the number of bytes of IN_BUF. -/
  inSize : Nat
  /-- OUT_SIZE: the number of bytes of OUT_BUF. -/
  outSize : Nat
deriving DecidableEq, Repr

/-- The defaults the spec gives (spec/00_scope.md R8). -/
def Params.default : Params := { inSize := 65536, outSize := 65536 }

/-- A FREE VALUE of 8 bits: draw number `n`. Nothing constrains it (log 6). -/
opaque Config.freeByte (n : Nat) : Byte

/-- A FREE VALUE of 32 bits: draw number `n`. Nothing constrains it (log 6). -/
opaque Config.freeWord (n : Nat) : Word

/-- BASE is OPEN: any multiple of 0x40000; this is which multiple (spec/00_scope.md R8, log 5). -/
opaque Config.baseIndex : Nat

/-- BASE, the base address of the window on the host bus, aligned to 0x40000 (spec/00_scope.md R8). -/
def Config.base : Nat := 0x40000 * Config.baseIndex

/-- The host-bus address of an offset of the window (spec/20_memory.md R80). -/
def Config.address (off : Offset) : Nat := Config.base + off.toNat

/-- The offset a host-bus address selects; `none` outside the window, where HUFF1 is not addressed. -/
def Config.offsetOf (addr : Nat) : Option Offset :=
  if Config.base ≤ addr ∧ addr < Config.base + 0x40000 then some (BitVec.ofNat 18 (addr - Config.base))
  else none

/-- RST_POLARITY is OPEN: the level of the reset pin that applies reset. The model takes reset as an
event; no rule depends on the pin (spec/00_scope.md R8, spec/70_reset_and_hazards.md R300, log 5). -/
opaque Config.resetActiveHigh : Bool

/-- Whether a level of the reset pin applies reset: the event `Event.reset` (spec/70_reset_and_hazards.md
R300). -/
def Config.resetApplied (pin : Bool) : Bool := pin == Config.resetActiveHigh

end Sys2Proof
end

