-- ==== Sys2Proof/Syntax.lean ====
section
/-! DEFINITION. What HUFF1 is told: its nine commands (spec/30_encoding.md R121), the host's bus accesses
(spec/20_memory.md R80), and the events of the one total order they happen in (spec/20_memory.md R94). -/

namespace Sys2Proof

/-- The nine commands, one constructor per row of spec/opcode_table.json. A command has no operand fields
(spec/30_encoding.md R123). -/
inductive Instr where
  /-- NOP, 0x00000000 (spec/40_command_control.md R162). -/
  | nop
  /-- CLEAR, 0x00000001 (spec/40_command_control.md R163). -/
  | clear
  /-- HIST, 0x00000002 (spec/41_histogram.md R181). -/
  | hist
  /-- BUILD, 0x00000003 (spec/42_tree_builder.md R190). -/
  | build
  /-- PACK, 0x00000004 (spec/43_bit_packer.md R210). -/
  | pack
  /-- LOADTAB, 0x00000005 (spec/44_decoder.md R230). -/
  | loadtab
  /-- WALK, 0x00000006 (spec/44_decoder.md R235). -/
  | walk
  /-- ENCODE, 0x00000010 (spec/45_composite.md R260). -/
  | encode
  /-- DECODE, 0x00000011 (spec/45_composite.md R261). -/
  | decode
deriving DecidableEq, Repr

/-- Every command, in the order of the opcode table. -/
def Instr.all : List Instr :=
  [.nop, .clear, .hist, .build, .pack, .loadtab, .walk, .encode, .decode]

/-- The registers, in offset order (spec/10_state.md R31 to R43). -/
inductive Reg where
  | id | ctrl | cmd | status | errCode | errInfo | inLen | outLen | nsym | maxLen | tableLen | bitCnt | bodyOff
deriving DecidableEq, Repr

/-- The regions of the offset space (spec/20_memory.md R82); `gap` holds nothing. -/
inductive Region where
  | reg | histw | romw | inw | outw | gap
deriving DecidableEq, Repr

/-- A host access, one bus transaction (spec/20_memory.md R80). -/
inductive Access where
  | read8 (off : Offset)
  | read32 (off : Offset)
  | write8 (off : Offset) (v : Byte)
  | write32 (off : Offset) (v : Word)
deriving DecidableEq, Repr

/-- The offset an access names. -/
def Access.off : Access → Offset
  | .read8 off => off
  | .read32 off => off
  | .write8 off _ => off
  | .write32 off _ => off

/-- The width of an access in bits. -/
def Access.width : Access → Nat
  | .read8 _ => 8
  | .read32 _ => 32
  | .write8 _ _ => 8
  | .write32 _ _ => 32

/-- One event of the total order of spec/20_memory.md R94 (log 1): the host issues an access, the core takes
its turn (a running command completes: spec/70_reset_and_hazards.md R309), or reset is applied. -/
inductive Event where
  | access (a : Access)
  | core
  | reset
deriving DecidableEq, Repr

end Sys2Proof
end

