-- ==== Sys2Proof/WellFormed.lean ====
section
/-! DEFINITION. Which terms are well formed: accesses the bus can carry (spec/20_memory.md R86, R87) and
parameters with legal values (spec/00_scope.md R8). -/

namespace Sys2Proof

/-- A command word carries no operand fields (spec/30_encoding.md R123), so every command is well formed. -/
def Instr.wellFormed : Instr → Bool
  | .nop | .clear | .hist | .build | .pack | .loadtab | .walk | .encode | .decode => true

/-- The accesses that get response OK: an 8-bit access inside 0x10000 to 0x2FFFF, or an aligned 32-bit access
(spec/20_memory.md R86, R87). Stated on offsets alone; the bus model has its own region decode, and an
obligation says the two agree. -/
def Access.wellFormed : Access → Bool
  | .read8 off => decide (0x10000 ≤ off.toNat ∧ off.toNat ≤ 0x2FFFF)
  | .write8 off _ => decide (0x10000 ≤ off.toNat ∧ off.toNat ≤ 0x2FFFF)
  | .read32 off => decide (off.toNat % 4 = 0)
  | .write32 off _ => decide (off.toNat % 4 = 0)

/-- A legal buffer size: a multiple of 4 from 4 to 65536 (spec/00_scope.md R8). -/
def legalSize (n : Nat) : Bool := decide (n % 4 = 0 ∧ 4 ≤ n ∧ n ≤ 65536)

/-- Legal parameters (spec/00_scope.md R8). -/
def Params.wellFormed (p : Params) : Bool := legalSize p.inSize && legalSize p.outSize

end Sys2Proof
end

