-- ==== Sys2Proof/Decode.lean ====
section
/-! DEFINITION. The command word and its decoder and encoder (spec/30_encoding.md R120 to R122). -/

namespace Sys2Proof

/-- Why a word is no command (spec/30_encoding.md R122). -/
inductive DecodeReject where
  /-- A bit of [31:8] is set: MBZ is not zero. -/
  | mustBeZero
  /-- OP is none of the nine: 0x07 to 0x0F or 0x12 to 0xFF. -/
  | unlistedOpcode
deriving DecidableEq, Repr

/-- The OP field, bits [7:0] (spec/30_encoding.md R120). -/
def opField (w : Word) : Byte := w.extractLsb' 0 8

/-- The MBZ field, bits [31:8] (spec/30_encoding.md R120). -/
def mbzField (w : Word) : BitVec 24 := w.extractLsb' 8 24

/-- The command an OP value selects (spec/30_encoding.md R121). -/
def commandOf (op : Byte) : Option Instr :=
  match op.toNat with
  | 0x00 => some .nop
  | 0x01 => some .clear
  | 0x02 => some .hist
  | 0x03 => some .build
  | 0x04 => some .pack
  | 0x05 => some .loadtab
  | 0x06 => some .walk
  | 0x10 => some .encode
  | 0x11 => some .decode
  | _ => none

/-- The command of a word, or the reason it has none: total on every 32-bit word (spec/30_encoding.md R121,
R122). -/
def decode (w : Word) : Except DecodeReject Instr :=
  if mbzField w ≠ 0 then .error .mustBeZero
  else
    match commandOf (opField w) with
    | some i => .ok i
    | none => .error .unlistedOpcode

/-- The OP value of a command, from the table of spec/30_encoding.md R121. -/
def opcode : Instr → Byte
  | .nop => 0x00
  | .clear => 0x01
  | .hist => 0x02
  | .build => 0x03
  | .pack => 0x04
  | .loadtab => 0x05
  | .walk => 0x06
  | .encode => 0x10
  | .decode => 0x11

/-- The word of a command: OP in [7:0], zero in [31:8] (spec/30_encoding.md R120). -/
def encode (i : Instr) : Word := (0 : BitVec 24) ++ opcode i

/-- The one 32-bit word of an instruction whose lowest `nbits` bits are given, the bits above them zero. A
command is always one 32-bit word (spec/30_encoding.md R120), written whole by one Write32, so no byte order
comes in. -/
def tableWord (nbits w : Nat) : Word := BitVec.ofNat 32 (w % 2 ^ nbits)

/-- The command this decoder reads from the first `nbits` bits of `w`; `none` where it refuses, and for more
than one word's bits. -/
def decodeTableWord (nbits w : Nat) : Option Instr :=
  if nbits ≤ 32 then
    match decode (tableWord nbits w) with
    | .ok i => some i
    | .error _ => none
  else none

end Sys2Proof
end

