-- ==== Sys2Proof/Machine/State.lean ====
section
/-! DEFINITION. The state of HUFF1 (spec/10_state.md R30), its faults and refusals, and its state after reset
(spec/10_state.md R59). -/

namespace Sys2Proof.Machine

/-- A buffer's bytes: (index, byte) pairs, indexes strictly rising. A byte that is not listed has not been
written since reset and has no defined value (spec/70_reset_and_hazards.md R304, log 7). -/
abbrev Memory := List Host.Cell

/-- HIST: one 32-bit counter per symbol (spec/10_state.md R45). -/
abbrev Hist := Vector Word 256

/-- The code ROM: CODE per symbol; CLEN is its length, and a symbol with the empty string has no code
(spec/10_state.md R47, log 10). -/
abbrev Rom := Vector Code 256

/-- CTRL's fields (spec/10_state.md R32). -/
structure Ctrl where
  /-- Bit 0: `false` legacy, `true` counted. -/
  fmt : Bool
  /-- Bit 1: interrupt enable. -/
  ie : Bool
deriving DecidableEq, Repr

/-- STATUS's fields, bits 0 to 3 (spec/10_state.md R34). -/
structure Status where
  busy : Bool
  done : Bool
  err : Bool
  ovr : Bool
deriving DecidableEq, Repr

/-- ERRCODE's fields (spec/10_state.md R35): CAUSE in bits [7:0], SUB in bits [15:8]. -/
structure ErrCode where
  cause : Byte
  sub : Byte
deriving DecidableEq, Repr

/-- SEQ (spec/10_state.md R54): idle, running one of the nine commands, or running ILLEGAL, which keeps the
rejected word (spec/40_command_control.md R160, R161; log 9). -/
inductive Seq where
  | idle
  | run (i : Instr)
  | illegal (w : Word)
deriving DecidableEq, Repr

/-- The response of the last host access (spec/20_memory.md R80; the model's own field, log 11). BUSERR is not
among them: it is a fault (spec/20_memory.md R81). -/
inductive BusResp where
  /-- No access since reset. -/
  | none
  /-- A write's OK. -/
  | ok
  /-- A Read8's OK, with its data. -/
  | data8 (v : Byte)
  /-- A Read32's OK, with its data. -/
  | data32 (v : Word)
deriving DecidableEq, Repr

/-- Everything the spec gives the machine (spec/10_state.md R30; INVENTORY.md, State), and the model's own
fields `params`, `busResp`, `draws` and `events`. -/
structure State where
  /-- CTRL (R32). -/
  ctrl : Ctrl
  /-- STATUS (R34). -/
  status : Status
  /-- ERRCODE (R35). -/
  errCode : ErrCode
  /-- ERRINFO (R36). -/
  errInfo : Word
  /-- IN_LEN (R37). -/
  inLen : BitVec 17
  /-- OUT_LEN (R38). -/
  outLen : BitVec 17
  /-- NSYM (R39). -/
  nsym : BitVec 9
  /-- MAXLEN (R40). -/
  maxLen : BitVec 8
  /-- TABLE_LEN (R41). -/
  tableLen : BitVec 16
  /-- BITCNT (R42). -/
  bitCnt : Word
  /-- BODY_OFF (R43). -/
  bodyOff : BitVec 17
  /-- HIST (R45). -/
  hist : Hist
  /-- The code ROM (R47). -/
  rom : Rom
  /-- IN_BUF (R50). -/
  inBuf : Memory
  /-- OUT_BUF (R51). -/
  outBuf : Memory
  /-- SEQ (R54). -/
  seq : Seq
  /-- IN_SIZE and OUT_SIZE (spec/00_scope.md R8): never changed. -/
  params : Params
  /-- The last host access's response (model's own, log 11). -/
  busResp : BusResp
  /-- The number of free draws taken so far (model's own, log 6). -/
  draws : Nat
  /-- The events still to come, oldest first (model's own, log 1). -/
  events : List Event
deriving DecidableEq, Repr

/-- Why a step stops with a fault. Both are the spec's own model faults: the host program is wrong, and the
faulted run is never final (spec/70_reset_and_hazards.md R311). -/
inductive Fault where
  /-- Raised by a host access the bus cannot carry: an 8-bit access outside INW and OUTW, or a misaligned
  32-bit access; the response BUSERR (spec/20_memory.md R81). SAFE: the access has no effect on the block. -/
  | hostBusError (off : Offset) (width : Nat)
  /-- Raised by a command that reads a byte of IN_BUF nothing has written since reset
  (spec/70_reset_and_hazards.md R304). SAFE: a chip goes on with some byte, the model stops. -/
  | unwrittenInput (i : Nat)
deriving DecidableEq, Repr

/-- Why a step refuses. -/
inductive Refusal where
  /-- Raised by exec's arm of an instruction that has no meaning yet. SAFE: the model stops. -/
  | notModelled (mnemonic : String)
  /-- Raised by a host write to IN_BUF or OUT_BUF while BUSY = 1: the model has no step for it
  (spec/70_reset_and_hazards.md R310). SAFE in that the model stops; it is an assumption on the host. -/
  | bufferWriteWhileBusy (off : Offset)
deriving DecidableEq, Repr

/-- The state after reset of a block with given parameters (spec/10_state.md R59, spec/70_reset_and_hazards.md
R300): `draws` goes on counting and the events still to come stay. -/
def State.resetWith (p : Params) (draws : Nat) (events : List Event) : State where
  ctrl := { fmt := true, ie := false }
  status := { busy := false, done := false, err := false, ovr := false }
  errCode := { cause := 0, sub := 0 }
  errInfo := 0
  inLen := 0
  outLen := 0
  nsym := 0
  maxLen := 0
  tableLen := 0
  bitCnt := 0
  bodyOff := 0
  hist := Vector.replicate 256 0
  rom := Vector.replicate 256 []
  inBuf := []
  outBuf := []
  seq := .idle
  params := p
  busResp := .none
  draws := draws
  events := events

/-- The machine right after reset (spec/10_state.md R59), with the spec's default parameters
(spec/00_scope.md R8) and no event to come (log 2). -/
def State.reset : State := State.resetWith Params.default 0 []

end Sys2Proof.Machine
end

