-- ==== Sys2Proof/Machine/Ops.lean ====
section
/-! DEFINITION. The named operations over memory, the histogram and the code ROM; the error causes; accepting a
command, completing it, and taking an error (spec/40_command_control.md R160, spec/60_exceptions.md R270 to
R275). -/

namespace Sys2Proof.Machine

/-! ## Buffers -/

/-- The byte at an index, `none` where nothing has been written since reset. -/
def Memory.read : Memory → Nat → Option Byte
  | [], _ => none
  | (a, v) :: rest, i => if i = a then some v else Memory.read rest i

/-- Write one byte, keeping the indexes strictly rising. -/
def Memory.write : Memory → Nat → Byte → Memory
  | [], i, v => [(i, v)]
  | (a, w) :: rest, i, v =>
    if i < a then (i, v) :: (a, w) :: rest
    else if i = a then (i, v) :: rest
    else (a, w) :: Memory.write rest i v

/-- Write bytes at rising indexes from `i`. -/
def Memory.writeList : Memory → Nat → List Byte → Memory
  | m, _, [] => m
  | m, i, b :: bs => Memory.writeList (Memory.write m i b) (i + 1) bs

/-- The canonical form: indexes strictly rising. (An unlisted byte reads as no value, so no entry can equal
it.) -/
abbrev Memory.wf (m : Memory) : Prop := (m.map Prod.fst).Pairwise (· < ·)

/-- Every listed byte lies in a buffer of `n` bytes. -/
abbrev Memory.within (m : Memory) (n : Nat) : Prop := ∀ c ∈ m, c.1 < n

/-! ## Symbols, histogram, code ROM -/

/-- The 256 symbols, ascending. -/
def symbols : List Byte := (List.range 256).map (BitVec.ofNat 8)

/-- HIST[s]. -/
def Hist.count (h : Hist) (s : Byte) : Word := h[s.toNat]'s.isLt

/-- HIST[s] <- HIST[s] + 1. -/
def Hist.bump (h : Hist) (s : Byte) : Hist := h.set s.toNat (Hist.count h s + 1) s.isLt

/-- Every counter 0. -/
def Hist.zero : Hist := Vector.replicate 256 0

/-- The sum of all counters (spec/10_state.md R45). -/
def Hist.total (h : Hist) : Nat := (h.toList.map BitVec.toNat).sum

/-- The symbols with a positive count and their counts, ascending (spec/10_state.md R45: "Only symbols present
in the input have entries"). -/
def Hist.present (h : Hist) : List (Byte × Word) :=
  (symbols.zip h.toList).filter fun e => e.2 != 0

/-- CODE[s]. -/
def Rom.code (r : Rom) (s : Byte) : Code := r[s.toNat]'s.isLt

/-- CLEN[s] = len(CODE[s]) (spec/10_state.md R47). -/
def Rom.clen (r : Rom) (s : Byte) : Nat := (Rom.code r s).length

/-- CODE[s] <- c, and CLEN[s] <- len(c). -/
def Rom.setCode (r : Rom) (s : Byte) (c : Code) : Rom := r.set s.toNat c s.isLt

/-- No symbol has a code. -/
def Rom.empty : Rom := Vector.replicate 256 []

/-- The ROM that holds exactly the given codes (for s in 0..255: CODE[s] <- []; for (s, c) in E:
CODE[s] <- c). -/
def Rom.ofEntries (entries : List (Byte × Code)) : Rom :=
  entries.foldl (fun r e => Rom.setCode r e.1 e.2) Rom.empty

/-- The symbols with CLEN[s] > 0 and their codes, ascending. -/
def Rom.entries (r : Rom) : List (Byte × Code) :=
  (symbols.zip r.toList).filter fun e => !e.2.isEmpty

/-- The serialized size of a list of table entries, 2 + L bytes each (spec/30_encoding.md R131). -/
def entriesLength (entries : List (Byte × Code)) : Nat := (entries.map fun e => 2 + e.2.length).sum

/-- The serialized size of the ROM's table (spec/10_state.md R41). -/
def Rom.tableLength (r : Rom) : Nat := entriesLength (Rom.entries r)

/-- The greatest CLEN, 0 for an empty ROM (spec/10_state.md R40). -/
def Rom.longest (r : Rom) : Nat := (r.toList.map List.length).foldl max 0

/-- `prefix(a, b)`, equality included (spec/00_scope.md R10). -/
def isPrefix (a b : Code) : Bool := a.isPrefixOf b

/-- `proper_prefix(a, b)` (spec/00_scope.md R10). -/
def isProperPrefix (a b : Code) : Bool := isPrefix a b && decide (a.length < b.length)

/-! ## Small arithmetic -/

/-- ceil(x/8) (spec/00_scope.md R9). -/
def ceilDiv8 (x : Nat) : Nat := (x + 7) / 8

/-- BE32(a, b, c, d) (spec/00_scope.md R11). -/
def be32 (a b c d : Byte) : Word := a ++ b ++ c ++ d

/-- The four bytes of a word, most significant first (spec/30_encoding.md R133). -/
def be32Bytes (w : Word) : List Byte :=
  [w.extractLsb' 24 8, w.extractLsb' 16 8, w.extractLsb' 8 8, w.extractLsb' 0 8]

/-- Byte lane `m` of a host-bus word, little-endian: bits [8m+7:8m] (spec/20_memory.md R90). -/
def byteLane (w : Word) (m : Nat) : Byte := w.extractLsb' (8 * m) 8

/-- The largest 32-bit count, the cap on the sum of HIST (spec/41_histogram.md R180). -/
def countCap : Nat := 2 ^ 32 - 1

/-! ## Error causes -/

/-- MalformedContainer's sub-causes (spec/60_exceptions.md R271). -/
inductive SubCause where
  | noLengthByte | tableOverrun | entryOverrun | zeroCodeLength | badBitByte | duplicateSymbol
  | notPrefixFree | noBitCount | bodyLength | nonzeroPadding | deadPath | truncatedCode
deriving DecidableEq, Repr

/-- ERRCODE.SUB of a sub-cause (spec/60_exceptions.md R271). -/
def SubCause.code : SubCause → Byte
  | .noLengthByte => 1
  | .tableOverrun => 2
  | .entryOverrun => 3
  | .zeroCodeLength => 4
  | .badBitByte => 5
  | .duplicateSymbol => 6
  | .notPrefixFree => 7
  | .noBitCount => 8
  | .bodyLength => 9
  | .nonzeroPadding => 10
  | .deadPath => 11
  | .truncatedCode => 12

/-- What a command can raise, with its info (spec/60_exceptions.md R270). -/
inductive CmdError where
  | invalidInput
  | codeTooLong (s : Byte)
  | tableTooLarge (size : Nat)
  | malformed (sub : SubCause) (info : Nat)
  | unmappedSymbol (offset : Nat)
  | outOverflow (info : Nat)
  | countOverflow (offset : Nat)
  | illegalCommand (w : Word)
  | badLength (len : Nat)
deriving DecidableEq, Repr

/-- ERRCODE.CAUSE (spec/60_exceptions.md R270). -/
def CmdError.cause : CmdError → Byte
  | .invalidInput => 1
  | .codeTooLong _ => 2
  | .tableTooLarge _ => 3
  | .malformed _ _ => 4
  | .unmappedSymbol _ => 5
  | .outOverflow _ => 6
  | .countOverflow _ => 7
  | .illegalCommand _ => 8
  | .badLength _ => 9

/-- ERRCODE.SUB: 0 for every cause but MalformedContainer (spec/60_exceptions.md R271). -/
def CmdError.sub : CmdError → Byte
  | .malformed sub _ => sub.code
  | .invalidInput | .codeTooLong _ | .tableTooLarge _ | .unmappedSymbol _ | .outOverflow _
  | .countOverflow _ | .illegalCommand _ | .badLength _ => 0

/-- ERRINFO.INFO (spec/60_exceptions.md R270 to R272). -/
def CmdError.info : CmdError → Word
  | .invalidInput => 0
  | .codeTooLong s => s.setWidth 32
  | .tableTooLarge size => BitVec.ofNat 32 size
  | .malformed _ info => BitVec.ofNat 32 info
  | .unmappedSymbol offset => BitVec.ofNat 32 offset
  | .outOverflow info => BitVec.ofNat 32 info
  | .countOverflow offset => BitVec.ofNat 32 offset
  | .illegalCommand w => w
  | .badLength len => BitVec.ofNat 32 len

/-! ## Running a command -/

/-- Why a command's pseudocode stops before its end: a `raise` (spec/00_scope.md R11), or the read of an
IN_BUF byte nothing has written (spec/70_reset_and_hazards.md R304). -/
inductive Stop where
  | raised (e : CmdError)
  | unwritten (i : Nat)
deriving DecidableEq, Repr

/-- How far a command's pseudocode ran: to its end, to a `raise` with the state reached at it
(spec/60_exceptions.md R273), or to the read of an unwritten byte. -/
inductive Run where
  | done (s : State)
  | raised (e : CmdError) (s : State)
  | unwritten (i : Nat)

/-- A stop reached in a given state. -/
def Stop.at (stop : Stop) (s : State) : Run :=
  match stop with
  | .raised e => .raised e s
  | .unwritten i => .unwritten i

/-- One body after another: "A `raise` in a body ends the composite command" (spec/45_composite.md). -/
def Run.andThen (r : Run) (next : State → Run) : Run :=
  match r with
  | .done s => next s
  | .raised e s => .raised e s
  | .unwritten i => .unwritten i

/-- What SEQ becomes at the acceptance of a word (spec/40_command_control.md R160). -/
def seqOf (w : Word) : Seq :=
  match decode w with
  | .ok i => .run i
  | .error _ => .illegal w

/-- Acceptance of a command word (spec/40_command_control.md R160). -/
def State.accept (w : Word) (s : State) : State :=
  { s with
    status := { s.status with busy := true, done := false, err := false }
    errCode := { cause := 0, sub := 0 }
    errInfo := 0
    seq := seqOf w }

/-- Successful completion (spec/60_exceptions.md R274). -/
def State.complete (s : State) : State :=
  { s with status := { s.status with busy := false, done := true }, seq := .idle }

/-- The commands that write OUT_BUF, whose errors write OUT_LEN <- 0 (spec/60_exceptions.md R275). -/
def writesOutBuf : Instr → Bool
  | .pack | .walk | .encode | .decode => true
  | .nop | .clear | .hist | .build | .loadtab => false

/-- TAKING AN ERROR: the error completion of spec/60_exceptions.md R275. `clearsOutLen` says whether the
command is one that writes OUT_BUF. -/
def State.raise (clearsOutLen : Bool) (e : CmdError) (s : State) : State :=
  { s with
    errCode := { cause := e.cause, sub := e.sub }
    errInfo := e.info
    outLen := if clearsOutLen then 0 else s.outLen
    status := { s.status with busy := false, err := true }
    seq := .idle }

/-- THE RETURN FROM AN ERROR is the host's acknowledgement (spec/60_exceptions.md R277): the W1C write of
STATUS; each argument says whether the word written has that bit set (spec/10_state.md R34). -/
def State.acknowledge (done err ovr : Bool) (s : State) : State :=
  { s with
    status :=
      { s.status with
        done := s.status.done && !done
        err := s.status.err && !err
        ovr := s.status.ovr && !ovr } }

/-- How a command's run ends (spec/60_exceptions.md R274, R275; spec/70_reset_and_hazards.md R304). -/
def Run.finish (i : Instr) (r : Run) : Host.Outcome State Fault Refusal :=
  match r with
  | .done s => .next s.complete
  | .raised e s => .next (s.raise (writesOutBuf i) e)
  | .unwritten n => .fault (.unwrittenInput n)

/-- Reset applied (spec/70_reset_and_hazards.md R300, R301): every piece of state at its reset value, every
byte of both buffers unwritten; the parameters, the draw counter and the events to come are kept (DESIGN CHOICE,
log 18). -/
def State.applyReset (s : State) : State := State.resetWith s.params s.draws s.events

end Sys2Proof.Machine
end

