-- ==== Sys2Proof/Machine/Flags.lean ====
section
/-! DEFINITION. The register words the host reads and the flag computations: STATUS, CTRL, ERRCODE, IRQ
(spec/10_state.md R31 to R43, R52). -/

namespace Sys2Proof.Machine

/-- The ID constant "HUF1" (spec/10_state.md R31). -/
def idWord : Word := 0x48554631

/-- One bit of a register word. -/
def bitWord (b : Bool) : Word := if b then 1 else 0

/-- CTRL as a word (spec/10_state.md R32). -/
def Ctrl.word (c : Ctrl) : Word := bitWord c.fmt ||| (bitWord c.ie <<< 1)

/-- CTRL's fields from a written word; the reserved bits are dropped (spec/10_state.md R32, R44). -/
def Ctrl.ofWord (w : Word) : Ctrl := { fmt := w.getLsbD 0, ie := w.getLsbD 1 }

/-- STATUS as a word (spec/10_state.md R34). -/
def Status.word (st : Status) : Word :=
  bitWord st.busy ||| (bitWord st.done <<< 1) ||| (bitWord st.err <<< 2) ||| (bitWord st.ovr <<< 3)

/-- A write of STATUS: DONE, ERR and OVR are write-1-to-clear, every other bit has no effect
(spec/10_state.md R34). -/
def State.writeStatus (w : Word) (s : State) : State :=
  s.acknowledge (w.getLsbD 1) (w.getLsbD 2) (w.getLsbD 3)

/-- A write lost because a command runs (spec/60_exceptions.md R279). -/
def State.setOvr (s : State) : State := { s with status := { s.status with ovr := true } }

/-- ERRCODE as a word (spec/10_state.md R35). -/
def ErrCode.word (e : ErrCode) : Word := (0 : BitVec 16) ++ e.sub ++ e.cause

/-- IRQ = CTRL.IE and (DONE or ERR) (spec/10_state.md R52). -/
def State.irq (s : State) : Bool := s.ctrl.ie && (s.status.done || s.status.err)

/-- The stored value of a register as the host's word; CMD reads 0 (spec/10_state.md R31 to R43). -/
def State.regWord (s : State) : Reg → Word
  | .id => idWord
  | .ctrl => s.ctrl.word
  | .cmd => 0
  | .status => s.status.word
  | .errCode => s.errCode.word
  | .errInfo => s.errInfo
  | .inLen => s.inLen.setWidth 32
  | .outLen => s.outLen.setWidth 32
  | .nsym => s.nsym.setWidth 32
  | .maxLen => s.maxLen.setWidth 32
  | .tableLen => s.tableLen.setWidth 32
  | .bitCnt => s.bitCnt
  | .bodyOff => s.bodyOff.setWidth 32

/-- The registers a read of which is unspecified while BUSY = 1 (spec/60_exceptions.md R279). -/
def regIsResult : Reg → Bool
  | .outLen | .nsym | .maxLen | .tableLen | .bitCnt | .bodyOff => true
  | .id | .ctrl | .cmd | .status | .errCode | .errInfo | .inLen => false

end Sys2Proof.Machine
end

