-- ==== Sys2Proof/Machine/Operands.lean ====
section
/-! DEFINITION. A command's implicit operands (spec/30_encoding.md R123): the length check, the bytes of IN_BUF
it reads, and the container format. -/

namespace Sys2Proof.Machine

/-- CHECK_IN_LEN (spec/40_command_control.md R164). -/
def State.checkInLen (s : State) : Option CmdError :=
  if s.inLen.toNat > s.params.inSize then some (.badLength s.inLen.toNat) else none

/-- CTRL.FMT = 1: the counted format (spec/10_state.md R32). -/
def State.counted (s : State) : Bool := s.ctrl.fmt

/-- `IN[i]` (spec/00_scope.md R11): a core read, which faults where nothing has been written
(spec/70_reset_and_hazards.md R304). -/
def Memory.fetch (m : Memory) (i : Nat) : Except Stop Byte :=
  match Memory.read m i with
  | some b => .ok b
  | none => .error (.unwritten i)

/-- `IN[p .. p+n-1]`, read in ascending order. -/
def Memory.fetchRange (m : Memory) : Nat → Nat → Except Stop (List Byte)
  | 0, _ => .ok []
  | n + 1, p =>
    match Memory.fetch m p with
    | .error stop => .error stop
    | .ok b =>
      match Memory.fetchRange m n (p + 1) with
      | .error stop => .error stop
      | .ok bs => .ok (b :: bs)

/-- BE32 of the four bytes from `p`, read in ascending order (spec/44_decoder.md R231). -/
def Memory.fetchBE32 (m : Memory) (p : Nat) : Except Stop Word :=
  match Memory.fetch m p with
  | .error stop => .error stop
  | .ok a =>
    match Memory.fetch m (p + 1) with
    | .error stop => .error stop
    | .ok b =>
      match Memory.fetch m (p + 2) with
      | .error stop => .error stop
      | .ok c =>
        match Memory.fetch m (p + 3) with
        | .error stop => .error stop
        | .ok d => .ok (be32 a b c d)

/-- Bit `t` of the body that starts at byte `base`: bit 7 - (t mod 8) of byte t div 8, MSB-first
(spec/30_encoding.md R134). -/
def Memory.fetchBit (m : Memory) (base t : Nat) : Except Stop Bool :=
  match Memory.fetch m (base + t / 8) with
  | .error stop => .error stop
  | .ok b => .ok (b.getLsbD (7 - t % 8))

end Sys2Proof.Machine
end

