-- ==== Sys2Proof/Machine/Control.lean ====
section
/-! DEFINITION. NOP, CLEAR and the illegal words (spec/40_command_control.md R161 to R163). -/

namespace Sys2Proof.Machine

/-- NOP (spec/40_command_control.md R162): it only completes. -/
def execNop (s : State) : Host.Outcome State Fault Refusal := Run.finish .nop (.done s)

/-- The body of CLEAR (spec/40_command_control.md R163). -/
def clearBody (s : State) : Run :=
  .done { s with
    hist := Hist.zero
    rom := Rom.empty
    nsym := 0
    maxLen := 0
    tableLen := 0
    bitCnt := 0
    bodyOff := 0
    outLen := 0 }

/-- CLEAR (spec/40_command_control.md R163). -/
def execClear (s : State) : Host.Outcome State Fault Refusal := Run.finish .clear (clearBody s)

/-- ILLEGAL(w) (spec/40_command_control.md R161): IllegalCommand with INFO = w; no other state changes. -/
def execIllegal (w : Word) (s : State) : Host.Outcome State Fault Refusal :=
  .next (s.raise false (.illegalCommand w))

end Sys2Proof.Machine
end

