-- ==== Sys2Proof/Machine/Histogram.lean ====
section
/-! DEFINITION. The frequency histogram counter: HIST (spec/41_histogram.md R180, R181). -/

namespace Sys2Proof.Machine

/-- HIST[b] <- HIST[b] + 1 for each byte of a message. -/
def Hist.countBytes (h : Hist) (msg : List Byte) : Hist := msg.foldl Hist.bump h

/-- The body of HIST (spec/41_histogram.md R181): both checks come before the first increment. -/
def histBody (s : State) : Run :=
  match s.checkInLen with
  | some e => .raised e s
  | none =>
    if Hist.total s.hist + s.inLen.toNat > countCap then
      .raised (.countOverflow (countCap - Hist.total s.hist)) s
    else
      match Memory.fetchRange s.inBuf s.inLen.toNat 0 with
      | .error stop => stop.at s
      | .ok msg => .done { s with hist := Hist.countBytes s.hist msg }

/-- HIST (spec/41_histogram.md R181). -/
def execHist (s : State) : Host.Outcome State Fault Refusal := Run.finish .hist (histBody s)

end Sys2Proof.Machine
end

