-- ==== Sys2Proof/Machine/TreeBuilder.lean ====
section
/-! DEFINITION. The Huffman tree builder and the code ROM's derivation: BUILD (spec/42_tree_builder.md R190 to
R197). -/

namespace Sys2Proof.Machine

/-- A tree node (spec/10_state.md R55): `count` and the insertion number `seq`, with a symbol or children.
`solo` is the one-symbol root, whose child1 is NONE (spec/42_tree_builder.md R194). Counts are exact; that
they fit 32 bits is spec/41_histogram.md R180. (A tree instead of a node store: DESIGN CHOICE, log 19.) -/
inductive Node where
  | leaf (count seq : Nat) (sym : Byte)
  | internal (count seq : Nat) (child0 child1 : Node)
  | solo (count seq : Nat) (child0 : Node)
deriving DecidableEq, Repr

/-- A node's count. -/
def Node.count : Node → Nat
  | .leaf count _ _ => count
  | .internal count _ _ _ => count
  | .solo count _ _ => count

/-- A node's insertion number. -/
def Node.seq : Node → Nat
  | .leaf _ seq _ => seq
  | .internal _ seq _ _ => seq
  | .solo _ seq _ => seq

/-- The order of the priority structure: the key (count, seq), lexicographically (spec/42_tree_builder.md
R192). -/
def Node.before (a b : Node) : Bool :=
  decide (a.count < b.count) || (decide (a.count = b.count) && decide (a.seq < b.seq))

/-- Seeding (spec/42_tree_builder.md R191): one leaf per present symbol, in ascending order, the first with
insertion number `next`. -/
def seedLeaves : Nat → List (Byte × Word) → List Node
  | _, [] => []
  | next, (s, n) :: rest => .leaf n.toNat next s :: seedLeaves (next + 1) rest

/-- Pop the node with the least key from a nonempty structure: that node, and what is left
(spec/42_tree_builder.md R192). -/
def popLeast : Node → List Node → Node × List Node
  | a, [] => (a, [])
  | a, b :: rest =>
    if Node.before a (popLeast b rest).1 then (a, b :: rest)
    else ((popLeast b rest).1, a :: (popLeast b rest).2)

/-- The merge loop (spec/42_tree_builder.md R192) over a nonempty structure. The first popped node is child0,
the second child1; `next` is the parent's insertion number. Each round leaves one node fewer, so as many
rounds as there are nodes after the first are enough. -/
def mergeLoop : Nat → Nat → Node → List Node → Node
  | 0, _, a, _ => a
  | rounds + 1, next, a, rest =>
    match popLeast a rest with
    | (x, []) => x
    | (x, b :: left) =>
      match popLeast b left with
      | (y, left') => mergeLoop rounds (next + 1) (.internal (x.count + y.count) next x y) left'

/-- TREE (spec/42_tree_builder.md R192, R194): `none` when no symbol is present; a root with one child when one
is; the merge loop's result otherwise. -/
def buildTree : List Node → Option Node
  | [] => none
  | [leaf] => some (.solo leaf.count 1 leaf)
  | a :: b :: rest => some (mergeLoop (rest.length + 1) (rest.length + 2) a (b :: rest))

/-- CODES (spec/42_tree_builder.md R195): the leaves of a tree with their paths from the root, child0 tagged 0
and child1 tagged 1. -/
def codesOf : Node → Code → List (Byte × Code)
  | .leaf _ _ sym, path => [(sym, path)]
  | .internal _ _ child0 child1, path =>
    codesOf child0 (path ++ [false]) ++ codesOf child1 (path ++ [true])
  | .solo _ _ child0, path => codesOf child0 (path ++ [false])

/-- The least symbol whose code is longer than 255 bits (spec/42_tree_builder.md R190; there is none: R197, DEDUCED, log 13). -/
def firstTooLong (r : Rom) : Option Byte := symbols.find? fun s => decide (255 < Rom.clen r s)

/-- The body of BUILD (spec/42_tree_builder.md R190). -/
def buildBody (s : State) : Run :=
  match buildTree (seedLeaves 0 (Hist.present s.hist)) with
  | none => .raised .invalidInput s
  | some root =>
    match firstTooLong (Rom.ofEntries (codesOf root [])) with
    | some sym => .raised (.codeTooLong sym) s
    | none =>
      .done { s with
        rom := Rom.ofEntries (codesOf root [])
        nsym := BitVec.ofNat 9 (Hist.present s.hist).length
        maxLen := BitVec.ofNat 8 (Rom.longest (Rom.ofEntries (codesOf root [])))
        tableLen := BitVec.ofNat 16 (Rom.tableLength (Rom.ofEntries (codesOf root []))) }

/-- BUILD (spec/42_tree_builder.md R190). -/
def execBuild (s : State) : Host.Outcome State Fault Refusal := Run.finish .build (buildBody s)

end Sys2Proof.Machine
end

