-- ==== Sys2Proof/Machine/BitPacker.lean ====
section
/-! DEFINITION. The table serializer and the MSB-first bit packer: PACK (spec/43_bit_packer.md R210 to R214). -/

namespace Sys2Proof.Machine

/-- The table byte of a code bit: ASCII '1' or '0' (spec/30_encoding.md R132). -/
def bitByte (b : Bool) : Byte := if b then 0x31 else 0x30

/-- One table entry: symbol, L, one byte per code bit, `c_0` first (spec/30_encoding.md R131). -/
def serializeEntry (e : Byte × Code) : List Byte :=
  e.1 :: BitVec.ofNat 8 e.2.length :: e.2.map bitByte

/-- The table's bytes, entries in the order given (spec/43_bit_packer.md R211). -/
def serializeEntries (entries : List (Byte × Code)) : List Byte := entries.flatMap serializeEntry

/-- SERIALIZE(T): T, then the table, ascending by symbol (spec/43_bit_packer.md R211). -/
def serialize (r : Rom) : List Byte :=
  BitVec.ofNat 8 (Rom.tableLength r) :: serializeEntries (Rom.entries r)

/-- PACKBITS and FLUSH (spec/43_bit_packer.md R212, R213): the bytes the shift register SR, holding K bits,
writes for the bits still to come. Bits enter at bit 0; a full register is written and emptied; FLUSH writes
a partial one, its bits high and zeros low. -/
def packBits (sr : Byte) (k : Nat) : List Bool → List Byte
  | [] => if k > 0 then [sr <<< (8 - k)] else []
  | b :: bits =>
    if k + 1 = 8 then ((sr <<< 1) ||| (if b then 1 else 0)) :: packBits 0 0 bits
    else packBits ((sr <<< 1) ||| (if b then 1 else 0)) (k + 1) bits

/-- PACK's check of the message (spec/43_bit_packer.md R210): the bytes `IN[i .. i+n-1]`, read in ascending
order, up to the first that has no code. -/
def Memory.fetchMapped (r : Rom) (m : Memory) : Nat → Nat → Except Stop (List Byte)
  | 0, _ => .ok []
  | n + 1, i =>
    match Memory.fetch m i with
    | .error stop => .error stop
    | .ok b =>
      if Rom.clen r b = 0 then .error (.raised (.unmappedSymbol i))
      else
        match Memory.fetchMapped r m n (i + 1) with
        | .error stop => .error stop
        | .ok bs => .ok (b :: bs)

/-- The bitstream of a message: its codes in message order (spec/30_encoding.md R134). -/
def messageBits (r : Rom) (msg : List Byte) : List Bool := msg.flatMap (Rom.code r)

/-- The length of what precedes the body: 1 + T, and the four bytes of N in the counted format
(spec/43_bit_packer.md R210). -/
def headerLength (counted : Bool) (r : Rom) : Nat :=
  1 + Rom.tableLength r + (if counted then 4 else 0)

/-- The length of the container (spec/43_bit_packer.md R210). -/
def containerLength (counted : Bool) (r : Rom) (msg : List Byte) : Nat :=
  headerLength counted r + ceilDiv8 (messageBits r msg).length

/-- The container PACK writes (spec/30_encoding.md R130, R133). -/
def container (counted : Bool) (r : Rom) (msg : List Byte) : List Byte :=
  serialize r
    ++ (if counted then be32Bytes (BitVec.ofNat 32 (messageBits r msg).length) else [])
    ++ packBits 0 0 (messageBits r msg)

/-- The body of PACK (spec/43_bit_packer.md R210): every check comes before the first write (R214). Stored lengths are
reduced to their registers' widths, which the checks keep from mattering (DESIGN CHOICE, log 12). -/
def packBody (s : State) : Run :=
  match s.checkInLen with
  | some e => .raised e s
  | none =>
    if Rom.tableLength s.rom > 255 then .raised (.tableTooLarge (Rom.tableLength s.rom)) s
    else
      match Memory.fetchMapped s.rom s.inBuf s.inLen.toNat 0 with
      | .error stop => stop.at s
      | .ok msg =>
        if containerLength s.counted s.rom msg > s.params.outSize then
          .raised (.outOverflow (containerLength s.counted s.rom msg)) s
        else
          .done { s with
            outBuf := Memory.writeList s.outBuf 0 (container s.counted s.rom msg)
            outLen := BitVec.ofNat 17 (containerLength s.counted s.rom msg)
            tableLen := BitVec.ofNat 16 (Rom.tableLength s.rom)
            bitCnt := BitVec.ofNat 32 (messageBits s.rom msg).length
            bodyOff := BitVec.ofNat 17 (headerLength s.counted s.rom) }

/-- PACK (spec/43_bit_packer.md R210). -/
def execPack (s : State) : Host.Outcome State Fault Refusal := Run.finish .pack (packBody s)

end Sys2Proof.Machine
end

