-- ==== Sys2Proof/Machine/TableLoader.lean ====
section
/-! DEFINITION. The table loader: LOADTAB (spec/44_decoder.md R230 to R232). -/

namespace Sys2Proof.Machine

/-- The MalformedContainer stop at an offset (spec/60_exceptions.md R271). -/
def malformedAt (sub : SubCause) (info : Nat) : Stop := .raised (.malformed sub info)

/-- The code bit a table byte stands for; `none` for a byte that is neither '0' nor '1' (spec/30_encoding.md
R132). -/
def bitOfByte (x : Byte) : Option Bool :=
  if x = 0x30 then some false else if x = 0x31 then some true else none

/-- The `n` code-bit bytes from offset `q`, in order; BAD_BIT_BYTE at the first that is neither 0x30 nor 0x31
(spec/44_decoder.md R231). -/
def parseCode (m : Memory) : Nat → Nat → Except Stop Code
  | 0, _ => .ok []
  | n + 1, q =>
    match Memory.fetch m q with
    | .error stop => .error stop
    | .ok x =>
      match bitOfByte x with
      | none => .error (malformedAt .badBitByte q)
      | some b =>
        match parseCode m n (q + 1) with
        | .error stop => .error stop
        | .ok c => .ok (b :: c)

/-- One table entry at `p`, the table ending before `tableEnd`, after the entries `seen`; the checks in the order
of spec/44_decoder.md R231, R232. -/
def parseEntry (m : Memory) (tableEnd : Nat) (seen : List (Byte × Code)) (p : Nat) :
    Except Stop (Byte × Code) :=
  if p + 2 > tableEnd then .error (malformedAt .entryOverrun p)
  else
    match Memory.fetch m p with
    | .error stop => .error stop
    | .ok sym =>
      match Memory.fetch m (p + 1) with
      | .error stop => .error stop
      | .ok len =>
        if len = 0 then .error (malformedAt .zeroCodeLength (p + 1))
        else if p + 2 + len.toNat > tableEnd then .error (malformedAt .entryOverrun p)
        else
          match parseCode m len.toNat (p + 2) with
          | .error stop => .error stop
          | .ok code =>
            if seen.any fun e => e.1 == sym then .error (malformedAt .duplicateSymbol p)
            else if seen.any fun e => isPrefix e.2 code || isPrefix code e.2 then
              .error (malformedAt .notPrefixFree p)
            else .ok (sym, code)

/-- The entries from `p` to the end of the table, after the entries `seen`; with the offset reached. An entry
takes three bytes or more, so as many rounds as the table has bytes are enough. -/
def parseEntries (m : Memory) (tableEnd : Nat) :
    Nat → List (Byte × Code) → Nat → Except Stop (List (Byte × Code) × Nat)
  | 0, seen, p => .ok (seen, p)
  | rounds + 1, seen, p =>
    if p < tableEnd then
      match parseEntry m tableEnd seen p with
      | .error stop => .error stop
      | .ok e => parseEntries m tableEnd rounds (seen ++ [e]) (p + 2 + e.2.length)
    else .ok (seen, p)

/-- What PARSE returns: (E, T, p, N) (spec/44_decoder.md R231). -/
structure ParsedTable where
  entries : List (Byte × Code)
  tableLen : Nat
  bodyOff : Nat
  bitCnt : Word
deriving DecidableEq, Repr

/-- The end of PARSE (spec/44_decoder.md R231): the bit count, read in the counted format, computed in the
legacy one. -/
def parseBitCount (counted : Bool) (m : Memory) (inLen p : Nat) : Except Stop (Nat × Word) :=
  if counted then
    if p + 4 > inLen then .error (malformedAt .noBitCount p)
    else
      match Memory.fetchBE32 m p with
      | .error stop => .error stop
      | .ok n => .ok (p + 4, n)
  else .ok (p, BitVec.ofNat 32 (8 * (inLen - p)))

/-- PARSE (spec/44_decoder.md R231). -/
def parse (counted : Bool) (m : Memory) (inLen : Nat) : Except Stop ParsedTable :=
  if inLen < 1 then .error (malformedAt .noLengthByte 0)
  else
    match Memory.fetch m 0 with
    | .error stop => .error stop
    | .ok t =>
      if 1 + t.toNat > inLen then .error (malformedAt .tableOverrun 0)
      else
        match parseEntries m (1 + t.toNat) t.toNat [] 1 with
        | .error stop => .error stop
        | .ok (entries, p) =>
          match parseBitCount counted m inLen p with
          | .error stop => .error stop
          | .ok (bodyOff, n) =>
            .ok { entries := entries, tableLen := t.toNat, bodyOff := bodyOff, bitCnt := n }

/-- The body of LOADTAB (spec/44_decoder.md R230): nothing is committed before the whole parse succeeds. -/
def loadtabBody (s : State) : Run :=
  match s.checkInLen with
  | some e => .raised e s
  | none =>
    match parse s.counted s.inBuf s.inLen.toNat with
    | .error stop => stop.at s
    | .ok r =>
      .done { s with
        rom := Rom.ofEntries r.entries
        nsym := BitVec.ofNat 9 r.entries.length
        maxLen := BitVec.ofNat 8 ((r.entries.map fun e => e.2.length).foldl max 0)
        tableLen := BitVec.ofNat 16 r.tableLen
        bodyOff := BitVec.ofNat 17 r.bodyOff
        bitCnt := r.bitCnt }

/-- LOADTAB (spec/44_decoder.md R230). -/
def execLoadtab (s : State) : Host.Outcome State Fault Refusal := Run.finish .loadtab (loadtabBody s)

end Sys2Proof.Machine
end

