-- ==== Sys2Proof/Machine/Walker.lean ====
section
/-! DEFINITION. The bit-serial decoder: WALK (spec/44_decoder.md R235 to R242). -/

namespace Sys2Proof.Machine

/-- The walker's transient registers (spec/10_state.md R57) and the OUT_BUF it writes; the bit cursor t is an
argument of the walk. -/
structure Walker where
  /-- CAND, the bits since the last emitted symbol. -/
  cand : Code
  /-- DEAD, absorbing, legacy format only. -/
  dead : Bool
  /-- k, the symbols emitted so far. -/
  k : Nat
  /-- OUT_BUF as written so far. -/
  out : Memory
deriving DecidableEq, Repr

/-- How far the walk came: on, to a `raise` with the OUT_BUF reached (spec/44_decoder.md R241), or to the read
of an unwritten byte. -/
inductive Walked where
  | on (w : Walker)
  | raised (e : CmdError) (out : Memory)
  | unwritten (i : Nat)
deriving DecidableEq, Repr

/-- STEP (spec/44_decoder.md R236) on bit `b` of the body byte at offset `pos` of IN_BUF: the table scan over
the ROM's entries. -/
def stepBit (counted : Bool) (entries : List (Byte × Code)) (outSize pos : Nat) (b : Bool) (w : Walker) :
    Walked :=
  if w.dead then .on w
  else
    match entries.find? fun e => e.2 == w.cand ++ [b] with
    | some e =>
      if w.k = outSize then .raised (.outOverflow pos) w.out
      else .on { w with out := Memory.write w.out w.k e.1, k := w.k + 1, cand := [] }
    | none =>
      if entries.any fun e => isProperPrefix (w.cand ++ [b]) e.2 then .on { w with cand := w.cand ++ [b] }
      else if counted then .raised (.malformed .deadPath pos) w.out
      else .on { w with dead := true, cand := [] }

/-- The walk of the bits t, t+1, … of the body at `base`, as many as the first number says, each read MSB-first
(spec/44_decoder.md R235). -/
def walkBits (counted : Bool) (entries : List (Byte × Code)) (outSize : Nat) (m : Memory) (base : Nat) :
    Nat → Nat → Walker → Walked
  | 0, _, w => .on w
  | n + 1, t, w =>
    match Memory.fetchBit m base t with
    | .error (.unwritten i) => .unwritten i
    | .error (.raised e) => .raised e w.out
    | .ok b =>
      match stepBit counted entries outSize (base + t / 8) b w with
      | .on w' => walkBits counted entries outSize m base n (t + 1) w'
      | .raised e out => .raised e out
      | .unwritten i => .unwritten i

/-- The structural checks of WALK (spec/44_decoder.md R235, state W_CHECK of R242), before any bit is walked;
their result is the number of bits to walk. -/
def walkCheck (s : State) : Except Stop Nat :=
  if s.bodyOff.toNat > s.inLen.toNat then .error (malformedAt .bodyLength s.inLen.toNat)
  else if s.counted then
    if s.inLen.toNat - s.bodyOff.toNat ≠ ceilDiv8 s.bitCnt.toNat then
      .error (malformedAt .bodyLength s.inLen.toNat)
    else if s.bitCnt.toNat % 8 ≠ 0 then
      match Memory.fetch s.inBuf (s.bodyOff.toNat + ceilDiv8 s.bitCnt.toNat - 1) with
      | .error stop => .error stop
      | .ok last =>
        if last &&& (((1 : Byte) <<< (8 - s.bitCnt.toNat % 8)) - 1) ≠ 0 then
          .error (malformedAt .nonzeroPadding (s.bodyOff.toNat + ceilDiv8 s.bitCnt.toNat - 1))
        else .ok s.bitCnt.toNat
    else .ok s.bitCnt.toNat
  else .ok (8 * (s.inLen.toNat - s.bodyOff.toNat))

/-- END (spec/44_decoder.md R237, R238): a leftover candidate is TRUNCATED_CODE in the counted format and is
dropped in the legacy one. -/
def walkEnd (s : State) (w : Walker) : Run :=
  if s.counted && !w.cand.isEmpty then
    .raised (.malformed .truncatedCode s.inLen.toNat) { s with outBuf := w.out }
  else .done { s with outBuf := w.out, outLen := BitVec.ofNat 17 w.k }

/-- The body of WALK (spec/44_decoder.md R235). -/
def walkBody (s : State) : Run :=
  match s.checkInLen with
  | some e => .raised e s
  | none =>
    match walkCheck s with
    | .error stop => stop.at s
    | .ok nbits =>
      match walkBits s.counted (Rom.entries s.rom) s.params.outSize s.inBuf s.bodyOff.toNat nbits 0
          { cand := [], dead := false, k := 0, out := s.outBuf } with
      | .unwritten i => .unwritten i
      | .raised e out => .raised e { s with outBuf := out }
      | .on w => walkEnd s w

/-- WALK (spec/44_decoder.md R235). -/
def execWalk (s : State) : Host.Outcome State Fault Refusal := Run.finish .walk (walkBody s)

end Sys2Proof.Machine
end

