-- ==== Sys2Proof/Machine/Composite.lean ====
section
/-! DEFINITION. ENCODE and DECODE (spec/45_composite.md R260, R261). -/

namespace Sys2Proof.Machine

/-- The body of BUILD, skipped for the empty message (spec/45_composite.md R260). -/
def buildIfMessage (s : State) : Run := if s.inLen.toNat > 0 then buildBody s else .done s

/-- The body of ENCODE (spec/45_composite.md R260). -/
def encodeBody (s : State) : Run :=
  match s.checkInLen with
  | some e => .raised e s
  | none => (((clearBody s).andThen histBody).andThen buildIfMessage).andThen packBody

/-- ENCODE (spec/45_composite.md R260). -/
def execEncode (s : State) : Host.Outcome State Fault Refusal := Run.finish .encode (encodeBody s)

/-- The body of DECODE (spec/45_composite.md R261). -/
def decodeBody (s : State) : Run :=
  match s.checkInLen with
  | some e => .raised e s
  | none => (loadtabBody s).andThen walkBody

/-- DECODE (spec/45_composite.md R261). -/
def execDecode (s : State) : Host.Outcome State Fault Refusal := Run.finish .decode (decodeBody s)

end Sys2Proof.Machine
end

