-- ==== Sys2Proof/Machine/Bus.lean ====
section
/-! DEFINITION. Host accesses (spec/20_memory.md R80 to R92, spec/60_exceptions.md R279) and the issue of a
command (spec/40_command_control.md R160). -/

namespace Sys2Proof.Machine

/-! ## The address map -/

/-- The region of an offset (spec/20_memory.md R82). -/
def regionOf (off : Offset) : Region :=
  if off.toNat < 0x01000 then .reg
  else if off.toNat < 0x01400 then .histw
  else if off.toNat < 0x02000 then .gap
  else if off.toNat < 0x06000 then .romw
  else if off.toNat < 0x10000 then .gap
  else if off.toNat < 0x20000 then .inw
  else if off.toNat < 0x30000 then .outw
  else .gap

/-- The register at an offset of REG; `none` at 0x034 to 0xFFC (spec/10_state.md R31 to R44). -/
def regAt (off : Offset) : Option Reg :=
  match off.toNat with
  | 0x000 => some .id
  | 0x004 => some .ctrl
  | 0x008 => some .cmd
  | 0x00C => some .status
  | 0x010 => some .errCode
  | 0x014 => some .errInfo
  | 0x018 => some .inLen
  | 0x01C => some .outLen
  | 0x020 => some .nsym
  | 0x024 => some .maxLen
  | 0x028 => some .tableLen
  | 0x02C => some .bitCnt
  | 0x030 => some .bodyOff
  | _ => none

/-- The symbol of a HISTW word (spec/10_state.md R46). -/
def histSymbol (off : Offset) : Byte := BitVec.ofNat 8 ((off.toNat - 0x1000) / 4)

/-- The symbol of a ROMW word: its 64-byte slot (spec/10_state.md R48). -/
def romSymbol (off : Offset) : Byte := BitVec.ofNat 8 ((off.toNat - 0x2000) / 0x40)

/-- The word of a ROMW slot, 0 to 15 (spec/10_state.md R48). -/
def romSlotWord (off : Offset) : Nat := (off.toNat - 0x2000) % 0x40 / 4

/-- The index of a byte of IN_BUF (spec/20_memory.md R84). -/
def inIndex (off : Offset) : Nat := off.toNat - 0x10000

/-- The index of a byte of OUT_BUF (spec/20_memory.md R85). -/
def outIndex (off : Offset) : Nat := off.toNat - 0x20000

/-! ## The checks of the bus -/

/-- The width check: an 8-bit access only in INW and OUTW (spec/20_memory.md R86). -/
def accessWidthLegal (a : Access) : Bool :=
  if a.width = 8 then
    match regionOf a.off with
    | .inw | .outw => true
    | .reg | .histw | .romw | .gap => false
  else true

/-- The alignment check: off[1:0] = 0 for a 32-bit access (spec/20_memory.md R87). -/
def accessAligned (a : Access) : Bool :=
  if a.width = 32 then a.off.extractLsb' 0 2 == 0 else true

/-! ## Reads -/

/-- CODEW[k] of a code: bit 31 - j is `c_{32k+j}`, 0 past the code's end (spec/10_state.md R48). -/
def codeWord (c : Code) (k : Nat) : Word :=
  BitVec.ofNat 32 ((List.range 32).foldl (fun acc j => 2 * acc + (c.getD (32 * k + j) false).toNat) 0)

/-- The words of a ROM slot: CLENW, CODEW[0..7], then words that hold nothing (spec/10_state.md R48). -/
def romSlot (c : Code) (n : Nat) : Word :=
  if n = 0 then BitVec.ofNat 32 (c.length % 256)
  else if n ≤ 8 then codeWord c (n - 1)
  else 0

/-- A buffer byte as the host reads it, and the draw counter after: a byte nothing has written since reset is
a free draw (spec/70_reset_and_hazards.md R304, log 6). -/
def hostByte (m : Memory) (i draws : Nat) : Byte × Nat :=
  match Memory.read m i with
  | some b => (b, draws)
  | none => (Config.freeByte draws, draws + 1)

/-- Four buffer bytes from index `i` as a word, little-endian (spec/20_memory.md R90). -/
def hostWord (m : Memory) (i draws : Nat) : Word × Nat :=
  let b0 := hostByte m i draws
  let b1 := hostByte m (i + 1) b0.2
  let b2 := hostByte m (i + 2) b1.2
  let b3 := hostByte m (i + 3) b2.2
  (b3.1 ++ b2.1 ++ b1.1 ++ b0.1, b3.2)

/-- A read of a command's output: while BUSY = 1 a free draw, otherwise the value (spec/60_exceptions.md
R279). -/
def State.output (s : State) (v : Word) : Word × Nat :=
  if s.status.busy then (Config.freeWord s.draws, s.draws + 1) else (v, s.draws)

/-- The data of a Read8, and the draw counter after (spec/20_memory.md R84, R85, R89). -/
def State.read8 (s : State) (off : Offset) : Byte × Nat :=
  match regionOf off with
  | .inw => if inIndex off < s.params.inSize then hostByte s.inBuf (inIndex off) s.draws else (0, s.draws)
  | .outw =>
    if outIndex off < s.params.outSize then
      if s.status.busy then (Config.freeByte s.draws, s.draws + 1)
      else hostByte s.outBuf (outIndex off) s.draws
    else (0, s.draws)
  | .reg | .histw | .romw | .gap => (0, s.draws)

/-- The data of a Read32, and the draw counter after (spec/20_memory.md R82 to R90, spec/60_exceptions.md
R279). The words of a ROM slot that hold nothing read 0 while busy too (DEDUCED, log 15). -/
def State.read32 (s : State) (off : Offset) : Word × Nat :=
  match regionOf off with
  | .reg =>
    match regAt off with
    | some r => if regIsResult r then s.output (s.regWord r) else (s.regWord r, s.draws)
    | none => (0, s.draws)
  | .histw => s.output (Hist.count s.hist (histSymbol off))
  | .romw =>
    if romSlotWord off ≤ 8 then s.output (romSlot (Rom.code s.rom (romSymbol off)) (romSlotWord off))
    else (0, s.draws)
  | .inw => if inIndex off < s.params.inSize then hostWord s.inBuf (inIndex off) s.draws else (0, s.draws)
  | .outw =>
    if outIndex off < s.params.outSize then
      if s.status.busy then (Config.freeWord s.draws, s.draws + 1)
      else hostWord s.outBuf (outIndex off) s.draws
    else (0, s.draws)
  | .gap => (0, s.draws)

/-! ## Writes -/

/-- The bytes of a word at rising indexes, little-endian (spec/20_memory.md R90). -/
def wordBytes (v : Word) : List Byte := [byteLane v 0, byteLane v 1, byteLane v 2, byteLane v 3]

/-- Command issue, the write of CMD (spec/40_command_control.md R160): while a command runs the word is
dropped and OVR set; otherwise acceptance. It tests SEQ, as R160 does, where the other writes test BUSY (DEDUCED,
log 17). -/
def State.issue (w : Word) (s : State) : State :=
  match s.seq with
  | .idle => s.accept w
  | .run _ => s.setOvr
  | .illegal _ => s.setOvr

/-- The write of CTRL: ignored while BUSY = 1, setting OVR (spec/10_state.md R32). -/
def State.writeCtrl (w : Word) (s : State) : State :=
  if s.status.busy then s.setOvr else { s with ctrl := Ctrl.ofWord w }

/-- The write of IN_LEN: ignored while BUSY = 1, setting OVR; bits [31:17] are dropped (spec/10_state.md
R37). -/
def State.writeInLen (w : Word) (s : State) : State :=
  if s.status.busy then s.setOvr else { s with inLen := w.setWidth 17 }

/-- The write of a register; read-only registers ignore it (spec/10_state.md R31 to R43). -/
def State.writeReg (r : Reg) (w : Word) (s : State) : State :=
  match r with
  | .ctrl => s.writeCtrl w
  | .cmd => s.issue w
  | .status => s.writeStatus w
  | .inLen => s.writeInLen w
  | .id | .errCode | .errInfo | .outLen | .nsym | .maxLen | .tableLen | .bitCnt | .bodyOff => s

/-- A host write of bytes to a buffer: refused while BUSY = 1, where the model has no step
(spec/70_reset_and_hazards.md R310; the bus checks come first: DEDUCED, log 16). -/
def State.writeBuffer (s : State) (off : Offset) (t : State) : Host.Outcome State Fault Refusal :=
  if s.status.busy then .refused (.bufferWriteWhileBusy off) else .next t

/-- The write of `bytes` at an offset of INW or OUTW; at or above the buffer's size it is ignored
(spec/20_memory.md R84, R85, R89). -/
def State.writeBytes (s : State) (off : Offset) (bytes : List Byte) : Host.Outcome State Fault Refusal :=
  match regionOf off with
  | .inw =>
    if inIndex off < s.params.inSize then
      s.writeBuffer off { s with inBuf := Memory.writeList s.inBuf (inIndex off) bytes }
    else .next s
  | .outw =>
    if outIndex off < s.params.outSize then
      s.writeBuffer off { s with outBuf := Memory.writeList s.outBuf (outIndex off) bytes }
    else .next s
  | .reg | .histw | .romw | .gap => .next s

/-- The effect of a Write32 (spec/20_memory.md R82 to R92). -/
def State.write32 (s : State) (off : Offset) (v : Word) : Host.Outcome State Fault Refusal :=
  match regionOf off with
  | .reg =>
    match regAt off with
    | some r => .next (s.writeReg r v)
    | none => .next s
  | .inw => s.writeBytes off (wordBytes v)
  | .outw => s.writeBytes off (wordBytes v)
  | .histw | .romw | .gap => .next s

/-- The response OK of a write. -/
def respondOk (o : Host.Outcome State Fault Refusal) : Host.Outcome State Fault Refusal :=
  match o with
  | .next s => .next { s with busResp := .ok }
  | .fault f => .fault f
  | .refused r => .refused r

/-- The effect of an access that passed the checks. -/
def State.perform (s : State) : Access → Host.Outcome State Fault Refusal
  | .read8 off => .next { s with busResp := .data8 (s.read8 off).1, draws := (s.read8 off).2 }
  | .read32 off => .next { s with busResp := .data32 (s.read32 off).1, draws := (s.read32 off).2 }
  | .write8 off v => respondOk (s.writeBytes off [v])
  | .write32 off v => respondOk (s.write32 off v)

/-- A host access: the width check, then the alignment check, then its effect; either check's failure is
BUSERR, a host fault (spec/20_memory.md R81, R86, R87). -/
def hostAccess (a : Access) (s : State) : Host.Outcome State Fault Refusal :=
  if !accessWidthLegal a then .fault (.hostBusError a.off a.width)
  else if !accessAligned a then .fault (.hostBusError a.off a.width)
  else s.perform a

end Sys2Proof.Machine
end

