-- ==== Sys2Proof/Machine/Step.lean ====
section
/-! DEFINITION. One step of HUFF1 with its host: the oldest event to come (spec/20_memory.md R94; log 1). -/

namespace Sys2Proof.Machine

/-- The core's turn: a running command completes (spec/70_reset_and_hazards.md R309); an idle core has nothing
to do. -/
def coreTurn (s : State) : Host.Outcome State Fault Refusal :=
  match s.seq with
  | .idle => .next s
  | .run i => exec i s
  | .illegal w => execIllegal w s

/-- One step. With no event to come the core has the turn, so a running command is completed in the end (weak
fairness, spec/70_reset_and_hazards.md R309; log 3). -/
def step (s : State) : Host.Outcome State Fault Refusal :=
  match s.events with
  | [] => coreTurn s
  | .core :: rest => coreTurn { s with events := rest }
  | .reset :: rest => .next (State.applyReset { s with events := rest })
  | .access a :: rest => hostAccess a { s with events := rest }

/-- `s` with the command word of the lowest `nbits` bits of `w` ACCEPTED and the core's turn next, so that the
next step runs that command (log 2). HUFF1 fetches nothing: a command word reaches it by a CMD write, and its
acceptance (spec/40_command_control.md R160) is what stands for the fetch. -/
def State.withFetchWord (s : State) (nbits w : Nat) : State :=
  State.accept (tableWord nbits w)
    { s with
      events :=
        match s.events with
        | [] => []
        | e :: rest => .core :: e :: rest }

end Sys2Proof.Machine
end

