-- ==== Sys2Proof/Machine/Script.lean ====
section
/-! DEFINITION. The host script, HUFF1's assembler (spec/30_encoding.md R140, R141): a program is the list of bus
accesses a host issues, here with the core's turns among them (log 1, log 14). -/

namespace Sys2Proof.Machine

/-- `wr32 OFF, VAL`. -/
def Script.wr32 (off : Offset) (v : Word) : List Event := [.access (.write32 off v)]

/-- `wr8 OFF, VAL`: the data is VAL[7:0]. -/
def Script.wr8 (off : Offset) (v : Word) : List Event := [.access (.write8 off (v.setWidth 8))]

/-- `rd32 OFF`. -/
def Script.rd32 (off : Offset) : List Event := [.access (.read32 off)]

/-- `rd8 OFF`. -/
def Script.rd8 (off : Offset) : List Event := [.access (.read8 off)]

/-- `cmd NAME`. -/
def Script.cmd (i : Instr) : List Event := Script.wr32 0x008 (encode i)

/-- `n` reads of STATUS. -/
def Script.polls (n : Nat) : List Event := (List.replicate n (Script.rd32 0x00C)).flatten

/-- `wait` when the command completes after `before` polls have read BUSY = 1: those polls, the core's turn, and
the poll that reads BUSY = 0. "The loop may run zero or more extra times": any `before` is a run of it. -/
def Script.wait (before : Nat) : List Event := Script.polls before ++ [.core] ++ Script.polls 1

/-- `ctrl FMT, IE`. -/
def Script.ctrl (fmt ie : Bool) : List Event := Script.wr32 0x004 ((bitWord ie <<< 1) ||| bitWord fmt)

/-- `wr8 0x10000+i, b_i` for the bytes of a list, from index `i`. -/
def Script.storeBytes : Nat → List Byte → List Event
  | _, [] => []
  | i, b :: bs => Script.wr8 (BitVec.ofNat 18 (0x10000 + i)) (b.setWidth 32) ++ Script.storeBytes (i + 1) bs

/-- `load b0, b1, …`. -/
def Script.load (bytes : List Byte) : List Event :=
  Script.storeBytes 0 bytes ++ Script.wr32 0x018 (BitVec.ofNat 32 bytes.length)

/-- The ASCII bytes of a text. -/
def Script.ascii (text : String) : List Byte := text.toList.map fun c => BitVec.ofNat 8 c.toNat

/-- `loadstr "text"`. -/
def Script.loadstr (text : String) : List Event := Script.load (Script.ascii text)

/-- `ack`: clears DONE, ERR, OVR. -/
def Script.ack : List Event := Script.wr32 0x00C 0x0000000E

/-- `run NAME`, the command completing after `before` polls. -/
def Script.run (i : Instr) (before : Nat) : List Event := Script.cmd i ++ Script.wait before

/-- The bus accesses of a list of events: the program's encoding (spec/30_encoding.md R140). -/
def Script.accesses : List Event → List Access
  | [] => []
  | .access a :: rest => a :: Script.accesses rest
  | .core :: rest => Script.accesses rest
  | .reset :: rest => Script.accesses rest

/-- The machine with a script to come. -/
def State.withScript (s : State) (events : List Event) : State := { s with events := events }

end Sys2Proof.Machine
end

