-- ==== Sys2Proof/Safety.lean ====
section
/-! DEFINITION. The terms claims about HUFF1 use: what a buffer holds, the end of a run and what is observed at it,
and the invariants the spec's prose gives the whole machine. -/

namespace Sys2Proof.Machine

/-! ## What buffers hold -/

/-- The bytes of a list stand at rising indexes from `p`. -/
def HoldsAt (m : Memory) (p : Nat) (bytes : List Byte) : Prop :=
  ∀ i, i < bytes.length → Memory.read m (p + i) = bytes[i]?

/-- Every byte below `n` has been written since reset. -/
def WrittenBelow (m : Memory) (n : Nat) : Prop := ∀ i, i < n → Memory.read m i ≠ none

/-- Two buffers agree at `n` and above. -/
def SameFrom (n : Nat) (m m' : Memory) : Prop := ∀ i, n ≤ i → Memory.read m' i = Memory.read m i

/-! ## The code table -/

/-- No code is a prefix of another symbol's code, equality included (spec/10_state.md R49). -/
def PrefixFree (r : Rom) : Prop :=
  ∀ a b, a ≠ b → Rom.code r a ≠ [] → Rom.code r b ≠ [] → isPrefix (Rom.code r a) (Rom.code r b) = false

/-- Table entries a decoder accepts in any order (spec/44_decoder.md R231): distinct symbols, nonempty codes,
no code a prefix of another. -/
def GoodEntries (entries : List (Byte × Code)) : Prop :=
  (∀ e ∈ entries, e.2 ≠ []) ∧
  entries.Pairwise fun e f => e.1 ≠ f.1 ∧ isPrefix e.2 f.2 = false ∧ isPrefix f.2 e.2 = false

/-- Every byte of a message has a code. -/
def Mapped (r : Rom) (msg : List Byte) : Prop := ∀ b ∈ msg, Rom.code r b ≠ []

/-- The code table BUILD derives from a histogram (spec/42_tree_builder.md R190 to R195), empty for an empty
one. -/
def codeTable (h : Hist) : Rom :=
  match buildTree (seedLeaves 0 (Hist.present h)) with
  | none => Rom.empty
  | some root => Rom.ofEntries (codesOf root [])

/-- The code table ENCODE uses for a message (spec/45_composite.md R260). -/
def messageTable (msg : List Byte) : Rom := codeTable (Hist.countBytes Hist.zero msg)

/-- The body at `base` holds these bits (spec/30_encoding.md R134): stream bit t is bit 7 - (t mod 8) of body byte
t div 8, and the bits of the last byte past the stream's end are 0. -/
def BodyHolds (m : Memory) (base : Nat) (bits : List Bool) : Prop :=
  ∀ t, t < 8 * ceilDiv8 bits.length →
    ∃ b, Memory.read m (base + t / 8) = some b ∧ b.getLsbD (7 - t % 8) = bits.getD t false

/-- The bytes before the bit count and the body: T, then the table (spec/30_encoding.md R130, R131). -/
def tableBytes (entries : List (Byte × Code)) : List Byte :=
  BitVec.ofNat 8 (entriesLength entries) :: serializeEntries entries

/-- The header of a container: the table, and N in the counted format (spec/30_encoding.md R130, R133). -/
def headerBytes (counted : Bool) (entries : List (Byte × Code)) (n : Nat) : List Byte :=
  tableBytes entries ++ (if counted then be32Bytes (BitVec.ofNat 32 n) else [])

/-- The length of a header. -/
def headerSize (counted : Bool) (entries : List (Byte × Code)) : Nat :=
  1 + entriesLength entries + (if counted then 4 else 0)

/-- The order in which two present symbols' leaves pop: the smaller count first, among equal counts the smaller symbol
(spec/42_tree_builder.md R191, R192). -/
def PopsBefore (h : Hist) (a b : Byte) : Prop :=
  (Hist.count h a).toNat < (Hist.count h b).toNat ∨ (Hist.count h a = Hist.count h b ∧ a.toNat < b.toNat)

/-- A bit string that stays inside a code: the root, or a proper prefix of some code (spec/44_decoder.md R242). -/
def InsideACode (r : Rom) (c : Code) : Prop := c = [] ∨ ∃ b, c <+: Rom.code r b ∧ c.length < Rom.clen r b

/-! ## Command words, completions -/

/-- The match word of each command, as the table of spec/30_encoding.md R121 writes it. -/
def matchWord : Instr → Word
  | .nop => 0x00000000
  | .clear => 0x00000001
  | .hist => 0x00000002
  | .build => 0x00000003
  | .pack => 0x00000004
  | .loadtab => 0x00000005
  | .walk => 0x00000006
  | .encode => 0x00000010
  | .decode => 0x00000011

/-- STATUS after a successful completion: BUSY <- 0, DONE <- 1 (spec/60_exceptions.md R274). -/
def doneStatus (s : State) : Status := { s.status with busy := false, done := true }

/-- STATUS after an error completion: BUSY <- 0, ERR <- 1 (spec/60_exceptions.md R275). -/
def errStatus (s : State) : Status := { s.status with busy := false, err := true }

/-- `s` with an error reported and nothing else changed (spec/60_exceptions.md R275, for a command that does not
write OUT_BUF). -/
def State.failed (s : State) (cause sub : Byte) (info : Nat) : State :=
  { s with
    errCode := { cause := cause, sub := sub }
    errInfo := BitVec.ofNat 32 info
    status := errStatus s
    seq := .idle }

/-- `s` with an error reported and OUT_LEN <- 0 (spec/60_exceptions.md R275, for a command that writes
OUT_BUF). -/
def State.failedOut (s : State) (cause sub : Byte) (info : Nat) : State :=
  { s.failed cause sub info with outLen := 0 }

/-! ## Host accesses -/

/-- The machine with one event to come before the others. -/
def State.withNext (s : State) (e : Event) : State := { s with events := e :: s.events }

/-- A Read32 at an offset answers this data and has no side effect. -/
def ReadsWord (s : State) (off : Nat) (v : Word) : Prop :=
  step (s.withNext (.access (.read32 (BitVec.ofNat 18 off)))) = .next { s with busResp := .data32 v }

/-- A Read8 at an offset answers this data and has no side effect. -/
def ReadsByte (s : State) (off : Nat) (v : Byte) : Prop :=
  step (s.withNext (.access (.read8 (BitVec.ofNat 18 off)))) = .next { s with busResp := .data8 v }

/-- A Read32 at an offset answers a free draw: the draw at the counter, which it advances (log 6). -/
def DrawsWord (s : State) (off : Nat) : Prop :=
  step (s.withNext (.access (.read32 (BitVec.ofNat 18 off)))) =
    .next { s with busResp := .data32 (Config.freeWord s.draws), draws := s.draws + 1 }

/-- A Read8 at an offset answers a free draw (log 6). -/
def DrawsByte (s : State) (off : Nat) : Prop :=
  step (s.withNext (.access (.read8 (BitVec.ofNat 18 off)))) =
    .next { s with busResp := .data8 (Config.freeByte s.draws), draws := s.draws + 1 }

/-- The bytes a host reads where some have not been written: each such byte takes the next free draw, lowest byte first
(spec/70_reset_and_hazards.md R304, log 6). -/
def fillDraws : Nat → List (Option Byte) → List Byte
  | _, [] => []
  | d, some b :: rest => b :: fillDraws d rest
  | d, none :: rest => Config.freeByte d :: fillDraws (d + 1) rest

/-- A Write32 at an offset takes the machine from one state to another, with response OK. -/
def WritesWord (s : State) (off : Nat) (v : Word) (t : State) : Prop :=
  step (s.withNext (.access (.write32 (BitVec.ofNat 18 off) v))) = .next { t with busResp := .ok }

/-- A Write8 at an offset takes the machine from one state to another, with response OK. -/
def WritesByte (s : State) (off : Nat) (v : Byte) (t : State) : Prop :=
  step (s.withNext (.access (.write8 (BitVec.ofNat 18 off) v))) = .next { t with busResp := .ok }

/-! ## The end of a run (spec/70_reset_and_hazards.md R311) -/

/-- The host has issued its last access and the core is idle. -/
def Final (s : State) : Prop := Script.accesses s.events = [] ∧ s.seq = .idle

/-- What a final state shows (spec/70_reset_and_hazards.md R311): the registers, HIST, the ROM, and OUT_BUF
below OUT_LEN. -/
structure Observation where
  regs : List Word
  hist : Hist
  rom : Rom
  out : List (Option Byte)
deriving DecidableEq, Repr

/-- The observation of a state. -/
def State.observe (s : State) : Observation where
  regs := [Reg.id, .ctrl, .cmd, .status, .errCode, .errInfo, .inLen, .outLen, .nsym, .maxLen, .tableLen,
    .bitCnt, .bodyOff].map s.regWord
  hist := s.hist
  rom := s.rom
  out := (List.range s.outLen.toNat).map (Memory.read s.outBuf)

/-- A run of `k` steps is safe when it reaches no fault and no refusal. -/
def SafeFor (k : Nat) (s : State) : Prop := ∃ t, Host.Core.run Sys2Proof.core k s = .next t

/-! ## Invariants -/

/-- BUSY = 1 exactly when SEQ is not IDLE (spec/10_state.md R54); DONE and ERR are never both 1, and while
BUSY = 1 both are 0 (spec/10_state.md R34). -/
def StatusInv (s : State) : Prop :=
  (s.status.busy = true ↔ s.seq ≠ .idle) ∧
  ¬(s.status.done = true ∧ s.status.err = true) ∧
  (s.status.busy = true → s.status.done = false ∧ s.status.err = false)

/-- Both buffers are in canonical form and lie within their sizes; the sizes are legal. -/
def BufferInv (s : State) : Prop :=
  s.params.wellFormed = true ∧
  Memory.wf s.inBuf ∧ Memory.within s.inBuf s.params.inSize ∧
  Memory.wf s.outBuf ∧ Memory.within s.outBuf s.params.outSize

/-- The sum of the counters fits 32 bits (spec/10_state.md R45, spec/41_histogram.md R180). -/
def HistInv (s : State) : Prop := Hist.total s.hist ≤ countCap

/-- The code ROM is prefix-free with codes of at most 255 bits, and NSYM, MAXLEN and TABLE_LEN are its number of
entries, its greatest length and its table size (spec/10_state.md R39 to R41, R47, R49). -/
def RomInv (s : State) : Prop :=
  PrefixFree s.rom ∧ (∀ b, Rom.clen s.rom b ≤ 255) ∧
  s.nsym.toNat = (Rom.entries s.rom).length ∧
  s.maxLen.toNat = Rom.longest s.rom ∧
  s.tableLen.toNat = Rom.tableLength s.rom

/-- ERRCODE and ERRINFO (spec/10_state.md R35, R36; spec/60_exceptions.md R270 to R274): no reserved CAUSE or SUB;
SUB is nonzero exactly for MalformedContainer; while ERR = 1 there is a cause; while a command runs and after
a successful completion both registers are 0. -/
def ErrorInv (s : State) : Prop :=
  s.errCode.cause.toNat ≤ 9 ∧ s.errCode.sub.toNat ≤ 12 ∧
  (s.errCode.sub ≠ 0 ↔ s.errCode.cause = 4) ∧
  (s.status.err = true → s.errCode.cause ≠ 0) ∧
  (s.status.busy = true ∨ s.status.done = true → s.errCode = { cause := 0, sub := 0 } ∧ s.errInfo = 0)

end Sys2Proof.Machine
end

