-- ==== Sys2Proof/Certificates/Slice0/Obligations.lean ====
section
/-! DEFINITION. The statements for the provers, from the numbered rules of spec/. -/

open Sys2Proof Sys2Proof.Machine

/-! ## Encoding -/

/-- spec/30_encoding.md R121: the nine words, and words the spec names as illegal (R122, R161). -/
def Obligations.CommandWordsDecode : Prop :=
  decode 0x00000000 = .ok .nop ∧ decode 0x00000001 = .ok .clear ∧ decode 0x00000002 = .ok .hist ∧
  decode 0x00000003 = .ok .build ∧ decode 0x00000004 = .ok .pack ∧ decode 0x00000005 = .ok .loadtab ∧
  decode 0x00000006 = .ok .walk ∧ decode 0x00000010 = .ok .encode ∧ decode 0x00000011 = .ok .decode ∧
  decode 0x00000100 = .error .mustBeZero ∧ decode 0x00000007 = .error .unlistedOpcode ∧
  decode 0x000000FF = .error .unlistedOpcode ∧ decode 0x80000010 = .error .mustBeZero

/-- spec/30_encoding.md R122: which words are illegal, by their fields. -/
def Obligations.IllegalWordsByField : Prop :=
  ∀ w : Word, (∃ r, decode w = .error r) ↔
    (256 ≤ w.toNat ∨ (0x07 ≤ w.toNat ∧ w.toNat ≤ 0x0F) ∨ (0x12 ≤ w.toNat ∧ w.toNat ≤ 0xFF))

/-- spec/30_encoding.md R120, R121: a word selects a command only when it equals the match word exactly; the encoder
writes that word, and decoding it gives the command back, for every command. -/
def Obligations.EncodeDecodeAgree : Prop :=
  (∀ (w : Word) (i : Instr), decode w = .ok i ↔ w = matchWord i) ∧
  (∀ i : Instr, encode i = matchWord i ∧ decode (encode i) = .ok i)

/-! ## Steps -/

/-- A step runs the decoded command: at the core's turn, with SEQ = RUN(i), the step is `exec i`; and a word that
decodes to `i`, placed by `withFetchWord`, is run by the very next step from its acceptance. What a step does
otherwise is the model's order of events (DESIGN CHOICE, log 1, log 2, log 3): it takes the oldest event to come,
performs an access, applies reset, and an idle core has nothing to do. -/
def Obligations.StepRunsDecodedCommand : Prop :=
  (∀ (s : State) (i : Instr), s.seq = .run i → s.events = [] → step s = exec i s) ∧
  (∀ (s : State) (i : Instr), s.seq = .run i → step (s.withNext .core) = exec i s) ∧
  (∀ (s : State) (w : Word) (i : Instr), decode w = .ok i →
    step (s.withFetchWord 32 w.toNat) = exec i (s.accept w)) ∧
  (∀ (s : State) (a : Access), step (s.withNext (.access a)) = hostAccess a s) ∧
  (∀ s : State, step (s.withNext .reset) = .next s.applyReset) ∧
  (∀ s : State, s.seq = .idle → step (s.withNext .core) = .next s) ∧
  (∀ s : State, s.seq = .idle → s.events = [] → step s = .next s)

/-- spec/40_command_control.md R160, the write of CMD: acceptance when idle, lost with OVR when a command runs. -/
def Obligations.CommandIssue : Prop :=
  (∀ (s : State) (w : Word), s.seq = .idle →
    ∃ q, WritesWord s 0x008 w
        { s with
          status := { busy := true, done := false, err := false, ovr := s.status.ovr }
          errCode := { cause := 0, sub := 0 }
          errInfo := 0
          seq := q } ∧
      (∀ i, w = matchWord i → q = .run i) ∧
      ((∀ i, w ≠ matchWord i) → q = .illegal w)) ∧
  (∀ (s : State) (w : Word), s.seq ≠ .idle →
    WritesWord s 0x008 w { s with status := { s.status with ovr := true } })

/-- spec/40_command_control.md R161 (and R160's acceptance of the word): writing an illegal word to CMD while idle is
accepted, and its run completes with IllegalCommand and INFO = w; nothing else changes. -/
def Obligations.IllegalCommandReportsTheWord : Prop :=
  (∀ (s : State) (w : Word), (∀ i, w ≠ matchWord i) → s.seq = .idle →
    ∃ t, WritesWord s 0x008 w t ∧ t.seq = .illegal w ∧ step (t.withNext .core) = .next
      { s with
        errCode := { cause := 8, sub := 0 }
        errInfo := w
        status := { busy := false, done := false, err := true, ovr := s.status.ovr }
        seq := .idle }) ∧
  (∀ (s : State) (w : Word), s.seq = .illegal w →
    step (s.withNext .core) = .next
      { s with
        errCode := { cause := 8, sub := 0 }
        errInfo := w
        status := errStatus s
        seq := .idle })

/-- Completion is always reached when every operand byte has been written (spec/40_command_control.md R160): the
command ends idle, with DONE and no new error, or with ERR and a cause. -/
def Obligations.EveryCommandCompletes : Prop :=
  ∀ (i : Instr) (s : State), WrittenBelow s.inBuf s.inLen.toNat →
    ∃ t, exec i s = .next t ∧ t.seq = .idle ∧ t.status.busy = false ∧
      ((t.status = doneStatus s ∧ t.errCode = s.errCode ∧ t.errInfo = s.errInfo) ∨
        (t.status = errStatus s ∧ t.errCode.cause ≠ 0))

/-- spec/70_reset_and_hazards.md R304: a command stops only at the read of an IN_BUF byte below IN_LEN that nothing has
written, and no command is refused; and a command that reads such a byte does stop, with UnwrittenInput at its index:
HIST, ENCODE and PACK at the first such byte of the message, LOADTAB and DECODE at one where T, an entry or the bit count
begins, WALK at the first such byte of a legacy body it reaches, and in the counted format at the byte of the padding
check and at the first byte of a body without padding. -/
def Obligations.CommandStopsOnlyAtUnwrittenInput : Prop :=
  (∀ (i : Instr) (s : State),
    (∀ f, exec i s = .fault f →
      ∃ n, n < s.inLen.toNat ∧ Memory.read s.inBuf n = none ∧ f = .unwrittenInput n) ∧
    (∀ r, exec i s ≠ .refused r)) ∧
  ∀ (s : State) (n : Nat), s.inLen.toNat ≤ s.params.inSize → n < s.inLen.toNat → Memory.read s.inBuf n = none →
    (WrittenBelow s.inBuf n →
      (Hist.total s.hist + s.inLen.toNat ≤ 2 ^ 32 - 1 → exec .hist s = .fault (.unwrittenInput n)) ∧
      exec .encode s = .fault (.unwrittenInput n) ∧
      (Rom.tableLength s.rom ≤ 255 →
        (∀ i b, i < n → Memory.read s.inBuf i = some b → Rom.code s.rom b ≠ []) →
        exec .pack s = .fault (.unwrittenInput n))) ∧
    (n = 0 → exec .loadtab s = .fault (.unwrittenInput n) ∧ exec .decode s = .fault (.unwrittenInput n)) ∧
    (∀ (T : Byte) (entries : List (Byte × Code)), GoodEntries entries → entriesLength entries + 2 ≤ T.toNat →
      1 + T.toNat ≤ s.inLen.toNat → HoldsAt s.inBuf 0 (T :: serializeEntries entries) →
      n = 1 + entriesLength entries →
      exec .loadtab s = .fault (.unwrittenInput n) ∧ exec .decode s = .fault (.unwrittenInput n)) ∧
    (∀ entries : List (Byte × Code), s.ctrl.fmt = true → GoodEntries entries → entriesLength entries ≤ 255 →
      HoldsAt s.inBuf 0 (tableBytes entries) → 1 + entriesLength entries + 4 ≤ s.inLen.toNat →
      n = 1 + entriesLength entries →
      exec .loadtab s = .fault (.unwrittenInput n) ∧ exec .decode s = .fault (.unwrittenInput n)) ∧
    (s.ctrl.fmt = false → s.bodyOff.toNat ≤ n →
      (∀ i, s.bodyOff.toNat ≤ i → i < n → Memory.read s.inBuf i ≠ none) →
      8 * (n - s.bodyOff.toNat) ≤ s.params.outSize → exec .walk s = .fault (.unwrittenInput n)) ∧
    (s.ctrl.fmt = true → s.bodyOff.toNat ≤ n → s.inLen.toNat - s.bodyOff.toNat = ceilDiv8 s.bitCnt.toNat →
      (if s.bitCnt.toNat % 8 = 0 then n = s.bodyOff.toNat else n = s.inLen.toNat - 1) →
      exec .walk s = .fault (.unwrittenInput n))

/-- No command writes CTRL, IN_LEN, IN_BUF or STATUS.OVR (spec/10_state.md R32, R34, R37, R50), nor anything of the
host's side of the model (the parameters, response, draws and events: the model's own fields, logs 1, 4, 6, 11). -/
def Obligations.CommandKeepsHostState : Prop :=
  ∀ (i : Instr) (s t : State), exec i s = .next t →
    t.ctrl = s.ctrl ∧ t.inLen = s.inLen ∧ t.inBuf = s.inBuf ∧ t.status.ovr = s.status.ovr ∧
    t.params = s.params ∧ t.busResp = s.busResp ∧ t.draws = s.draws ∧ t.events = s.events

/-- What each command can write (spec/30_encoding.md R123), over every next state, success or error: the frame of
HIST, the ROM, OUT_BUF and the result registers. -/
def Obligations.CommandWritesOnlyItsResults : Prop :=
  ∀ (i : Instr) (s t : State), exec i s = .next t →
    (i ∉ [Instr.clear, .hist, .encode] → t.hist = s.hist) ∧
    (i ∉ [Instr.clear, .build, .loadtab, .encode, .decode] →
      t.rom = s.rom ∧ t.nsym = s.nsym ∧ t.maxLen = s.maxLen) ∧
    (i ∉ [Instr.clear, .build, .pack, .loadtab, .encode, .decode] → t.tableLen = s.tableLen) ∧
    (i ∉ [Instr.clear, .pack, .loadtab, .encode, .decode] → t.bitCnt = s.bitCnt ∧ t.bodyOff = s.bodyOff) ∧
    (i ∉ [Instr.clear, .pack, .walk, .encode, .decode] → t.outLen = s.outLen) ∧
    (i ∉ [Instr.pack, .walk, .encode, .decode] → t.outBuf = s.outBuf)

/-- The bytes of OUT_BUF PACK and ENCODE leave alone: every byte at and beyond OUT_LEN, all of them on an error
(spec/10_state.md R51, spec/43_bit_packer.md R214). -/
def Obligations.PackAndEncodeOutputFrame : Prop :=
  ∀ (i : Instr) (s t : State), i ∈ [Instr.pack, .encode] → s.params.wellFormed = true → exec i s = .next t →
    SameFrom t.outLen.toNat s.outBuf t.outBuf

/-- The bytes of OUT_BUF WALK and DECODE leave alone: on success every byte at and beyond OUT_LEN; on any end every
byte at and beyond OUT_SIZE (spec/10_state.md R51, spec/44_decoder.md R240, R241). -/
def Obligations.WalkAndDecodeOutputFrame : Prop :=
  ∀ (i : Instr) (s t : State), i ∈ [Instr.walk, .decode] → s.params.wellFormed = true → exec i s = .next t →
    SameFrom s.params.outSize s.outBuf t.outBuf ∧
    (s.status.err = false → t.status.err = false → SameFrom t.outLen.toNat s.outBuf t.outBuf)

/-- CHECK_IN_LEN (spec/40_command_control.md R164): the six commands fail with BadLength before anything else, having
changed nothing but STATUS, ERRCODE and ERRINFO, and OUT_LEN for those that write OUT_BUF. -/
def Obligations.BadLengthComesFirst : Prop :=
  ∀ s : State, s.params.inSize < s.inLen.toNat →
    (∀ i ∈ [Instr.hist, .loadtab], exec i s = .next (s.failed 9 0 s.inLen.toNat)) ∧
    (∀ i ∈ [Instr.pack, .walk, .encode, .decode], exec i s = .next (s.failedOut 9 0 s.inLen.toNat))

/-! ## NOP, CLEAR, HIST -/

/-- spec/40_command_control.md R162. -/
def Obligations.NopOnlyCompletes : Prop :=
  ∀ s : State, exec .nop s = .next { s with status := doneStatus s, seq := .idle }

/-- spec/40_command_control.md R163, with everything CLEAR leaves unchanged. -/
def Obligations.ClearEmptiesTheUnits : Prop :=
  ∀ s : State, ∃ t, exec .clear s = .next t ∧
    (∀ b, Hist.count t.hist b = 0 ∧ Rom.code t.rom b = [] ∧ Rom.clen t.rom b = 0) ∧
    t = { s with
      hist := t.hist, rom := t.rom, nsym := 0, maxLen := 0, tableLen := 0, bitCnt := 0, bodyOff := 0, outLen := 0
      status := doneStatus s, seq := .idle }

/-- spec/41_histogram.md R181: HIST adds to every counter the number of its symbol's occurrences and changes nothing
else. -/
def Obligations.HistCountsTheMessage : Prop :=
  ∀ (s : State) (msg : List Byte), msg.length = s.inLen.toNat → s.inLen.toNat ≤ s.params.inSize →
    Hist.total s.hist + msg.length ≤ 2 ^ 32 - 1 → HoldsAt s.inBuf 0 msg →
    ∃ t, exec .hist s = .next t ∧
      (∀ b, (Hist.count t.hist b).toNat = (Hist.count s.hist b).toNat + msg.count b) ∧
      t = { s with hist := t.hist, status := doneStatus s, seq := .idle }

/-- spec/41_histogram.md R181: CountOverflow, with the offset of the first byte that would not fit; HIST is
unchanged. -/
def Obligations.HistRefusesToOverflow : Prop :=
  ∀ s : State, s.inLen.toNat ≤ s.params.inSize → Hist.total s.hist ≤ 2 ^ 32 - 1 →
    2 ^ 32 - 1 < Hist.total s.hist + s.inLen.toNat →
    exec .hist s = .next (s.failed 7 0 (2 ^ 32 - 1 - Hist.total s.hist))

/-- spec/41_histogram.md R182: the counts depend only on the multiset of the bytes, not on their order. -/
def Obligations.HistIgnoresOrder : Prop :=
  ∀ (s : State) (m : Memory) (msg msg' : List Byte), msg.Perm msg' → msg.length = s.inLen.toNat →
    s.inLen.toNat ≤ s.params.inSize → Hist.total s.hist + msg.length ≤ 2 ^ 32 - 1 →
    HoldsAt s.inBuf 0 msg → HoldsAt m 0 msg' →
    ∃ t, exec .hist s = .next t ∧ exec .hist { s with inBuf := m } = .next { t with inBuf := m }

/-! ## BUILD -/

/-- spec/42_tree_builder.md R190, R195 to R197: whenever some counter is positive BUILD completes, with a prefix-free
code of 1 to 255 bits for exactly the present symbols, NSYM, MAXLEN and TABLE_LEN as the rule says, and nothing
else changed. -/
def Obligations.BuildMakesAPrefixFreeCode : Prop :=
  ∀ s : State, (∃ b, Hist.count s.hist b ≠ 0) →
    ∃ t, exec .build s = .next t ∧
      (∀ b, 0 < Rom.clen t.rom b ↔ Hist.count s.hist b ≠ 0) ∧
      (∀ b, Rom.clen t.rom b ≤ 255) ∧
      PrefixFree t.rom ∧
      t.nsym.toNat = symbols.countP (fun b => Hist.count s.hist b != 0) ∧
      (∀ b, Rom.clen t.rom b ≤ t.maxLen.toNat) ∧ (∃ b, Rom.clen t.rom b = t.maxLen.toNat) ∧
      t.tableLen.toNat =
        (symbols.map fun b => if Rom.clen t.rom b = 0 then 0 else 2 + Rom.clen t.rom b).sum ∧
      t.tableLen.toNat ≤ 33407 ∧
      t = { s with
        rom := t.rom, nsym := t.nsym, maxLen := t.maxLen, tableLen := t.tableLen
        status := doneStatus s, seq := .idle }

/-- spec/42_tree_builder.md R190, R194: with every counter 0, BUILD raises InvalidInput and the ROM, NSYM, MAXLEN and
TABLE_LEN are unchanged. -/
def Obligations.BuildOfAnEmptyHistogram : Prop :=
  ∀ s : State, (∀ b, Hist.count s.hist b = 0) → exec .build s = .next (s.failed 1 0 0)

/-- spec/42_tree_builder.md R194: a single symbol gets the code "0". -/
def Obligations.BuildOfASingleSymbol : Prop :=
  ∀ (s : State) (a : Byte), Hist.count s.hist a ≠ 0 → (∀ b, b ≠ a → Hist.count s.hist b = 0) →
    ∃ t, exec .build s = .next t ∧ Rom.code t.rom a = [false] ∧ (∀ b, b ≠ a → Rom.code t.rom b = []) ∧
      t.nsym = 1 ∧ t.maxLen = 1 ∧ t.tableLen = 3

/-- spec/42_tree_builder.md R191, R192: of two symbols the one with the smaller count pops first and gets bit 0; among
equal counts the smaller symbol does. Of three, `x` and `y` popping before `z`, the parent of `x` and `y` counts their sum,
and pops before `z` only with a smaller count: a leaf pops before an internal node of equal count. Of four, with `w`
below the parent of `x` and `y` in count or equal to it, the two parents pop in the order they were made, also with
equal counts. -/
def Obligations.BuildOfTwoSymbols : Prop :=
  (∀ (s : State) (a b : Byte), a.toNat < b.toNat → Hist.count s.hist a ≠ 0 → Hist.count s.hist b ≠ 0 →
    (∀ c, c ≠ a → c ≠ b → Hist.count s.hist c = 0) →
    ∃ t, exec .build s = .next t ∧ t.nsym = 2 ∧ t.maxLen = 1 ∧ t.tableLen = 6 ∧
      (if (Hist.count s.hist a).toNat ≤ (Hist.count s.hist b).toNat then
        Rom.code t.rom a = [false] ∧ Rom.code t.rom b = [true]
      else Rom.code t.rom a = [true] ∧ Rom.code t.rom b = [false])) ∧
  (∀ (s : State) (x y z : Byte), Hist.count s.hist x ≠ 0 → PopsBefore s.hist x y → PopsBefore s.hist y z →
    (∀ c, c ≠ x → c ≠ y → c ≠ z → Hist.count s.hist c = 0) →
    ∃ t, exec .build s = .next t ∧ t.nsym = 3 ∧ t.maxLen = 2 ∧ t.tableLen = 11 ∧
      (if (Hist.count s.hist z).toNat ≤ (Hist.count s.hist x).toNat + (Hist.count s.hist y).toNat then
        Rom.code t.rom z = [false] ∧ Rom.code t.rom x = [true, false] ∧ Rom.code t.rom y = [true, true]
      else Rom.code t.rom x = [false, false] ∧ Rom.code t.rom y = [false, true] ∧ Rom.code t.rom z = [true])) ∧
  (∀ (s : State) (x y z w : Byte), Hist.count s.hist x ≠ 0 → x.toNat < y.toNat → y.toNat < z.toNat →
    z.toNat < w.toNat → PopsBefore s.hist x y → PopsBefore s.hist y z → PopsBefore s.hist z w →
    (Hist.count s.hist w).toNat ≤ (Hist.count s.hist x).toNat + (Hist.count s.hist y).toNat →
    (∀ c, c ≠ x → c ≠ y → c ≠ z → c ≠ w → Hist.count s.hist c = 0) →
    ∃ t, exec .build s = .next t ∧ t.nsym = 4 ∧ t.maxLen = 2 ∧ t.tableLen = 16 ∧
      Rom.code t.rom x = [false, false] ∧ Rom.code t.rom y = [false, true] ∧
      Rom.code t.rom z = [true, false] ∧ Rom.code t.rom w = [true, true])

/-- spec/42_tree_builder.md R192: a pop takes a node no other node of the structure comes before, and leaves the
others; and a round of the merge loop pops two nodes `x`, `y` in that order and inserts their parent, with the sum of
their counts, `x` as child0, `y` as child1 and the next insertion number, the next round's being one greater. (That
the structure is a list of nodes, and a node a tree, is the model's, log 19.) -/
def Obligations.PopTakesTheLeastNode : Prop :=
  (∀ (a : Node) (rest : List Node),
    ((popLeast a rest).1 :: (popLeast a rest).2).Perm (a :: rest) ∧
    ∀ n ∈ (popLeast a rest).2,
      ¬(n.count < (popLeast a rest).1.count ∨
        (n.count = (popLeast a rest).1.count ∧ n.seq < (popLeast a rest).1.seq))) ∧
  (∀ (rounds next : Nat) (a b : Node) (rest : List Node),
    ∃ (x y : Node) (left : List Node), (x :: y :: left).Perm (a :: b :: rest) ∧
      (∀ n ∈ y :: left, ¬(n.count < x.count ∨ (n.count = x.count ∧ n.seq < x.seq))) ∧
      (∀ n ∈ left, ¬(n.count < y.count ∨ (n.count = y.count ∧ n.seq < y.seq))) ∧
      mergeLoop (rounds + 1) next a (b :: rest) =
        mergeLoop rounds (next + 1) (.internal (x.count + y.count) next x y) left)

/-! ## PACK -/

/-- spec/43_bit_packer.md R210 to R213, spec/30_encoding.md R130 to R135: PACK writes the container of the message
and nothing else. -/
def Obligations.PackWritesTheContainer : Prop :=
  ∀ (s : State) (msg : List Byte), s.params.wellFormed = true → msg.length = s.inLen.toNat →
    s.inLen.toNat ≤ s.params.inSize → HoldsAt s.inBuf 0 msg → Mapped s.rom msg →
    Rom.tableLength s.rom ≤ 255 →
    headerSize s.ctrl.fmt (Rom.entries s.rom) + ceilDiv8 (messageBits s.rom msg).length ≤ s.params.outSize →
    ∃ t, exec .pack s = .next t ∧
      HoldsAt t.outBuf 0 (headerBytes s.ctrl.fmt (Rom.entries s.rom) (messageBits s.rom msg).length) ∧
      BodyHolds t.outBuf (headerSize s.ctrl.fmt (Rom.entries s.rom)) (messageBits s.rom msg) ∧
      SameFrom (headerSize s.ctrl.fmt (Rom.entries s.rom) + ceilDiv8 (messageBits s.rom msg).length)
        s.outBuf t.outBuf ∧
      t.outLen.toNat =
        headerSize s.ctrl.fmt (Rom.entries s.rom) + ceilDiv8 (messageBits s.rom msg).length ∧
      t.tableLen.toNat = Rom.tableLength s.rom ∧ t.bitCnt.toNat = (messageBits s.rom msg).length ∧
      t.bodyOff.toNat = headerSize s.ctrl.fmt (Rom.entries s.rom) ∧
      t = { s with
        outBuf := t.outBuf, outLen := t.outLen, tableLen := t.tableLen, bitCnt := t.bitCnt, bodyOff := t.bodyOff
        status := doneStatus s, seq := .idle }

/-- spec/43_bit_packer.md R210, R214, spec/60_exceptions.md R276: PACK's errors in their order, each all-or-nothing:
OUT_BUF, TABLE_LEN, BITCNT and BODY_OFF are unchanged and OUT_LEN is 0. -/
def Obligations.PackErrorsChangeNoOutput : Prop :=
  ∀ s : State, s.inLen.toNat ≤ s.params.inSize →
    (255 < Rom.tableLength s.rom → exec .pack s = .next (s.failedOut 3 0 (Rom.tableLength s.rom))) ∧
    (∀ (msg : List Byte) (b : Byte), Rom.tableLength s.rom ≤ 255 → HoldsAt s.inBuf 0 (msg ++ [b]) →
      msg.length < s.inLen.toNat → Mapped s.rom msg → Rom.code s.rom b = [] →
      exec .pack s = .next (s.failedOut 5 0 msg.length)) ∧
    (∀ msg : List Byte, Rom.tableLength s.rom ≤ 255 → HoldsAt s.inBuf 0 msg → msg.length = s.inLen.toNat →
      Mapped s.rom msg →
      s.params.outSize <
        headerSize s.ctrl.fmt (Rom.entries s.rom) + ceilDiv8 (messageBits s.rom msg).length →
      exec .pack s = .next (s.failedOut 6 0
        (headerSize s.ctrl.fmt (Rom.entries s.rom) + ceilDiv8 (messageBits s.rom msg).length)))

/-! ## LOADTAB -/

/-- spec/44_decoder.md R230, spec/30_encoding.md R135: LOADTAB loads a well-formed table, its entries in any order,
and sets the result registers; nothing else changes. -/
def Obligations.LoadtabLoadsTheTable : Prop :=
  ∀ (s : State) (entries : List (Byte × Code)) (n : Nat), GoodEntries entries →
    entriesLength entries ≤ 255 → n < 2 ^ 32 → HoldsAt s.inBuf 0 (headerBytes s.ctrl.fmt entries n) →
    headerSize s.ctrl.fmt entries ≤ s.inLen.toNat → s.inLen.toNat ≤ s.params.inSize →
    ∃ t, exec .loadtab s = .next t ∧
      (∀ e ∈ entries, Rom.code t.rom e.1 = e.2) ∧
      (∀ b, b ∉ entries.map Prod.fst → Rom.code t.rom b = []) ∧
      t.nsym.toNat = entries.length ∧
      (∀ b, Rom.clen t.rom b ≤ t.maxLen.toNat) ∧ (∃ b, Rom.clen t.rom b = t.maxLen.toNat) ∧
      t.tableLen.toNat = entriesLength entries ∧
      t.bodyOff.toNat = headerSize s.ctrl.fmt entries ∧
      t.bitCnt.toNat =
        (if s.ctrl.fmt then n else 8 * (s.inLen.toNat - headerSize s.ctrl.fmt entries)) ∧
      t = { s with
        rom := t.rom, nsym := t.nsym, maxLen := t.maxLen, tableLen := t.tableLen, bodyOff := t.bodyOff
        bitCnt := t.bitCnt, status := doneStatus s, seq := .idle }

/-- spec/44_decoder.md R230: on an error LOADTAB changes only STATUS, ERRCODE and ERRINFO: the parse stages its
entries. -/
def Obligations.LoadtabErrorChangesNothing : Prop :=
  ∀ s t : State, exec .loadtab s = .next t → s.status.err = false → t.status.err = true →
    t = { s with errCode := t.errCode, errInfo := t.errInfo, status := errStatus s, seq := .idle }

/-- spec/44_decoder.md R231, spec/60_exceptions.md R271: PARSE's conditions on the container as a whole. -/
def Obligations.LoadtabContainerErrors : Prop :=
  ∀ s : State, s.inLen.toNat ≤ s.params.inSize →
    (s.inLen.toNat = 0 → exec .loadtab s = .next (s.failed 4 1 0)) ∧
    (∀ T : Byte, Memory.read s.inBuf 0 = some T → 1 ≤ s.inLen.toNat → s.inLen.toNat < 1 + T.toNat →
      exec .loadtab s = .next (s.failed 4 2 0)) ∧
    (∀ entries : List (Byte × Code), GoodEntries entries → entriesLength entries ≤ 255 →
      HoldsAt s.inBuf 0 (tableBytes entries) → 1 + entriesLength entries ≤ s.inLen.toNat →
      s.ctrl.fmt = true → s.inLen.toNat < 1 + entriesLength entries + 4 →
      exec .loadtab s = .next (s.failed 4 8 (1 + entriesLength entries)))

/-- spec/44_decoder.md R231, R232, spec/60_exceptions.md R271: PARSE's conditions on an entry, in their order, for the
entry at offset `1 + entriesLength entries` after good entries. -/
def Obligations.LoadtabEntryErrors : Prop :=
  ∀ (s : State) (T : Byte) (entries : List (Byte × Code)) (tail : List Byte),
    s.inLen.toNat ≤ s.params.inSize → 1 + T.toNat ≤ s.inLen.toNat → GoodEntries entries →
    entriesLength entries < T.toNat → HoldsAt s.inBuf 0 (T :: serializeEntries entries ++ tail) →
    (T.toNat < entriesLength entries + 2 →
      exec .loadtab s = .next (s.failed 4 3 (1 + entriesLength entries))) ∧
    (∀ (sym L : Byte) (more : List Byte), tail = sym :: L :: more → entriesLength entries + 2 ≤ T.toNat →
      (L = 0 → exec .loadtab s = .next (s.failed 4 4 (1 + entriesLength entries + 1))) ∧
      (L ≠ 0 → T.toNat < entriesLength entries + 2 + L.toNat →
        exec .loadtab s = .next (s.failed 4 3 (1 + entriesLength entries))) ∧
      (∀ (c : Code) (x : Byte) (rest : List Byte), entriesLength entries + 2 + L.toNat ≤ T.toNat →
        more = c.map bitByte ++ x :: rest → c.length < L.toNat → x ≠ 0x30 → x ≠ 0x31 →
        exec .loadtab s = .next (s.failed 4 5 (1 + entriesLength entries + 2 + c.length))) ∧
      (∀ (c : Code) (rest : List Byte), entriesLength entries + 2 + L.toNat ≤ T.toNat → L ≠ 0 →
        more = c.map bitByte ++ rest → c.length = L.toNat →
        (sym ∈ entries.map Prod.fst →
          exec .loadtab s = .next (s.failed 4 6 (1 + entriesLength entries))) ∧
        (sym ∉ entries.map Prod.fst → (∃ e ∈ entries, e.2 <+: c ∨ c <+: e.2) →
          exec .loadtab s = .next (s.failed 4 7 (1 + entriesLength entries)))))

/-! ## WALK -/

/-- spec/44_decoder.md R235 to R237: in the counted format WALK decodes a body that holds the codes of a message to
exactly that message, and changes nothing but OUT_BUF and OUT_LEN. -/
def Obligations.WalkDecodesTheMessage : Prop :=
  ∀ (s : State) (msg : List Byte), s.ctrl.fmt = true → s.params.wellFormed = true → PrefixFree s.rom →
    Mapped s.rom msg → BodyHolds s.inBuf s.bodyOff.toNat (messageBits s.rom msg) →
    s.bitCnt.toNat = (messageBits s.rom msg).length →
    s.inLen.toNat = s.bodyOff.toNat + ceilDiv8 (messageBits s.rom msg).length →
    s.inLen.toNat ≤ s.params.inSize → msg.length ≤ s.params.outSize →
    ∃ t, exec .walk s = .next t ∧ HoldsAt t.outBuf 0 msg ∧ SameFrom msg.length s.outBuf t.outBuf ∧
      t.outLen.toNat = msg.length ∧
      t = { s with outBuf := t.outBuf, outLen := t.outLen, status := doneStatus s, seq := .idle }

/-- spec/44_decoder.md R236, R238, R242, spec/45_composite.md R263: in the legacy format WALK walks every bit of the
body. With a code of d 0 bits, z padding bits decode as floor(z/d) more symbols. Whatever the bits after a message's
codes are, if they are a candidate that completes no code (dropped at the end), or lead to a dead path (absorbing:
the bits after it, codes or not, emit nothing), WALK gives exactly the message, without an error. -/
def Obligations.WalkLegacyOverDecodes : Prop :=
  ∀ (s : State) (msg : List Byte), s.ctrl.fmt = false → s.params.wellFormed = true → PrefixFree s.rom →
    Mapped s.rom msg → s.inLen.toNat ≤ s.params.inSize →
    (∀ (z d : Nat) (zero : Byte), 0 < d → Rom.code s.rom zero = List.replicate d false →
      BodyHolds s.inBuf s.bodyOff.toNat (messageBits s.rom msg) →
      z = 8 * ceilDiv8 (messageBits s.rom msg).length - (messageBits s.rom msg).length →
      s.inLen.toNat = s.bodyOff.toNat + ceilDiv8 (messageBits s.rom msg).length →
      msg.length + z / d ≤ s.params.outSize →
      ∃ t, exec .walk s = .next t ∧ HoldsAt t.outBuf 0 (msg ++ List.replicate (z / d) zero) ∧
        SameFrom (msg.length + z / d) s.outBuf t.outBuf ∧ t.outLen.toNat = msg.length + z / d ∧
        t = { s with outBuf := t.outBuf, outLen := t.outLen, status := doneStatus s, seq := .idle }) ∧
    (∀ bits tail : List Bool, bits = messageBits s.rom msg ++ tail → bits.length % 8 = 0 →
      BodyHolds s.inBuf s.bodyOff.toNat bits → s.inLen.toNat = s.bodyOff.toNat + bits.length / 8 →
      msg.length ≤ s.params.outSize →
      (InsideACode s.rom tail ∨
        ∃ (c : Code) (x : Bool) (more : List Bool), tail = c ++ [x] ++ more ∧ InsideACode s.rom c ∧
          ∀ b, Rom.code s.rom b ≠ [] → ¬(c ++ [x]) <+: Rom.code s.rom b) →
      ∃ t, exec .walk s = .next t ∧ HoldsAt t.outBuf 0 msg ∧ SameFrom msg.length s.outBuf t.outBuf ∧
        t.outLen.toNat = msg.length ∧
        t = { s with outBuf := t.outBuf, outLen := t.outLen, status := doneStatus s, seq := .idle })

/-- spec/44_decoder.md R235: WALK's structural checks, before any bit is walked. -/
def Obligations.WalkStructuralErrors : Prop :=
  ∀ s : State, s.inLen.toNat ≤ s.params.inSize →
    (s.inLen.toNat < s.bodyOff.toNat → exec .walk s = .next (s.failedOut 4 9 s.inLen.toNat)) ∧
    (s.bodyOff.toNat ≤ s.inLen.toNat → s.ctrl.fmt = true →
      s.inLen.toNat - s.bodyOff.toNat ≠ ceilDiv8 s.bitCnt.toNat →
      exec .walk s = .next (s.failedOut 4 9 s.inLen.toNat)) ∧
    (∀ last : Byte, s.bodyOff.toNat ≤ s.inLen.toNat → s.ctrl.fmt = true →
      s.inLen.toNat - s.bodyOff.toNat = ceilDiv8 s.bitCnt.toNat → s.bitCnt.toNat % 8 ≠ 0 →
      Memory.read s.inBuf (s.inLen.toNat - 1) = some last →
      last.toNat % 2 ^ (8 - s.bitCnt.toNat % 8) ≠ 0 →
      exec .walk s = .next (s.failedOut 4 10 (s.inLen.toNat - 1)))

/-- spec/44_decoder.md R236, R237, R241: in the counted format, after the message `msg` has been decoded, bits that end
inside a code are TRUNCATED_CODE, and a candidate that is neither a code nor a proper prefix of one is DEAD_PATH at the
byte of its last bit; the symbols decoded before stay in OUT_BUF and OUT_LEN is 0. -/
def Obligations.WalkPathErrors : Prop :=
  ∀ (s : State) (msg : List Byte) (bits : List Bool), s.ctrl.fmt = true → PrefixFree s.rom → Mapped s.rom msg →
    BodyHolds s.inBuf s.bodyOff.toNat bits → s.bitCnt.toNat = bits.length →
    s.inLen.toNat = s.bodyOff.toNat + ceilDiv8 bits.length → s.inLen.toNat ≤ s.params.inSize →
    msg.length ≤ s.params.outSize →
    (∀ (tail : Code) (b : Byte), bits = messageBits s.rom msg ++ tail → tail ≠ [] → tail <+: Rom.code s.rom b →
      tail.length < Rom.clen s.rom b →
      ∃ t, exec .walk s = .next t ∧ HoldsAt t.outBuf 0 msg ∧ SameFrom msg.length s.outBuf t.outBuf ∧
        t = { s.failedOut 4 12 s.inLen.toNat with outBuf := t.outBuf }) ∧
    (∀ (c : Code) (x : Bool) (more : List Bool), bits = messageBits s.rom msg ++ c ++ [x] ++ more →
      (c = [] ∨ ∃ b, c <+: Rom.code s.rom b ∧ c.length < Rom.clen s.rom b) →
      (∀ b, Rom.code s.rom b ≠ [] → ¬(c ++ [x]) <+: Rom.code s.rom b) →
      ∃ t, exec .walk s = .next t ∧ HoldsAt t.outBuf 0 msg ∧ SameFrom msg.length s.outBuf t.outBuf ∧
        t = { s.failedOut 4 11 (s.bodyOff.toNat + ((messageBits s.rom msg).length + c.length) / 8) with
          outBuf := t.outBuf })

/-- spec/44_decoder.md R240: in either format, a symbol past OUT_SIZE is OutOverflow at the byte of the bit that
completes its code; OUT_BUF holds the first OUT_SIZE symbols. -/
def Obligations.WalkOutputOverflow : Prop :=
  ∀ (s : State) (msg : List Byte) (b : Byte) (more : List Bool), PrefixFree s.rom → Mapped s.rom (msg ++ [b]) →
    msg.length = s.params.outSize →
    BodyHolds s.inBuf s.bodyOff.toNat (messageBits s.rom (msg ++ [b]) ++ more) →
    s.inLen.toNat = s.bodyOff.toNat + ceilDiv8 (messageBits s.rom (msg ++ [b]) ++ more).length →
    (s.ctrl.fmt = true → s.bitCnt.toNat = (messageBits s.rom (msg ++ [b]) ++ more).length) →
    (s.ctrl.fmt = false → (messageBits s.rom (msg ++ [b]) ++ more).length % 8 = 0) →
    s.inLen.toNat ≤ s.params.inSize →
    ∃ t, exec .walk s = .next t ∧ HoldsAt t.outBuf 0 msg ∧ SameFrom msg.length s.outBuf t.outBuf ∧
      t = { s.failedOut 6 0 (s.bodyOff.toNat + ((messageBits s.rom (msg ++ [b])).length - 1) / 8) with
        outBuf := t.outBuf }

/-- spec/44_decoder.md R236, R238, spec/60_exceptions.md R276: in the legacy format WALK's only errors are BadLength,
BODY_LENGTH and OutOverflow; a dead path is absorbing. -/
def Obligations.WalkLegacyHasNoPathError : Prop :=
  ∀ s t : State, s.ctrl.fmt = false → exec .walk s = .next t → s.status.err = false → t.status.err = true →
    t.errCode = { cause := 9, sub := 0 } ∨ t.errCode = { cause := 4, sub := 9 } ∨
    t.errCode = { cause := 6, sub := 0 }

/-! ## ENCODE and DECODE -/

/-- spec/45_composite.md R260: ENCODE counts the message, builds its code and packs its container; the empty message
gives the container with an empty table and body. -/
def Obligations.EncodeWritesTheContainer : Prop :=
  ∀ (s : State) (msg : List Byte), s.params.wellFormed = true → msg.length = s.inLen.toNat →
    s.inLen.toNat ≤ s.params.inSize → HoldsAt s.inBuf 0 msg → Rom.tableLength (messageTable msg) ≤ 255 →
    headerSize s.ctrl.fmt (Rom.entries (messageTable msg)) + ceilDiv8 (messageBits (messageTable msg) msg).length
      ≤ s.params.outSize →
    ∃ t, exec .encode s = .next t ∧
      (∀ b, (Hist.count t.hist b).toNat = msg.count b) ∧ t.rom = messageTable msg ∧
      t.nsym.toNat = (Rom.entries (messageTable msg)).length ∧
      t.maxLen.toNat = Rom.longest (messageTable msg) ∧
      t.tableLen.toNat = Rom.tableLength (messageTable msg) ∧
      t.bitCnt.toNat = (messageBits (messageTable msg) msg).length ∧
      t.bodyOff.toNat = headerSize s.ctrl.fmt (Rom.entries (messageTable msg)) ∧
      t.outLen.toNat = headerSize s.ctrl.fmt (Rom.entries (messageTable msg)) +
        ceilDiv8 (messageBits (messageTable msg) msg).length ∧
      HoldsAt t.outBuf 0 (headerBytes s.ctrl.fmt (Rom.entries (messageTable msg))
        (messageBits (messageTable msg) msg).length) ∧
      BodyHolds t.outBuf (headerSize s.ctrl.fmt (Rom.entries (messageTable msg)))
        (messageBits (messageTable msg) msg) ∧
      SameFrom t.outLen.toNat s.outBuf t.outBuf ∧
      t = { s with
        hist := t.hist, rom := t.rom, nsym := t.nsym, maxLen := t.maxLen, tableLen := t.tableLen, bitCnt := t.bitCnt
        bodyOff := t.bodyOff, outLen := t.outLen, outBuf := t.outBuf, status := doneStatus s, seq := .idle }

/-- spec/30_encoding.md R136: the container of the empty message, and ENCODE of it without BUILD
(spec/45_composite.md R260). -/
def Obligations.EncodeOfTheEmptyMessage : Prop :=
  ∀ s : State, s.inLen = 0 → 5 ≤ s.params.outSize →
    ∃ t, exec .encode s = .next t ∧
      HoldsAt t.outBuf 0 (if s.ctrl.fmt then [0x00, 0x00, 0x00, 0x00, 0x00] else [0x00]) ∧
      t.outLen = (if s.ctrl.fmt then 5 else 1) ∧ t.bitCnt = 0 ∧ t.bodyOff = (if s.ctrl.fmt then 5 else 1) ∧
      t.status = doneStatus s

/-- spec/45_composite.md R260: on PACK's error within ENCODE, HIST and the ROM keep what the HIST and BUILD steps gave
them (NSYM, MAXLEN and TABLE_LEN included), OUT_BUF is unchanged, and OUT_LEN, BITCNT and BODY_OFF are 0. -/
def Obligations.EncodeErrorsKeepTheTables : Prop :=
  ∀ (s : State) (msg : List Byte), msg.length = s.inLen.toNat → s.inLen.toNat ≤ s.params.inSize →
    HoldsAt s.inBuf 0 msg →
    (255 < Rom.tableLength (messageTable msg) →
      ∃ t, exec .encode s = .next t ∧ (∀ b, (Hist.count t.hist b).toNat = msg.count b) ∧
        t.rom = messageTable msg ∧ t.nsym.toNat = (Rom.entries (messageTable msg)).length ∧
        t.maxLen.toNat = Rom.longest (messageTable msg) ∧
        t.tableLen.toNat = Rom.tableLength (messageTable msg) ∧
        t = { s.failedOut 3 0 (Rom.tableLength (messageTable msg)) with
          hist := t.hist, rom := t.rom, nsym := t.nsym, maxLen := t.maxLen, tableLen := t.tableLen
          bitCnt := 0, bodyOff := 0 }) ∧
    (Rom.tableLength (messageTable msg) ≤ 255 →
      s.params.outSize < headerSize s.ctrl.fmt (Rom.entries (messageTable msg)) +
        ceilDiv8 (messageBits (messageTable msg) msg).length →
      ∃ t, exec .encode s = .next t ∧ (∀ b, (Hist.count t.hist b).toNat = msg.count b) ∧
        t.rom = messageTable msg ∧ t.nsym.toNat = (Rom.entries (messageTable msg)).length ∧
        t.maxLen.toNat = Rom.longest (messageTable msg) ∧
        t.tableLen.toNat = Rom.tableLength (messageTable msg) ∧
        t = { s.failedOut 6 0 (headerSize s.ctrl.fmt (Rom.entries (messageTable msg)) +
            ceilDiv8 (messageBits (messageTable msg) msg).length) with
          hist := t.hist, rom := t.rom, nsym := t.nsym, maxLen := t.maxLen, tableLen := t.tableLen
          bitCnt := 0, bodyOff := 0 })

/-- spec/45_composite.md R261, counted format: DECODE of a container with a well-formed table, entries in any order,
and the codes of a message, gives the message; the ROM and result registers hold the loaded table. -/
def Obligations.DecodeGivesTheMessage : Prop :=
  ∀ (s : State) (entries : List (Byte × Code)) (msg : List Byte), s.ctrl.fmt = true →
    s.params.wellFormed = true → GoodEntries entries → entriesLength entries ≤ 255 →
    (∀ b ∈ msg, b ∈ entries.map Prod.fst) →
    HoldsAt s.inBuf 0 (headerBytes true entries (messageBits (Rom.ofEntries entries) msg).length) →
    BodyHolds s.inBuf (headerSize true entries) (messageBits (Rom.ofEntries entries) msg) →
    s.inLen.toNat = headerSize true entries + ceilDiv8 (messageBits (Rom.ofEntries entries) msg).length →
    s.inLen.toNat ≤ s.params.inSize → msg.length ≤ s.params.outSize →
    ∃ t, exec .decode s = .next t ∧ HoldsAt t.outBuf 0 msg ∧ SameFrom msg.length s.outBuf t.outBuf ∧
      t.outLen.toNat = msg.length ∧ t.rom = Rom.ofEntries entries ∧ t.nsym.toNat = entries.length ∧
      (∀ b, Rom.clen t.rom b ≤ t.maxLen.toNat) ∧ (∃ b, Rom.clen t.rom b = t.maxLen.toNat) ∧
      t.tableLen.toNat = entriesLength entries ∧ t.bodyOff.toNat = headerSize true entries ∧
      t.bitCnt.toNat = (messageBits (Rom.ofEntries entries) msg).length ∧
      t = { s with
        rom := t.rom, nsym := t.nsym, maxLen := t.maxLen, tableLen := t.tableLen, bodyOff := t.bodyOff
        bitCnt := t.bitCnt, outBuf := t.outBuf, outLen := t.outLen, status := doneStatus s, seq := .idle }

/-- spec/45_composite.md R261: DECODE is LOADTAB's body, then WALK's. An error in the LOADTAB step is LOADTAB's own,
with OUT_LEN = 0: the ROM and the result registers are unchanged. When the LOADTAB step ends without an error in `u`,
DECODE is WALK on `u`, still inside the one run of DECODE (the STATUS and SEQ of `s`), in both formats; and on an error
in the WALK step the ROM and the result registers hold the loaded table, OUT_BUF is as WALK left it, and OUT_LEN is
0. -/
def Obligations.DecodeTableErrorKeepsTheRom : Prop :=
  ∀ s u : State, exec .loadtab s = .next u → s.status.err = false →
    (u.status.err = true →
      exec .decode s = .next { u with outLen := 0 } ∧ u.rom = s.rom ∧ u.nsym = s.nsym ∧ u.maxLen = s.maxLen ∧
      u.tableLen = s.tableLen ∧ u.bitCnt = s.bitCnt ∧ u.bodyOff = s.bodyOff ∧ u.outBuf = s.outBuf) ∧
    (u.status.err = false →
      exec .decode s = exec .walk { u with status := s.status, seq := s.seq } ∧
      ∀ t, exec .decode s = .next t → t.status.err = true →
        t = { u with
          errCode := t.errCode, errInfo := t.errInfo, status := errStatus s, outLen := 0, outBuf := t.outBuf })

/-- spec/45_composite.md R262: the round trip in the counted format. `u` is any state of the same block in which the
host has copied ENCODE's output into IN_BUF. -/
def Obligations.RoundTripCounted : Prop :=
  ∀ (s t u : State) (msg : List Byte), s.params.wellFormed = true → s.ctrl.fmt = true →
    msg.length = s.inLen.toNat → s.inLen.toNat ≤ s.params.inSize → HoldsAt s.inBuf 0 msg →
    exec .encode s = .next t → s.status.err = false → t.status.err = false →
    u.params = s.params → u.ctrl.fmt = true → u.inLen = t.outLen → t.outLen.toNat ≤ s.params.inSize →
    (∀ i, i < t.outLen.toNat → Memory.read u.inBuf i = Memory.read t.outBuf i) →
    (msg.length ≤ s.params.outSize →
      ∃ v, exec .decode u = .next v ∧ v.status = doneStatus u ∧ v.outLen.toNat = msg.length ∧
        HoldsAt v.outBuf 0 msg) ∧
    (s.params.outSize < msg.length →
      ∃ v, exec .decode u = .next v ∧ v.status = errStatus u ∧ v.errCode = { cause := 6, sub := 0 } ∧ v.outLen = 0)

/-- spec/45_composite.md R263: the round trip in the legacy format: the message, followed by e = floor(z/d) extra
symbols, z the number of padding bits and d the length of the code of 0 bits only, which every nonempty message's
table has; OutOverflow when they do not fit. -/
def Obligations.RoundTripLegacy : Prop :=
  ∀ (s t u : State) (msg : List Byte), s.params.wellFormed = true → s.ctrl.fmt = false →
    msg.length = s.inLen.toNat → s.inLen.toNat ≤ s.params.inSize → HoldsAt s.inBuf 0 msg →
    exec .encode s = .next t → s.status.err = false → t.status.err = false →
    u.params = s.params → u.ctrl.fmt = false → u.inLen = t.outLen → t.outLen.toNat ≤ s.params.inSize →
    (∀ i, i < t.outLen.toNat → Memory.read u.inBuf i = Memory.read t.outBuf i) →
    (msg = [] → ∃ v, exec .decode u = .next v ∧ v.status = doneStatus u ∧ v.outLen = 0) ∧
    (msg ≠ [] →
      ∃ (zero : Byte) (d e : Nat), 0 < d ∧ Rom.code t.rom zero = List.replicate d false ∧
        e = (8 * ceilDiv8 t.bitCnt.toNat - t.bitCnt.toNat) / d ∧
        (msg.length + e ≤ s.params.outSize →
          ∃ v, exec .decode u = .next v ∧ v.status = doneStatus u ∧ v.outLen.toNat = msg.length + e ∧
            HoldsAt v.outBuf 0 (msg ++ List.replicate e zero)) ∧
        (s.params.outSize < msg.length + e →
          ∃ v, exec .decode u = .next v ∧ v.status = errStatus u ∧ v.errCode = { cause := 6, sub := 0 } ∧
            v.outLen = 0))

/-! ## The host's accesses -/

/-- spec/20_memory.md R81, R86, R87: an access gets BUSERR, a host fault, exactly when the width or the alignment check
fails. -/
def Obligations.BusErrorExactlyWhenIllFormed : Prop :=
  ∀ (s : State) (a : Access),
    (a.wellFormed = false → step (s.withNext (.access a)) = .fault (.hostBusError a.off a.width)) ∧
    (a.wellFormed = true → ∀ f, step (s.withNext (.access a)) ≠ .fault f)

/-- spec/20_memory.md R92: reads have no side effects in any region. (The response and the draw counter are the model's
own fields.) -/
def Obligations.ReadsHaveNoSideEffects : Prop :=
  ∀ (s : State) (off : Offset),
    ((Access.read32 off).wellFormed = true → ∃ v d, s.draws ≤ d ∧
      step (s.withNext (.access (.read32 off))) = .next { s with busResp := .data32 v, draws := d }) ∧
    ((Access.read8 off).wellFormed = true → ∃ v d, s.draws ≤ d ∧
      step (s.withNext (.access (.read8 off))) = .next { s with busResp := .data8 v, draws := d })

/-- spec/10_state.md R31 to R43, spec/60_exceptions.md R279: what a read of each register returns; ID, CTRL, CMD,
STATUS, ERRCODE, ERRINFO and IN_LEN at any time, the others while no command runs; while one runs a read of OUT_LEN,
NSYM, MAXLEN, TABLE_LEN, BITCNT or BODY_OFF is a free draw, the old and the new value alike unpromised (the form of the
draw is the model's: DESIGN CHOICE, log 6). -/
def Obligations.RegisterReads : Prop :=
  (∀ s : State,
    ReadsWord s 0x000 0x48554631 ∧
    ReadsWord s 0x004 (BitVec.ofNat 32 (s.ctrl.fmt.toNat + 2 * s.ctrl.ie.toNat)) ∧
    ReadsWord s 0x008 0 ∧
    ReadsWord s 0x00C (BitVec.ofNat 32 (s.status.busy.toNat + 2 * s.status.done.toNat +
      4 * s.status.err.toNat + 8 * s.status.ovr.toNat)) ∧
    ReadsWord s 0x010 (BitVec.ofNat 32 (s.errCode.cause.toNat + 256 * s.errCode.sub.toNat)) ∧
    ReadsWord s 0x014 s.errInfo ∧
    ReadsWord s 0x018 (BitVec.ofNat 32 s.inLen.toNat)) ∧
  (∀ s : State, s.status.busy = false →
    ReadsWord s 0x01C (BitVec.ofNat 32 s.outLen.toNat) ∧
    ReadsWord s 0x020 (BitVec.ofNat 32 s.nsym.toNat) ∧
    ReadsWord s 0x024 (BitVec.ofNat 32 s.maxLen.toNat) ∧
    ReadsWord s 0x028 (BitVec.ofNat 32 s.tableLen.toNat) ∧
    ReadsWord s 0x02C s.bitCnt ∧
    ReadsWord s 0x030 (BitVec.ofNat 32 s.bodyOff.toNat)) ∧
  (∀ s : State, s.status.busy = true → ∀ off ∈ [0x01C, 0x020, 0x024, 0x028, 0x02C, 0x030], DrawsWord s off)

/-- spec/10_state.md R46, spec/60_exceptions.md R279: the host reads HIST[s] at 0x1000 + 4 s while no command runs, and
a free draw while one does (the form of the draw is the model's: DESIGN CHOICE, log 6); host writes are ignored. -/
def Obligations.HistWindow : Prop :=
  ∀ (s : State) (b : Byte),
    (s.status.busy = false → ReadsWord s (0x1000 + 4 * b.toNat) (Hist.count s.hist b)) ∧
    (s.status.busy = true → DrawsWord s (0x1000 + 4 * b.toNat)) ∧
    (∀ v, WritesWord s (0x1000 + 4 * b.toNat) v s)

/-- spec/10_state.md R48: the host's view of a ROM entry: CLENW, CODEW[0..7] with `c_{32k+j}` in bit 31 - j of CODEW[k],
and words that read 0, while no command runs; while one runs CLENW and CODEW[k] read as free draws
(spec/60_exceptions.md R279; the form of the draw is the model's: DESIGN CHOICE, log 6); every word is read-only at any
time. -/
def Obligations.RomWindow : Prop :=
  ∀ (s : State) (b : Byte),
    (s.status.busy = false → Rom.clen s.rom b ≤ 255 →
      ReadsWord s (0x2000 + 0x40 * b.toNat) (BitVec.ofNat 32 (Rom.clen s.rom b))) ∧
    (∀ k, k < 8 → s.status.busy = false →
      ∃ v, ReadsWord s (0x2000 + 0x40 * b.toNat + 4 + 4 * k) v ∧
        ∀ j, j < 32 → v.getLsbD (31 - j) = (Rom.code s.rom b).getD (32 * k + j) false) ∧
    (∀ k, k < 9 → s.status.busy = true → DrawsWord s (0x2000 + 0x40 * b.toNat + 4 * k)) ∧
    (∀ k, 9 ≤ k → k < 16 → s.status.busy = false → ReadsWord s (0x2000 + 0x40 * b.toNat + 4 * k) 0) ∧
    (∀ k v, k < 16 → WritesWord s (0x2000 + 0x40 * b.toNat + 4 * k) v s)

/-- spec/20_memory.md R84, R85, R90: host writes to the buffers, little-endian, while no command runs; every other byte
keeps its value. -/
def Obligations.BufferWrites : Prop :=
  ∀ s : State, s.params.wellFormed = true → s.status.busy = false →
    (∀ (j : Nat) (v : Word), 4 * j < s.params.inSize →
      ∃ m, WritesWord s (0x10000 + 4 * j) v { s with inBuf := m } ∧
        (∀ k, k < 4 → Memory.read m (4 * j + k) = some (v.extractLsb' (8 * k) 8)) ∧
        (∀ i, i < 4 * j ∨ 4 * j + 4 ≤ i → Memory.read m i = Memory.read s.inBuf i)) ∧
    (∀ (j : Nat) (v : Word), 4 * j < s.params.outSize →
      ∃ m, WritesWord s (0x20000 + 4 * j) v { s with outBuf := m } ∧
        (∀ k, k < 4 → Memory.read m (4 * j + k) = some (v.extractLsb' (8 * k) 8)) ∧
        (∀ i, i < 4 * j ∨ 4 * j + 4 ≤ i → Memory.read m i = Memory.read s.outBuf i)) ∧
    (∀ (i : Nat) (v : Byte), i < s.params.inSize →
      ∃ m, WritesByte s (0x10000 + i) v { s with inBuf := m } ∧ Memory.read m i = some v ∧
        (∀ k, k ≠ i → Memory.read m k = Memory.read s.inBuf k)) ∧
    (∀ (i : Nat) (v : Byte), i < s.params.outSize →
      ∃ m, WritesByte s (0x20000 + i) v { s with outBuf := m } ∧ Memory.read m i = some v ∧
        (∀ k, k ≠ i → Memory.read m k = Memory.read s.outBuf k))

/-- spec/20_memory.md R84, R85, R90, spec/60_exceptions.md R279, spec/70_reset_and_hazards.md R304: host reads of buffer
bytes, little-endian: IN_BUF at any time, OUT_BUF while no command runs. A byte nothing has written reads as a free
draw, a word taking one draw for each such byte, and every read of OUT_BUF while a command runs is a free draw of the
access width (the form of the draws is the model's: DESIGN CHOICE, log 6). -/
def Obligations.BufferReads : Prop :=
  ∀ s : State, s.params.wellFormed = true →
    (∀ (j : Nat) (b0 b1 b2 b3 : Byte), 4 * j < s.params.inSize →
      HoldsAt s.inBuf (4 * j) [b0, b1, b2, b3] → ReadsWord s (0x10000 + 4 * j) (b3 ++ b2 ++ b1 ++ b0)) ∧
    (∀ (i : Nat) (b : Byte), i < s.params.inSize → Memory.read s.inBuf i = some b →
      ReadsByte s (0x10000 + i) b) ∧
    (∀ i, i < s.params.inSize → Memory.read s.inBuf i = none → DrawsByte s (0x10000 + i)) ∧
    (∀ (j : Nat) (held : List (Option Byte)) (b0 b1 b2 b3 : Byte), 4 * j < s.params.inSize →
      held = [0, 1, 2, 3].map (fun k => Memory.read s.inBuf (4 * j + k)) →
      fillDraws s.draws held = [b0, b1, b2, b3] →
      step (s.withNext (.access (.read32 (BitVec.ofNat 18 (0x10000 + 4 * j))))) =
        .next { s with busResp := .data32 (b3 ++ b2 ++ b1 ++ b0), draws := s.draws + held.count none }) ∧
    (s.status.busy = false →
      (∀ (j : Nat) (b0 b1 b2 b3 : Byte), 4 * j < s.params.outSize →
        HoldsAt s.outBuf (4 * j) [b0, b1, b2, b3] → ReadsWord s (0x20000 + 4 * j) (b3 ++ b2 ++ b1 ++ b0)) ∧
      (∀ (i : Nat) (b : Byte), i < s.params.outSize → Memory.read s.outBuf i = some b →
        ReadsByte s (0x20000 + i) b) ∧
      (∀ i, i < s.params.outSize → Memory.read s.outBuf i = none → DrawsByte s (0x20000 + i)) ∧
      (∀ (j : Nat) (held : List (Option Byte)) (b0 b1 b2 b3 : Byte), 4 * j < s.params.outSize →
        held = [0, 1, 2, 3].map (fun k => Memory.read s.outBuf (4 * j + k)) →
        fillDraws s.draws held = [b0, b1, b2, b3] →
        step (s.withNext (.access (.read32 (BitVec.ofNat 18 (0x20000 + 4 * j))))) =
          .next { s with busResp := .data32 (b3 ++ b2 ++ b1 ++ b0), draws := s.draws + held.count none })) ∧
    (s.status.busy = true →
      (∀ j, 4 * j < s.params.outSize → DrawsWord s (0x20000 + 4 * j)) ∧
      (∀ i, i < s.params.outSize → DrawsByte s (0x20000 + i)))

/-- spec/20_memory.md R89: an aligned offset that holds nothing reads 0 and ignores writes, and so do bytes at or above
a buffer's size; a write to a read-only register or array word is ignored. Stated at any time: that a ROM slot's words
+0x24 to +0x3C read 0 also while BUSY = 1 is the model's reading of R279 (DEDUCED, log 15), and so is that a write at or
above a buffer's size is ignored also while BUSY = 1 (DEDUCED, log 16). -/
def Obligations.HoldsNothing : Prop :=
  ∀ s : State,
    (∀ off : Nat, off < 0x40000 → off % 4 = 0 →
      ((0x034 ≤ off ∧ off < 0x1000) ∨ (0x1400 ≤ off ∧ off < 0x2000) ∨
        (0x2000 ≤ off ∧ off < 0x6000 ∧ 0x24 ≤ off % 0x40) ∨ (0x6000 ≤ off ∧ off < 0x10000) ∨
        (0x10000 + s.params.inSize ≤ off ∧ off < 0x20000) ∨
        (0x20000 + s.params.outSize ≤ off ∧ off < 0x30000) ∨ 0x30000 ≤ off) →
      ReadsWord s off 0 ∧ ∀ v, WritesWord s off v s) ∧
    (∀ off : Nat,
      ((0x10000 + s.params.inSize ≤ off ∧ off < 0x20000) ∨
        (0x20000 + s.params.outSize ≤ off ∧ off < 0x30000)) →
      ReadsByte s off 0 ∧ ∀ v, WritesByte s off v s) ∧
    (∀ (off : Nat) (v : Word), off % 4 = 0 →
      (off ∈ [0x000, 0x010, 0x014, 0x01C, 0x020, 0x024, 0x028, 0x02C, 0x030] ∨ (0x1000 ≤ off ∧ off < 0x1400) ∨
        (0x2000 ≤ off ∧ off < 0x6000)) →
      WritesWord s off v s)

/-- spec/10_state.md R32, R34, R37, spec/20_memory.md R89, spec/60_exceptions.md R279: writes of CTRL and IN_LEN, lost
with OVR while a command runs; the write-1-to-clear of STATUS at any time; the read-only registers ignore writes. -/
def Obligations.RegisterWrites : Prop :=
  ∀ (s : State) (v : Word),
    (s.status.busy = false →
      WritesWord s 0x004 v { s with ctrl := { fmt := v.getLsbD 0, ie := v.getLsbD 1 } } ∧
      WritesWord s 0x018 v { s with inLen := BitVec.ofNat 17 v.toNat }) ∧
    (s.status.busy = true →
      WritesWord s 0x004 v { s with status := { s.status with ovr := true } } ∧
      WritesWord s 0x018 v { s with status := { s.status with ovr := true } }) ∧
    WritesWord s 0x00C v
      { s with
        status :=
          { busy := s.status.busy
            done := s.status.done && !v.getLsbD 1
            err := s.status.err && !v.getLsbD 2
            ovr := s.status.ovr && !v.getLsbD 3 } } ∧
    (∀ off ∈ [0x000, 0x010, 0x014, 0x01C, 0x020, 0x024, 0x028, 0x02C, 0x030], WritesWord s off v s)

/-- spec/70_reset_and_hazards.md R310: a write to IN_BUF or OUT_BUF while BUSY = 1, of a byte or of a word, has no move
in the model; it is refused by name (the order of the checks before it is the model's: DEDUCED, log 16). -/
def Obligations.BufferWriteWhileBusyRefused : Prop :=
  ∀ s : State, s.params.wellFormed = true → s.status.busy = true →
    (∀ (i : Nat) (v : Byte), i < s.params.inSize →
      step (s.withNext (.access (.write8 (BitVec.ofNat 18 (0x10000 + i)) v))) =
        .refused (.bufferWriteWhileBusy (BitVec.ofNat 18 (0x10000 + i)))) ∧
    (∀ (i : Nat) (v : Byte), i < s.params.outSize →
      step (s.withNext (.access (.write8 (BitVec.ofNat 18 (0x20000 + i)) v))) =
        .refused (.bufferWriteWhileBusy (BitVec.ofNat 18 (0x20000 + i)))) ∧
    (∀ (j : Nat) (v : Word), 4 * j < s.params.inSize →
      step (s.withNext (.access (.write32 (BitVec.ofNat 18 (0x10000 + 4 * j)) v))) =
        .refused (.bufferWriteWhileBusy (BitVec.ofNat 18 (0x10000 + 4 * j)))) ∧
    (∀ (j : Nat) (v : Word), 4 * j < s.params.outSize →
      step (s.withNext (.access (.write32 (BitVec.ofNat 18 (0x20000 + 4 * j)) v))) =
        .refused (.bufferWriteWhileBusy (BitVec.ofNat 18 (0x20000 + 4 * j))))

/-! ## Reset -/

/-- spec/10_state.md R59: the reset values the spec gives, at State.reset and after the reset event, which every
state takes, a running command included (spec/70_reset_and_hazards.md R300, R301). That no byte of either buffer is
written is the model's form of their unspecified contents (DESIGN CHOICE, log 7). -/
def Obligations.ResetValues : Prop :=
  (∀ s : State, ∃ t, step (s.withNext .reset) = .next t) ∧
  ∀ t : State, (t = State.reset ∨ ∃ s : State, step (s.withNext .reset) = .next t) →
    t.regWord .id = 0x48554631 ∧
    t.ctrl = { fmt := true, ie := false } ∧
    t.status = { busy := false, done := false, err := false, ovr := false } ∧
    t.errCode = { cause := 0, sub := 0 } ∧ t.errInfo = 0 ∧ t.inLen = 0 ∧ t.outLen = 0 ∧ t.nsym = 0 ∧
    t.maxLen = 0 ∧ t.tableLen = 0 ∧ t.bitCnt = 0 ∧ t.bodyOff = 0 ∧
    (∀ b, Hist.count t.hist b = 0 ∧ Rom.clen t.rom b = 0 ∧ Rom.code t.rom b = []) ∧ t.seq = .idle ∧ t.irq = false ∧
    (∀ i, Memory.read t.inBuf i = none ∧ Memory.read t.outBuf i = none)

/-- Every invariant below holds at State.reset. -/
def Obligations.InvariantsHoldAtReset : Prop :=
  StatusInv State.reset ∧ BufferInv State.reset ∧ HistInv State.reset ∧ RomInv State.reset ∧
  ErrorInv State.reset

/-! ## Invariants every step keeps -/

/-- spec/10_state.md R34, R54. -/
def Obligations.StepKeepsStatusInvariant : Prop :=
  ∀ s t : State, StatusInv s → step s = .next t → StatusInv t

/-- The buffers' canonical form and bounds (spec/20_memory.md R84, R85; spec/44_decoder.md R240). The canonical
list is the model's form of a buffer (log 7). -/
def Obligations.StepKeepsBuffersCanonical : Prop :=
  ∀ s t : State, BufferInv s → step s = .next t → BufferInv t

/-- spec/10_state.md R45, spec/41_histogram.md R180. -/
def Obligations.StepKeepsHistTotal : Prop :=
  ∀ s t : State, HistInv s → step s = .next t → HistInv t

/-- spec/10_state.md R39 to R41, R49. -/
def Obligations.StepKeepsRomInvariant : Prop :=
  ∀ s t : State, RomInv s → step s = .next t → RomInv t

/-- spec/60_exceptions.md R270 to R272, R274, R275. -/
def Obligations.StepKeepsErrorRegisters : Prop :=
  ∀ s t : State, StatusInv s → ErrorInv s → step s = .next t → ErrorInv t

/-- spec/10_state.md R52, spec/20_memory.md R95, spec/60_exceptions.md R278: IRQ rises only when a running command
completes, or when the host's write of CTRL sets IE with DONE or ERR pending; with IE = 1 it does rise at every
completion, successful or not, and at that write; and it is 0 after the acceptance of a command, after a STATUS write
that clears DONE and ERR, and after a CTRL write of IE = 0 while no command runs. -/
def Obligations.IrqRisesOnlyAtCompletionOrUnmask : Prop :=
  (∀ s t : State, step s = .next t → s.irq = false → t.irq = true →
    (s.seq ≠ .idle ∧ t.seq = .idle) ∨
    (∃ v rest, s.events = .access (.write32 0x004 v) :: rest ∧ v.getLsbD 1 = true ∧
      (s.status.done = true ∨ s.status.err = true))) ∧
  (∀ s t : State, s.seq ≠ .idle → s.ctrl.ie = true →
    (step (s.withNext .core) = .next t ∨ (s.events = [] ∧ step s = .next t)) → t.irq = true) ∧
  (∀ (s : State) (v : Word), s.status.busy = false → (s.status.done = true ∨ s.status.err = true) →
    v.getLsbD 1 = true → ∃ t, WritesWord s 0x004 v t ∧ t.irq = true) ∧
  (∀ (s : State) (w : Word), s.seq = .idle → ∃ t, WritesWord s 0x008 w t ∧ t.irq = false) ∧
  (∀ (s : State) (v : Word), v.getLsbD 1 = true → v.getLsbD 2 = true →
    ∃ t, WritesWord s 0x00C v t ∧ t.irq = false) ∧
  (∀ (s : State) (v : Word), s.status.busy = false → v.getLsbD 1 = false →
    ∃ t, WritesWord s 0x004 v t ∧ t.irq = false)
end

