-- ==== Sys2Proof/Laws/State.lean ====
section
/-! SUPPORT. One lemma per field per update of the shared operations on State, true by rfl. -/

namespace Sys2Proof.Machine

/-! ## State.accept -/

@[simp] theorem State.accept_ctrl (s : State) (w : Word) : (s.accept w).ctrl = s.ctrl := rfl
@[simp] theorem State.accept_status (s : State) (w : Word) : (s.accept w).status = { s.status with busy := true, done := false, err := false } := rfl
@[simp] theorem State.accept_errCode (s : State) (w : Word) : (s.accept w).errCode = { cause := 0, sub := 0 } := rfl
@[simp] theorem State.accept_errInfo (s : State) (w : Word) : (s.accept w).errInfo = 0 := rfl
@[simp] theorem State.accept_inLen (s : State) (w : Word) : (s.accept w).inLen = s.inLen := rfl
@[simp] theorem State.accept_outLen (s : State) (w : Word) : (s.accept w).outLen = s.outLen := rfl
@[simp] theorem State.accept_nsym (s : State) (w : Word) : (s.accept w).nsym = s.nsym := rfl
@[simp] theorem State.accept_maxLen (s : State) (w : Word) : (s.accept w).maxLen = s.maxLen := rfl
@[simp] theorem State.accept_tableLen (s : State) (w : Word) : (s.accept w).tableLen = s.tableLen := rfl
@[simp] theorem State.accept_bitCnt (s : State) (w : Word) : (s.accept w).bitCnt = s.bitCnt := rfl
@[simp] theorem State.accept_bodyOff (s : State) (w : Word) : (s.accept w).bodyOff = s.bodyOff := rfl
@[simp] theorem State.accept_hist (s : State) (w : Word) : (s.accept w).hist = s.hist := rfl
@[simp] theorem State.accept_rom (s : State) (w : Word) : (s.accept w).rom = s.rom := rfl
@[simp] theorem State.accept_inBuf (s : State) (w : Word) : (s.accept w).inBuf = s.inBuf := rfl
@[simp] theorem State.accept_outBuf (s : State) (w : Word) : (s.accept w).outBuf = s.outBuf := rfl
@[simp] theorem State.accept_seq (s : State) (w : Word) : (s.accept w).seq = seqOf w := rfl
@[simp] theorem State.accept_params (s : State) (w : Word) : (s.accept w).params = s.params := rfl
@[simp] theorem State.accept_busResp (s : State) (w : Word) : (s.accept w).busResp = s.busResp := rfl
@[simp] theorem State.accept_draws (s : State) (w : Word) : (s.accept w).draws = s.draws := rfl
@[simp] theorem State.accept_events (s : State) (w : Word) : (s.accept w).events = s.events := rfl

/-! ## State.complete -/

@[simp] theorem State.complete_ctrl (s : State) : s.complete.ctrl = s.ctrl := rfl
@[simp] theorem State.complete_status (s : State) : s.complete.status = { s.status with busy := false, done := true } := rfl
@[simp] theorem State.complete_errCode (s : State) : s.complete.errCode = s.errCode := rfl
@[simp] theorem State.complete_errInfo (s : State) : s.complete.errInfo = s.errInfo := rfl
@[simp] theorem State.complete_inLen (s : State) : s.complete.inLen = s.inLen := rfl
@[simp] theorem State.complete_outLen (s : State) : s.complete.outLen = s.outLen := rfl
@[simp] theorem State.complete_nsym (s : State) : s.complete.nsym = s.nsym := rfl
@[simp] theorem State.complete_maxLen (s : State) : s.complete.maxLen = s.maxLen := rfl
@[simp] theorem State.complete_tableLen (s : State) : s.complete.tableLen = s.tableLen := rfl
@[simp] theorem State.complete_bitCnt (s : State) : s.complete.bitCnt = s.bitCnt := rfl
@[simp] theorem State.complete_bodyOff (s : State) : s.complete.bodyOff = s.bodyOff := rfl
@[simp] theorem State.complete_hist (s : State) : s.complete.hist = s.hist := rfl
@[simp] theorem State.complete_rom (s : State) : s.complete.rom = s.rom := rfl
@[simp] theorem State.complete_inBuf (s : State) : s.complete.inBuf = s.inBuf := rfl
@[simp] theorem State.complete_outBuf (s : State) : s.complete.outBuf = s.outBuf := rfl
@[simp] theorem State.complete_seq (s : State) : s.complete.seq = .idle := rfl
@[simp] theorem State.complete_params (s : State) : s.complete.params = s.params := rfl
@[simp] theorem State.complete_busResp (s : State) : s.complete.busResp = s.busResp := rfl
@[simp] theorem State.complete_draws (s : State) : s.complete.draws = s.draws := rfl
@[simp] theorem State.complete_events (s : State) : s.complete.events = s.events := rfl

/-! ## State.raise -/

@[simp] theorem State.raise_ctrl (s : State) (b : Bool) (e : CmdError) : (s.raise b e).ctrl = s.ctrl := rfl
@[simp] theorem State.raise_status (s : State) (b : Bool) (e : CmdError) : (s.raise b e).status = { s.status with busy := false, err := true } := rfl
@[simp] theorem State.raise_errCode (s : State) (b : Bool) (e : CmdError) : (s.raise b e).errCode = { cause := e.cause, sub := e.sub } := rfl
@[simp] theorem State.raise_errInfo (s : State) (b : Bool) (e : CmdError) : (s.raise b e).errInfo = e.info := rfl
@[simp] theorem State.raise_inLen (s : State) (b : Bool) (e : CmdError) : (s.raise b e).inLen = s.inLen := rfl
@[simp] theorem State.raise_outLen (s : State) (b : Bool) (e : CmdError) : (s.raise b e).outLen = if b then 0 else s.outLen := rfl
@[simp] theorem State.raise_nsym (s : State) (b : Bool) (e : CmdError) : (s.raise b e).nsym = s.nsym := rfl
@[simp] theorem State.raise_maxLen (s : State) (b : Bool) (e : CmdError) : (s.raise b e).maxLen = s.maxLen := rfl
@[simp] theorem State.raise_tableLen (s : State) (b : Bool) (e : CmdError) : (s.raise b e).tableLen = s.tableLen := rfl
@[simp] theorem State.raise_bitCnt (s : State) (b : Bool) (e : CmdError) : (s.raise b e).bitCnt = s.bitCnt := rfl
@[simp] theorem State.raise_bodyOff (s : State) (b : Bool) (e : CmdError) : (s.raise b e).bodyOff = s.bodyOff := rfl
@[simp] theorem State.raise_hist (s : State) (b : Bool) (e : CmdError) : (s.raise b e).hist = s.hist := rfl
@[simp] theorem State.raise_rom (s : State) (b : Bool) (e : CmdError) : (s.raise b e).rom = s.rom := rfl
@[simp] theorem State.raise_inBuf (s : State) (b : Bool) (e : CmdError) : (s.raise b e).inBuf = s.inBuf := rfl
@[simp] theorem State.raise_outBuf (s : State) (b : Bool) (e : CmdError) : (s.raise b e).outBuf = s.outBuf := rfl
@[simp] theorem State.raise_seq (s : State) (b : Bool) (e : CmdError) : (s.raise b e).seq = .idle := rfl
@[simp] theorem State.raise_params (s : State) (b : Bool) (e : CmdError) : (s.raise b e).params = s.params := rfl
@[simp] theorem State.raise_busResp (s : State) (b : Bool) (e : CmdError) : (s.raise b e).busResp = s.busResp := rfl
@[simp] theorem State.raise_draws (s : State) (b : Bool) (e : CmdError) : (s.raise b e).draws = s.draws := rfl
@[simp] theorem State.raise_events (s : State) (b : Bool) (e : CmdError) : (s.raise b e).events = s.events := rfl

/-! ## State.acknowledge -/

@[simp] theorem State.acknowledge_ctrl (s : State) (d e o : Bool) : (s.acknowledge d e o).ctrl = s.ctrl := rfl
@[simp] theorem State.acknowledge_status (s : State) (d e o : Bool) : (s.acknowledge d e o).status = { s.status with done := s.status.done && !d, err := s.status.err && !e, ovr := s.status.ovr && !o } := rfl
@[simp] theorem State.acknowledge_errCode (s : State) (d e o : Bool) : (s.acknowledge d e o).errCode = s.errCode := rfl
@[simp] theorem State.acknowledge_errInfo (s : State) (d e o : Bool) : (s.acknowledge d e o).errInfo = s.errInfo := rfl
@[simp] theorem State.acknowledge_inLen (s : State) (d e o : Bool) : (s.acknowledge d e o).inLen = s.inLen := rfl
@[simp] theorem State.acknowledge_outLen (s : State) (d e o : Bool) : (s.acknowledge d e o).outLen = s.outLen := rfl
@[simp] theorem State.acknowledge_nsym (s : State) (d e o : Bool) : (s.acknowledge d e o).nsym = s.nsym := rfl
@[simp] theorem State.acknowledge_maxLen (s : State) (d e o : Bool) : (s.acknowledge d e o).maxLen = s.maxLen := rfl
@[simp] theorem State.acknowledge_tableLen (s : State) (d e o : Bool) : (s.acknowledge d e o).tableLen = s.tableLen := rfl
@[simp] theorem State.acknowledge_bitCnt (s : State) (d e o : Bool) : (s.acknowledge d e o).bitCnt = s.bitCnt := rfl
@[simp] theorem State.acknowledge_bodyOff (s : State) (d e o : Bool) : (s.acknowledge d e o).bodyOff = s.bodyOff := rfl
@[simp] theorem State.acknowledge_hist (s : State) (d e o : Bool) : (s.acknowledge d e o).hist = s.hist := rfl
@[simp] theorem State.acknowledge_rom (s : State) (d e o : Bool) : (s.acknowledge d e o).rom = s.rom := rfl
@[simp] theorem State.acknowledge_inBuf (s : State) (d e o : Bool) : (s.acknowledge d e o).inBuf = s.inBuf := rfl
@[simp] theorem State.acknowledge_outBuf (s : State) (d e o : Bool) : (s.acknowledge d e o).outBuf = s.outBuf := rfl
@[simp] theorem State.acknowledge_seq (s : State) (d e o : Bool) : (s.acknowledge d e o).seq = s.seq := rfl
@[simp] theorem State.acknowledge_params (s : State) (d e o : Bool) : (s.acknowledge d e o).params = s.params := rfl
@[simp] theorem State.acknowledge_busResp (s : State) (d e o : Bool) : (s.acknowledge d e o).busResp = s.busResp := rfl
@[simp] theorem State.acknowledge_draws (s : State) (d e o : Bool) : (s.acknowledge d e o).draws = s.draws := rfl
@[simp] theorem State.acknowledge_events (s : State) (d e o : Bool) : (s.acknowledge d e o).events = s.events := rfl

/-! ## State.setOvr -/

@[simp] theorem State.setOvr_ctrl (s : State) : s.setOvr.ctrl = s.ctrl := rfl
@[simp] theorem State.setOvr_status (s : State) : s.setOvr.status = { s.status with ovr := true } := rfl
@[simp] theorem State.setOvr_errCode (s : State) : s.setOvr.errCode = s.errCode := rfl
@[simp] theorem State.setOvr_errInfo (s : State) : s.setOvr.errInfo = s.errInfo := rfl
@[simp] theorem State.setOvr_inLen (s : State) : s.setOvr.inLen = s.inLen := rfl
@[simp] theorem State.setOvr_outLen (s : State) : s.setOvr.outLen = s.outLen := rfl
@[simp] theorem State.setOvr_nsym (s : State) : s.setOvr.nsym = s.nsym := rfl
@[simp] theorem State.setOvr_maxLen (s : State) : s.setOvr.maxLen = s.maxLen := rfl
@[simp] theorem State.setOvr_tableLen (s : State) : s.setOvr.tableLen = s.tableLen := rfl
@[simp] theorem State.setOvr_bitCnt (s : State) : s.setOvr.bitCnt = s.bitCnt := rfl
@[simp] theorem State.setOvr_bodyOff (s : State) : s.setOvr.bodyOff = s.bodyOff := rfl
@[simp] theorem State.setOvr_hist (s : State) : s.setOvr.hist = s.hist := rfl
@[simp] theorem State.setOvr_rom (s : State) : s.setOvr.rom = s.rom := rfl
@[simp] theorem State.setOvr_inBuf (s : State) : s.setOvr.inBuf = s.inBuf := rfl
@[simp] theorem State.setOvr_outBuf (s : State) : s.setOvr.outBuf = s.outBuf := rfl
@[simp] theorem State.setOvr_seq (s : State) : s.setOvr.seq = s.seq := rfl
@[simp] theorem State.setOvr_params (s : State) : s.setOvr.params = s.params := rfl
@[simp] theorem State.setOvr_busResp (s : State) : s.setOvr.busResp = s.busResp := rfl
@[simp] theorem State.setOvr_draws (s : State) : s.setOvr.draws = s.draws := rfl
@[simp] theorem State.setOvr_events (s : State) : s.setOvr.events = s.events := rfl

/-! ## State.withNext -/

@[simp] theorem State.next_ctrl (s : State) (e : Event) : (s.withNext e).ctrl = s.ctrl := rfl
@[simp] theorem State.next_status (s : State) (e : Event) : (s.withNext e).status = s.status := rfl
@[simp] theorem State.next_errCode (s : State) (e : Event) : (s.withNext e).errCode = s.errCode := rfl
@[simp] theorem State.next_errInfo (s : State) (e : Event) : (s.withNext e).errInfo = s.errInfo := rfl
@[simp] theorem State.next_inLen (s : State) (e : Event) : (s.withNext e).inLen = s.inLen := rfl
@[simp] theorem State.next_outLen (s : State) (e : Event) : (s.withNext e).outLen = s.outLen := rfl
@[simp] theorem State.next_nsym (s : State) (e : Event) : (s.withNext e).nsym = s.nsym := rfl
@[simp] theorem State.next_maxLen (s : State) (e : Event) : (s.withNext e).maxLen = s.maxLen := rfl
@[simp] theorem State.next_tableLen (s : State) (e : Event) : (s.withNext e).tableLen = s.tableLen := rfl
@[simp] theorem State.next_bitCnt (s : State) (e : Event) : (s.withNext e).bitCnt = s.bitCnt := rfl
@[simp] theorem State.next_bodyOff (s : State) (e : Event) : (s.withNext e).bodyOff = s.bodyOff := rfl
@[simp] theorem State.next_hist (s : State) (e : Event) : (s.withNext e).hist = s.hist := rfl
@[simp] theorem State.next_rom (s : State) (e : Event) : (s.withNext e).rom = s.rom := rfl
@[simp] theorem State.next_inBuf (s : State) (e : Event) : (s.withNext e).inBuf = s.inBuf := rfl
@[simp] theorem State.next_outBuf (s : State) (e : Event) : (s.withNext e).outBuf = s.outBuf := rfl
@[simp] theorem State.next_seq (s : State) (e : Event) : (s.withNext e).seq = s.seq := rfl
@[simp] theorem State.next_params (s : State) (e : Event) : (s.withNext e).params = s.params := rfl
@[simp] theorem State.next_busResp (s : State) (e : Event) : (s.withNext e).busResp = s.busResp := rfl
@[simp] theorem State.next_draws (s : State) (e : Event) : (s.withNext e).draws = s.draws := rfl
@[simp] theorem State.next_events (s : State) (e : Event) : (s.withNext e).events = e :: s.events := rfl

/-! ## State.applyReset -/

@[simp] theorem State.applyReset_params (s : State) : s.applyReset.params = s.params := rfl
@[simp] theorem State.applyReset_draws (s : State) : s.applyReset.draws = s.draws := rfl
@[simp] theorem State.applyReset_events (s : State) : s.applyReset.events = s.events := rfl
@[simp] theorem State.applyReset_ctrl (s : State) : s.applyReset.ctrl = { fmt := true, ie := false } := rfl
@[simp] theorem State.applyReset_status (s : State) : s.applyReset.status = { busy := false, done := false, err := false, ovr := false } := rfl
@[simp] theorem State.applyReset_errCode (s : State) : s.applyReset.errCode = { cause := 0, sub := 0 } := rfl
@[simp] theorem State.applyReset_errInfo (s : State) : s.applyReset.errInfo = 0 := rfl
@[simp] theorem State.applyReset_inLen (s : State) : s.applyReset.inLen = 0 := rfl
@[simp] theorem State.applyReset_outLen (s : State) : s.applyReset.outLen = 0 := rfl
@[simp] theorem State.applyReset_nsym (s : State) : s.applyReset.nsym = 0 := rfl
@[simp] theorem State.applyReset_maxLen (s : State) : s.applyReset.maxLen = 0 := rfl
@[simp] theorem State.applyReset_tableLen (s : State) : s.applyReset.tableLen = 0 := rfl
@[simp] theorem State.applyReset_bitCnt (s : State) : s.applyReset.bitCnt = 0 := rfl
@[simp] theorem State.applyReset_bodyOff (s : State) : s.applyReset.bodyOff = 0 := rfl
@[simp] theorem State.applyReset_hist (s : State) : s.applyReset.hist = Hist.zero := rfl
@[simp] theorem State.applyReset_rom (s : State) : s.applyReset.rom = Rom.empty := rfl
@[simp] theorem State.applyReset_inBuf (s : State) : s.applyReset.inBuf = [] := rfl
@[simp] theorem State.applyReset_outBuf (s : State) : s.applyReset.outBuf = [] := rfl
@[simp] theorem State.applyReset_seq (s : State) : s.applyReset.seq = .idle := rfl
@[simp] theorem State.applyReset_busResp (s : State) : s.applyReset.busResp = .none := rfl

end Sys2Proof.Machine
end

