-- ==== Sys2Proof/Laws/Memory.lean ====
section
/-! SUPPORT. The buffers: a read after a write, the canonical form kept, and what the core's reads give. -/

namespace Sys2Proof.Machine

/-- Read after write: the value written there, what was read before elsewhere. -/
theorem Memory.read_write (m : Memory) (i j : Nat) (v : Byte) :
    Memory.read (Memory.write m i v) j = if j = i then some v else Memory.read m j := by
  induction m with
  | nil => simp [Memory.write, Memory.read]
  | cons c rest ih =>
    obtain ⟨a, w⟩ := c
    simp only [Memory.write]
    split
    · simp [Memory.read]
    · split
      · subst_vars
        by_cases h : j = a <;> simp [Memory.read, h]
      · simp only [Memory.read, ih]
        by_cases h : j = a
        · subst h
          simp_all
          omega
        · simp [h]

@[simp] theorem Memory.read_write_same (m : Memory) (i : Nat) (v : Byte) :
    Memory.read (Memory.write m i v) i = some v := by simp [Memory.read_write]

theorem Memory.read_write_other (m : Memory) {i j : Nat} (v : Byte) (h : j ≠ i) :
    Memory.read (Memory.write m i v) j = Memory.read m j := by simp [Memory.read_write, h]

/-- Reading after a list of bytes is written: the bytes in its range, what was read before elsewhere. -/
theorem Memory.read_writeList (m : Memory) (p j : Nat) (bytes : List Byte) :
    Memory.read (Memory.writeList m p bytes) j =
      if p ≤ j ∧ j < p + bytes.length then bytes[j - p]? else Memory.read m j := by
  induction bytes generalizing m p with
  | nil =>
    rw [if_neg (by simp)]
    rfl
  | cons b bs ih =>
    simp only [Memory.writeList, ih, Memory.read_write, List.length_cons]
    by_cases h : j = p
    · subst h; simp
    · by_cases h2 : p ≤ j ∧ j < p + (bs.length + 1)
      · have h3 : p + 1 ≤ j ∧ j < p + 1 + bs.length := by omega
        rw [if_pos h3, if_pos h2]
        have : j - p = (j - (p + 1)) + 1 := by omega
        rw [this, List.getElem?_cons_succ]
      · have h3 : ¬(p + 1 ≤ j ∧ j < p + 1 + bs.length) := by omega
        rw [if_neg h3, if_neg h2, if_neg h]

/-- A list written at `p` stands at `p`. -/
theorem HoldsAt.writeList (m : Memory) (p : Nat) (bytes : List Byte) :
    HoldsAt (Memory.writeList m p bytes) p bytes := by
  intro i hi
  rw [Memory.read_writeList, if_pos (by omega)]
  congr 1
  omega

theorem HoldsAt.append {m : Memory} {p : Nat} {xs ys : List Byte} :
    HoldsAt m p (xs ++ ys) ↔ HoldsAt m p xs ∧ HoldsAt m (p + xs.length) ys := by
  constructor
  · intro h
    constructor
    · intro i hi
      rw [h i (by simp; omega), List.getElem?_append_left hi]
    · intro i hi
      have := h (xs.length + i) (by simp; omega)
      rw [← Nat.add_assoc] at this
      rw [this, List.getElem?_append_right (by omega)]
      congr 1
      omega
  · rintro ⟨h1, h2⟩ i hi
    by_cases h : i < xs.length
    · rw [h1 i h, List.getElem?_append_left h]
    · have := h2 (i - xs.length) (by simp at hi; omega)
      rw [List.getElem?_append_right (by omega), ← this]
      congr 1
      omega

theorem HoldsAt.cons {m : Memory} {p : Nat} {x : Byte} {ys : List Byte} :
    HoldsAt m p (x :: ys) ↔ Memory.read m p = some x ∧ HoldsAt m (p + 1) ys := by
  have h := @HoldsAt.append m p [x] ys
  simp only [List.singleton_append, List.length_singleton] at h
  rw [h]
  constructor
  · rintro ⟨h1, h2⟩
    exact ⟨by simpa using h1 0 (by simp), h2⟩
  · rintro ⟨h1, h2⟩
    refine ⟨?_, h2⟩
    intro i hi
    have : i = 0 := by simpa using hi
    subst this
    simpa using h1

@[simp] theorem HoldsAt.nil (m : Memory) (p : Nat) : HoldsAt m p [] := by
  intro i hi; simp at hi

theorem SameFrom.writeList (m : Memory) (p : Nat) (bytes : List Byte) :
    SameFrom (p + bytes.length) m (Memory.writeList m p bytes) := by
  intro i hi
  rw [Memory.read_writeList, if_neg (by omega)]

/-! ## The canonical form -/

/-- Which entries a write leaves: the one written, and old ones. -/
theorem Memory.mem_write {m : Memory} {i : Nat} {v : Byte} {c : Host.Cell} (h : c ∈ Memory.write m i v) :
    c = (i, v) ∨ c ∈ m := by
  induction m with
  | nil => simpa [Memory.write] using h
  | cons d rest ih =>
    obtain ⟨a, w⟩ := d
    simp only [Memory.write] at h
    split at h
    · simp at h
      rcases h with h | h | h <;> simp [h]
    · split at h
      · simp at h
        rcases h with h | h <;> simp [h]
      · simp at h
        rcases h with h | h
        · simp [h]
        · rcases ih h with h | h <;> simp [h]

/-- A write keeps the canonical form. -/
theorem Memory.wf_write {m : Memory} (h : Memory.wf m) (i : Nat) (v : Byte) : Memory.wf (Memory.write m i v) := by
  induction m with
  | nil => simp [Memory.write, Memory.wf]
  | cons d rest ih =>
    obtain ⟨a, w⟩ := d
    simp only [Memory.wf, List.map_cons, List.pairwise_cons] at h ⊢
    obtain ⟨h1, h2⟩ := h
    simp only [Memory.write]
    split
    · rename_i hia
      simp only [List.map_cons, List.pairwise_cons, List.mem_cons]
      refine ⟨?_, h1, h2⟩
      rintro b (rfl | hb)
      · exact hia
      · exact lt_trans hia (h1 b hb)
    · split
      · subst_vars
        simp only [List.map_cons, List.pairwise_cons]
        exact ⟨h1, h2⟩
      · simp only [List.map_cons, List.pairwise_cons]
        refine ⟨?_, ih h2⟩
        intro b hb
        obtain ⟨c, hc, rfl⟩ := List.mem_map.1 hb
        rcases Memory.mem_write hc with rfl | hc
        · simp; omega
        · exact h1 _ (List.mem_map_of_mem hc)

/-- A list of writes keeps the canonical form. -/
theorem Memory.wf_writeList {m : Memory} (h : Memory.wf m) (p : Nat) (bytes : List Byte) :
    Memory.wf (Memory.writeList m p bytes) := by
  induction bytes generalizing m p with
  | nil => exact h
  | cons b bs ih => exact ih (Memory.wf_write h p b) (p + 1)

theorem Memory.within_write {m : Memory} {n i : Nat} (h : Memory.within m n) (hi : i < n) (v : Byte) :
    Memory.within (Memory.write m i v) n := by
  intro c hc
  rcases Memory.mem_write hc with rfl | hc
  · exact hi
  · exact h c hc

theorem Memory.within_writeList {m : Memory} {n p : Nat} (h : Memory.within m n) (bytes : List Byte)
    (hp : p + bytes.length ≤ n) : Memory.within (Memory.writeList m p bytes) n := by
  induction bytes generalizing m p with
  | nil => exact h
  | cons b bs ih =>
    simp only [List.length_cons] at hp
    exact ih (Memory.within_write h (by omega) b) (by omega)

/-! ## The core's reads -/

theorem Memory.fetch_of_read {m : Memory} {i : Nat} {b : Byte} (h : Memory.read m i = some b) :
    Memory.fetch m i = .ok b := by simp [Memory.fetch, h]

/-- A core read gives the byte, or stops at an unwritten one. -/
theorem Memory.fetch_cases (m : Memory) (i : Nat) :
    (∃ b, Memory.read m i = some b ∧ Memory.fetch m i = .ok b) ∨
    (Memory.read m i = none ∧ Memory.fetch m i = .error (.unwritten i)) := by
  unfold Memory.fetch
  cases h : Memory.read m i <;> simp

/-- A range read gives the bytes the buffer holds. -/
theorem Memory.fetchRange_of_holds {m : Memory} {p : Nat} {bytes : List Byte} (h : HoldsAt m p bytes) :
    Memory.fetchRange m bytes.length p = .ok bytes := by
  induction bytes generalizing p with
  | nil => rfl
  | cons b bs ih =>
    obtain ⟨h1, h2⟩ := HoldsAt.cons.1 h
    simp [Memory.fetchRange, Memory.fetch_of_read h1, ih h2]

/-- Everything a range read can answer: the bytes held there, or a stop at an unwritten byte of the range. -/
theorem Memory.fetchRange_cases (m : Memory) (n p : Nat) :
    (∃ bytes, bytes.length = n ∧ HoldsAt m p bytes ∧ Memory.fetchRange m n p = .ok bytes) ∨
    (∃ i, p ≤ i ∧ i < p + n ∧ Memory.read m i = none ∧ Memory.fetchRange m n p = .error (.unwritten i)) := by
  induction n generalizing p with
  | zero => exact .inl ⟨[], rfl, by simp, rfl⟩
  | succ n ih =>
    rcases Memory.fetch_cases m p with ⟨b, hb, hf⟩ | ⟨hn, hf⟩
    · rcases ih (p + 1) with ⟨bs, hl, hh, he⟩ | ⟨i, h1, h2, h3, he⟩
      · exact .inl ⟨b :: bs, by simp [hl], HoldsAt.cons.2 ⟨hb, hh⟩, by simp [Memory.fetchRange, hf, he]⟩
      · exact .inr ⟨i, by omega, by omega, h3, by simp [Memory.fetchRange, hf, he]⟩
    · exact .inr ⟨p, le_refl _, by omega, hn, by simp [Memory.fetchRange, hf]⟩

/-- The read of an unwritten byte stops the command (spec/70_reset_and_hazards.md R304). -/
theorem Memory.fetch_of_unwritten {m : Memory} {i : Nat} (h : Memory.read m i = none) :
    Memory.fetch m i = .error (.unwritten i) := by
  simp [Memory.fetch, h]

/-- A range read in ascending order stops at its first unwritten byte. -/
theorem Memory.fetchRange_of_unwritten {m : Memory} {n p i : Nat} (hp : p ≤ i) (hi : i < p + n)
    (h : Memory.read m i = none) (hw : ∀ j, p ≤ j → j < i → Memory.read m j ≠ none) :
    Memory.fetchRange m n p = .error (.unwritten i) := by
  induction n generalizing p with
  | zero => omega
  | succ n ih =>
    by_cases hpi : p = i
    · subst hpi
      simp [Memory.fetchRange, Memory.fetch_of_unwritten h]
    · rcases Memory.fetch_cases m p with ⟨b, _, hf⟩ | ⟨hn, _⟩
      · simp [Memory.fetchRange, hf, ih (p := p + 1) (by omega) (by omega) fun j hj => hw j (by omega)]
      · exact absurd hn (hw p (Nat.le_refl _) (by omega))

/-- A body bit read gives that bit of the byte held, MSB-first. -/
theorem Memory.fetchBit_of_read {m : Memory} {base t : Nat} {b : Byte}
    (h : Memory.read m (base + t / 8) = some b) : Memory.fetchBit m base t = .ok (b.getLsbD (7 - t % 8)) := by
  simp [Memory.fetchBit, Memory.fetch_of_read h]

/-- A buffer written below `n` holds some list of `n` bytes. -/
theorem exists_holdsAt_of_written {m : Memory} {n : Nat} (h : WrittenBelow m n) :
    ∃ bytes, bytes.length = n ∧ HoldsAt m 0 bytes := by
  rcases Memory.fetchRange_cases m n 0 with ⟨bytes, hl, hh, _⟩ | ⟨i, _, h2, h3, _⟩
  · exact ⟨bytes, hl, hh⟩
  · exact absurd h3 (h i (by omega))

end Sys2Proof.Machine
end

