-- ==== Sys2Proof/Laws/Tables.lean ====
section
/-! SUPPORT. HIST and the code ROM as tables over the 256 symbols. -/

namespace Sys2Proof.Machine

/-! ## The symbols -/

theorem symbols_length : symbols.length = 256 := by simp [symbols]

theorem symbols_getElem (i : Nat) (h : i < symbols.length) : symbols[i] = BitVec.ofNat 8 i := by
  simp [symbols]

theorem mem_symbols (s : Byte) : s ∈ symbols := by
  simp only [symbols, List.mem_map, List.mem_range]
  exact ⟨s.toNat, s.isLt, by simp⟩

theorem symbols_pairwise : symbols.Pairwise (fun a b => a.toNat < b.toNat) := by
  rw [List.pairwise_iff_getElem]
  intro i j hi hj hij
  rw [symbols_getElem, symbols_getElem]
  rw [symbols_length] at hi hj
  simp only [BitVec.toNat_ofNat]
  omega

theorem symbols_nodup : symbols.Nodup :=
  symbols_pairwise.imp fun h he => by subst he; omega

theorem toList_eq_map {α : Type} (v : Vector α 256) :
    v.toList = symbols.map fun s => v[s.toNat]'s.isLt := by
  apply List.ext_getElem
  · simp [symbols_length]
  · intro i h1 h2
    have hi : i < 256 := by simpa using h1
    simp only [List.getElem_map, symbols_getElem, Vector.getElem_toList]
    congr 1
    simp only [BitVec.toNat_ofNat]
    omega

theorem zip_symbols {α : Type} (f : Byte → α) :
    symbols.zip (symbols.map f) = symbols.map fun s => (s, f s) := by
  exact List.map_prod_left_eq_zip.symm

/-! ## HIST -/

theorem Hist.toList_eq (h : Hist) : h.toList = symbols.map (Hist.count h) := toList_eq_map h

theorem Hist.count_bump (h : Hist) (s t : Byte) :
    Hist.count (Hist.bump h s) t = if t = s then Hist.count h s + 1 else Hist.count h t := by
  unfold Hist.count Hist.bump
  rw [Vector.getElem_set]
  by_cases e : t = s
  · subst e; simp [Hist.count]
  · have : s.toNat ≠ t.toNat := fun e' => e (BitVec.eq_of_toNat_eq e'.symm)
    simp [e, this]

theorem Hist.ext_count {h h' : Hist} (e : ∀ s, Hist.count h s = Hist.count h' s) : h = h' := by
  apply Vector.ext
  intro i hi
  have := e (BitVec.ofNat 8 i)
  unfold Hist.count at this
  simpa [Nat.mod_eq_of_lt hi] using this

@[simp] theorem Hist.count_zero (s : Byte) : Hist.count Hist.zero s = 0 := by
  simp [Hist.count, Hist.zero]

theorem Hist.total_eq (h : Hist) : Hist.total h = (symbols.map fun s => (Hist.count h s).toNat).sum := by
  rw [Hist.total, Hist.toList_eq, List.map_map]
  rfl

theorem Hist.mem_present {h : Hist} {e : Byte × Word} :
    e ∈ Hist.present h ↔ e.2 = Hist.count h e.1 ∧ e.2 ≠ 0 := by
  unfold Hist.present
  rw [Hist.toList_eq, zip_symbols]
  obtain ⟨s, n⟩ := e
  simp only [List.mem_filter, List.mem_map, Prod.mk.injEq, bne_iff_ne]
  constructor
  · rintro ⟨⟨a, _, rfl, rfl⟩, h2⟩; exact ⟨rfl, h2⟩
  · rintro ⟨rfl, h2⟩; exact ⟨⟨s, mem_symbols s, rfl, rfl⟩, h2⟩

theorem Hist.present_pairwise (h : Hist) : (Hist.present h).Pairwise fun a b => a.1.toNat < b.1.toNat := by
  unfold Hist.present
  rw [Hist.toList_eq, zip_symbols]
  apply List.Pairwise.filter
  rw [List.pairwise_map]
  exact symbols_pairwise

/-- The number of present symbols is the number of symbols with a positive count. -/
theorem Hist.present_length (h : Hist) :
    (Hist.present h).length = symbols.countP fun s => Hist.count h s != 0 := by
  unfold Hist.present
  rw [Hist.toList_eq, zip_symbols, List.filter_map, List.length_map, List.countP_eq_length_filter]
  rfl

theorem sum_map_ite_symbol (s : Byte) (k : Nat) :
    ∀ l : List Byte, l.Nodup → s ∈ l → ∀ f : Byte → Nat,
      (l.map fun t => if t = s then f s + k else f t).sum = (l.map f).sum + k := by
  intro l
  induction l with
  | nil => intro _ h; simp at h
  | cons a l ih =>
    intro hn hm f
    rw [List.nodup_cons] at hn
    simp only [List.map_cons, List.sum_cons]
    by_cases e : a = s
    · subst e
      have : (l.map fun t => if t = a then f a + k else f t) = l.map f := by
        apply List.map_congr_left
        intro t ht
        have : t ≠ a := fun h => hn.1 (h ▸ ht)
        simp [this]
      rw [this]; simp; omega
    · have hm' : s ∈ l := by
        rcases List.mem_cons.1 hm with h | h
        · exact absurd h.symm e
        · exact h
      rw [ih hn.2 hm' f]; simp [e]; omega

theorem Hist.count_le_total (h : Hist) (s : Byte) : (Hist.count h s).toNat ≤ Hist.total h := by
  rw [Hist.total_eq]
  exact List.single_le_sum (by simp) _ (List.mem_map_of_mem (mem_symbols s))

theorem Hist.total_bump {h : Hist} {s : Byte} (hs : Hist.total h < countCap) :
    Hist.total (Hist.bump h s) = Hist.total h + 1 := by
  have hc : (Hist.count h s).toNat < 2 ^ 32 - 1 := lt_of_le_of_lt (Hist.count_le_total h s) hs
  rw [Hist.total_eq, Hist.total_eq]
  have : (symbols.map fun t => (Hist.count (Hist.bump h s) t).toNat) =
      symbols.map fun t => if t = s then (Hist.count h s).toNat + 1 else (Hist.count h t).toNat := by
    apply List.map_congr_left
    intro t _
    rw [Hist.count_bump]
    by_cases e : t = s
    · have h1 : (1 : Word).toNat = 1 := rfl
      simp only [e, if_true, BitVec.toNat_add, h1]
      omega
    · simp [e]
  rw [this]
  exact sum_map_ite_symbol s 1 symbols symbols_nodup (mem_symbols s) fun t => (Hist.count h t).toNat

theorem Hist.total_zero : Hist.total Hist.zero = 0 := by
  rw [Hist.total_eq]; simp

/-- Counting a message adds its length to the total, as long as that fits (spec/41_histogram.md R180). -/
theorem Hist.total_countBytes {h : Hist} {msg : List Byte} (hs : Hist.total h + msg.length ≤ countCap) :
    Hist.total (Hist.countBytes h msg) = Hist.total h + msg.length := by
  induction msg generalizing h with
  | nil => rfl
  | cons b bs ih =>
    simp only [List.length_cons] at hs ⊢
    have hb := Hist.total_bump (h := h) (s := b) (by omega)
    simp only [Hist.countBytes, List.foldl_cons] at ih ⊢
    rw [ih (by omega), hb]; omega

/-- Counting a message adds to each counter its number of occurrences (spec/41_histogram.md R181). -/
theorem Hist.count_countBytes {h : Hist} {msg : List Byte} (hs : Hist.total h + msg.length ≤ countCap)
    (s : Byte) : (Hist.count (Hist.countBytes h msg) s).toNat = (Hist.count h s).toNat + msg.count s := by
  induction msg generalizing h with
  | nil => simp [Hist.countBytes]
  | cons b bs ih =>
    simp only [List.length_cons] at hs
    have hb := Hist.total_bump (h := h) (s := b) (by omega)
    have hc : (Hist.count h b).toNat < 2 ^ 32 - 1 := by
      have h1 := Hist.count_le_total h b
      have h2 : countCap = 2 ^ 32 - 1 := rfl
      omega
    simp only [Hist.countBytes, List.foldl_cons] at ih ⊢
    rw [ih (by omega), Hist.count_bump, List.count_cons]
    by_cases e : s = b
    · subst e
      have h1 : (1 : Word).toNat = 1 := rfl
      simp only [if_true, BitVec.toNat_add, beq_self_eq_true, h1]
      omega
    · have e' : (b == s) = false := by simpa using fun h => e h.symm
      simp [e, e']

/-! ## The code ROM -/

theorem Rom.toList_eq (r : Rom) : r.toList = symbols.map (Rom.code r) := toList_eq_map r

theorem Rom.ext_code {r r' : Rom} (e : ∀ s, Rom.code r s = Rom.code r' s) : r = r' := by
  apply Vector.ext
  intro i hi
  have := e (BitVec.ofNat 8 i)
  unfold Rom.code at this
  simpa [Nat.mod_eq_of_lt hi] using this

@[simp] theorem Rom.code_empty (s : Byte) : Rom.code Rom.empty s = [] := by
  simp [Rom.code, Rom.empty]

theorem Rom.code_setCode (r : Rom) (s t : Byte) (c : Code) :
    Rom.code (Rom.setCode r s c) t = if t = s then c else Rom.code r t := by
  unfold Rom.code Rom.setCode
  rw [Vector.getElem_set]
  by_cases e : t = s
  · subst e; simp
  · have : s.toNat ≠ t.toNat := fun e' => e (BitVec.eq_of_toNat_eq e'.symm)
    simp [e, this]

theorem Rom.entries_eq (r : Rom) :
    Rom.entries r = (symbols.map fun s => (s, Rom.code r s)).filter fun e => !e.2.isEmpty := by
  unfold Rom.entries
  rw [Rom.toList_eq, zip_symbols]

theorem Rom.mem_entries {r : Rom} {e : Byte × Code} :
    e ∈ Rom.entries r ↔ e.2 = Rom.code r e.1 ∧ e.2 ≠ [] := by
  rw [Rom.entries_eq]
  obtain ⟨s, c⟩ := e
  simp only [List.mem_filter, List.mem_map, Prod.mk.injEq]
  constructor
  · rintro ⟨⟨a, _, rfl, rfl⟩, h2⟩; exact ⟨rfl, by simpa using h2⟩
  · rintro ⟨rfl, h2⟩; exact ⟨⟨s, mem_symbols s, rfl, rfl⟩, by simpa using h2⟩

theorem Rom.entries_pairwise (r : Rom) : (Rom.entries r).Pairwise fun a b => a.1.toNat < b.1.toNat := by
  rw [Rom.entries_eq]
  apply List.Pairwise.filter
  rw [List.pairwise_map]
  exact symbols_pairwise

theorem Rom.entries_keys_nodup (r : Rom) : ((Rom.entries r).map Prod.fst).Nodup := by
  rw [List.Nodup, List.pairwise_map]
  exact (Rom.entries_pairwise r).imp fun h he => by rw [he] at h; omega

theorem Rom.entries_nodup (r : Rom) : (Rom.entries r).Nodup :=
  (Rom.entries_pairwise r).imp fun h he => by rw [he] at h; omega

@[simp] theorem Rom.entries_empty : Rom.entries Rom.empty = [] := by
  rw [Rom.entries_eq, List.filter_eq_nil_iff]
  simp

/-- The code a list of entries with distinct symbols gives to a symbol. -/
theorem Rom.code_foldl (entries : List (Byte × Code)) (r : Rom) (h : (entries.map Prod.fst).Nodup) (s : Byte) :
    (∀ c, (s, c) ∈ entries → Rom.code (entries.foldl (fun r e => Rom.setCode r e.1 e.2) r) s = c) ∧
    (s ∉ entries.map Prod.fst →
      Rom.code (entries.foldl (fun r e => Rom.setCode r e.1 e.2) r) s = Rom.code r s) := by
  induction entries generalizing r with
  | nil => simp
  | cons e rest ih =>
    obtain ⟨a, d⟩ := e
    simp only [List.map_cons, List.nodup_cons] at h
    obtain ⟨h1, h2⟩ := h
    obtain ⟨i1, i2⟩ := ih (Rom.setCode r a d) h2
    constructor
    · intro c hc
      simp only [List.foldl_cons]
      rcases List.mem_cons.1 hc with hc | hc
      · obtain ⟨rfl, rfl⟩ := Prod.mk.inj hc
        rw [i2 h1, Rom.code_setCode, if_pos rfl]
      · exact i1 c hc
    · intro hs
      simp only [List.map_cons, List.mem_cons, not_or] at hs
      simp only [List.foldl_cons]
      rw [i2 hs.2, Rom.code_setCode, if_neg hs.1]

theorem Rom.code_ofEntries_of_mem {entries : List (Byte × Code)} (h : (entries.map Prod.fst).Nodup)
    {e : Byte × Code} (he : e ∈ entries) : Rom.code (Rom.ofEntries entries) e.1 = e.2 :=
  (Rom.code_foldl entries Rom.empty h e.1).1 e.2 he

theorem Rom.code_ofEntries_of_not_mem {entries : List (Byte × Code)} (h : (entries.map Prod.fst).Nodup)
    {s : Byte} (hs : s ∉ entries.map Prod.fst) : Rom.code (Rom.ofEntries entries) s = [] := by
  have := (Rom.code_foldl entries Rom.empty h s).2 hs
  rw [Rom.code_empty] at this
  exact this

/-- The entries of a ROM made of entries with distinct symbols and nonempty codes are those entries, in
ascending order. -/
theorem Rom.entries_ofEntries_perm {entries : List (Byte × Code)} (h : (entries.map Prod.fst).Nodup)
    (hc : ∀ e ∈ entries, e.2 ≠ []) : (Rom.entries (Rom.ofEntries entries)).Perm entries := by
  rw [List.perm_ext_iff_of_nodup (Rom.entries_nodup _) (List.Nodup.of_map _ h)]
  intro e
  rw [Rom.mem_entries]
  constructor
  · rintro ⟨h1, h2⟩
    by_cases hs : e.1 ∈ entries.map Prod.fst
    · obtain ⟨f, hf, hfe⟩ := List.mem_map.1 hs
      have := Rom.code_ofEntries_of_mem h hf
      rw [hfe, ← h1] at this
      have : e = f := Prod.ext hfe.symm this
      exact this ▸ hf
    · rw [Rom.code_ofEntries_of_not_mem h hs] at h1
      exact absurd h1 h2
  · intro he
    exact ⟨(Rom.code_ofEntries_of_mem h he).symm, hc e he⟩

/-- A ROM is what its own entries make. -/
theorem Rom.ofEntries_entries (r : Rom) : Rom.ofEntries (Rom.entries r) = r := by
  apply Rom.ext_code
  intro s
  by_cases hs : Rom.code r s = []
  · rw [hs]
    apply Rom.code_ofEntries_of_not_mem (Rom.entries_keys_nodup r)
    rintro hm
    obtain ⟨e, he, rfl⟩ := List.mem_map.1 hm
    rw [Rom.mem_entries] at he
    exact he.2 (he.1.trans hs)
  · exact Rom.code_ofEntries_of_mem (Rom.entries_keys_nodup r) (e := (s, Rom.code r s))
      (Rom.mem_entries.2 ⟨rfl, hs⟩)

theorem entriesLength_perm {e f : List (Byte × Code)} (h : e.Perm f) : entriesLength e = entriesLength f :=
  (h.map _).sum_eq

/-! ## The greatest length -/

theorem foldl_max_le {l : List Nat} {a n : Nat} : l.foldl max a ≤ n ↔ a ≤ n ∧ ∀ x ∈ l, x ≤ n := by
  induction l generalizing a with
  | nil => simp
  | cons b l ih => simp [ih, and_assoc]

theorem foldl_max_mem (l : List Nat) (a : Nat) : l.foldl max a = a ∨ l.foldl max a ∈ l := by
  induction l generalizing a with
  | nil => simp
  | cons b l ih =>
    simp only [List.foldl_cons, List.mem_cons]
    rcases ih (max a b) with h | h
    · rcases le_total a b with hab | hab
      · right; left; rw [h]; omega
      · left; rw [h]; omega
    · right; right; exact h

theorem Rom.longest_le_iff {r : Rom} {n : Nat} : Rom.longest r ≤ n ↔ ∀ s, Rom.clen r s ≤ n := by
  unfold Rom.longest
  rw [foldl_max_le, Rom.toList_eq]
  simp only [List.map_map, List.mem_map]
  constructor
  · rintro ⟨_, h⟩ s
    exact h _ ⟨s, mem_symbols s, rfl⟩
  · intro h
    refine ⟨Nat.zero_le _, ?_⟩
    rintro x ⟨s, _, rfl⟩
    exact h s

theorem Rom.clen_le_longest (r : Rom) (s : Byte) : Rom.clen r s ≤ Rom.longest r :=
  Rom.longest_le_iff.1 (le_refl _) s

/-- The greatest length is some symbol's. -/
theorem Rom.longest_mem (r : Rom) : ∃ s, Rom.clen r s = Rom.longest r := by
  unfold Rom.longest
  rcases foldl_max_mem (r.toList.map List.length) 0 with h | h
  · refine ⟨0, ?_⟩
    have := Rom.clen_le_longest r 0
    unfold Rom.longest at this
    omega
  · rw [Rom.toList_eq, List.map_map, List.mem_map] at h
    obtain ⟨s, _, hs⟩ := h
    rw [Rom.toList_eq, List.map_map]
    exact ⟨s, hs⟩

/-- The greatest length over the entries is the greatest over all symbols. -/
theorem longest_ofEntries {entries : List (Byte × Code)} (h : (entries.map Prod.fst).Nodup) :
    Rom.longest (Rom.ofEntries entries) = (entries.map fun e => e.2.length).foldl max 0 := by
  apply Nat.le_antisymm
  · rw [Rom.longest_le_iff]
    intro s
    by_cases hs : s ∈ entries.map Prod.fst
    · obtain ⟨e, he, rfl⟩ := List.mem_map.1 hs
      rw [Rom.clen, Rom.code_ofEntries_of_mem h he]
      exact (foldl_max_le.1 (le_refl _)).2 _ (List.mem_map.2 ⟨e, he, rfl⟩)
    · rw [Rom.clen, Rom.code_ofEntries_of_not_mem h hs]
      simp
  · rw [foldl_max_le]
    refine ⟨Nat.zero_le _, ?_⟩
    intro x hx
    obtain ⟨e, he, rfl⟩ := List.mem_map.1 hx
    have := Rom.clen_le_longest (Rom.ofEntries entries) e.1
    rwa [Rom.clen, Rom.code_ofEntries_of_mem h he] at this

/-! ## Prefixes -/

theorem isPrefix_iff {a b : Code} : isPrefix a b = true ↔ a <+: b := by
  simp [isPrefix, List.isPrefixOf_iff_prefix]

theorem isPrefix_eq_false_iff {a b : Code} : isPrefix a b = false ↔ ¬ a <+: b := by
  rw [← isPrefix_iff]; simp

theorem isProperPrefix_iff {a b : Code} : isProperPrefix a b = true ↔ a <+: b ∧ a.length < b.length := by
  simp [isProperPrefix, isPrefix_iff]

/-- Entries a decoder accepts make a prefix-free ROM. -/
theorem PrefixFree.ofEntries {entries : List (Byte × Code)} (h : GoodEntries entries) :
    PrefixFree (Rom.ofEntries entries) := by
  have hn : (entries.map Prod.fst).Nodup := by
    rw [List.Nodup, List.pairwise_map]
    exact h.2.imp fun h => h.1
  intro a b hab ha hb
  have hma : a ∈ entries.map Prod.fst := by
    by_contra hm
    exact ha (Rom.code_ofEntries_of_not_mem hn hm)
  have hmb : b ∈ entries.map Prod.fst := by
    by_contra hm
    exact hb (Rom.code_ofEntries_of_not_mem hn hm)
  obtain ⟨e, he, rfl⟩ := List.mem_map.1 hma
  obtain ⟨f, hf, rfl⟩ := List.mem_map.1 hmb
  rw [Rom.code_ofEntries_of_mem hn he, Rom.code_ofEntries_of_mem hn hf]
  have hne : e ≠ f := fun h => hab (h ▸ rfl)
  have : Std.Symm fun e f : Byte × Code =>
      e.1 ≠ f.1 ∧ isPrefix e.2 f.2 = false ∧ isPrefix f.2 e.2 = false :=
    ⟨fun _ _ h => ⟨fun e => h.1 e.symm, h.2.2, h.2.1⟩⟩
  exact (h.2.forall he hf hne).2.1

theorem GoodEntries.keys_nodup {entries : List (Byte × Code)} (h : GoodEntries entries) :
    (entries.map Prod.fst).Nodup := by
  rw [List.Nodup, List.pairwise_map]
  exact h.2.imp fun h => h.1

/-- The entries of a prefix-free ROM are ones a decoder accepts. -/
theorem PrefixFree.goodEntries {r : Rom} (h : PrefixFree r) : GoodEntries (Rom.entries r) := by
  refine ⟨fun e he => (Rom.mem_entries.1 he).2, ?_⟩
  apply List.Pairwise.imp_of_mem _ (Rom.entries_pairwise r)
  intro e f he hf hlt
  rw [Rom.mem_entries] at he hf
  have hne : e.1 ≠ f.1 := fun h => by rw [h] at hlt; omega
  refine ⟨hne, ?_, ?_⟩
  · rw [he.1, hf.1]
    exact h _ _ hne (he.1 ▸ he.2) (hf.1 ▸ hf.2)
  · rw [he.1, hf.1]
    exact h _ _ hne.symm (hf.1 ▸ hf.2) (he.1 ▸ he.2)

/-! ## Two more readings of the tables -/

theorem entriesLength_filter (f : Byte → Code) (l : List Byte) :
    entriesLength ((l.map fun s => (s, f s)).filter fun e => !e.2.isEmpty) =
      (l.map fun s => if (f s).length = 0 then 0 else 2 + (f s).length).sum := by
  induction l with
  | nil => rfl
  | cons a l ih =>
    simp only [List.map_cons, List.filter_cons, List.sum_cons, ← ih]
    cases h : f a <;> simp [entriesLength]

/-- TABLE_LEN as the sum of 2 + CLEN[s] over the symbols that have a code (spec/10_state.md R41). -/
theorem Rom.tableLength_eq_sum (r : Rom) :
    Rom.tableLength r = (symbols.map fun s => if Rom.clen r s = 0 then 0 else 2 + Rom.clen r s).sum := by
  rw [Rom.tableLength, Rom.entries_eq, entriesLength_filter]
  rfl

/-- The present symbols, from any ascending list of exactly the symbols with a positive counter. -/
theorem Hist.present_eq_map {h : Hist} {l : List Byte} (hl : l.Pairwise fun a b => a.toNat < b.toNat)
    (hm : ∀ s, s ∈ l ↔ Hist.count h s ≠ 0) : Hist.present h = l.map fun s => (s, Hist.count h s) := by
  apply List.Perm.eq_of_pairwise (le := fun a b : Byte × Word => a.1.toNat < b.1.toNat)
  · intro a b _ _ h1 h2
    omega
  · exact Hist.present_pairwise h
  · rw [List.pairwise_map]; exact hl
  · rw [List.perm_ext_iff_of_nodup]
    · intro e
      rw [Hist.mem_present, List.mem_map]
      constructor
      · rintro ⟨h1, h2⟩
        exact ⟨e.1, (hm _).2 (h1 ▸ h2), by rw [← h1]⟩
      · rintro ⟨s, h1, rfl⟩
        exact ⟨rfl, (hm _).1 h1⟩
    · exact (Hist.present_pairwise h).imp fun {a b} h e => by rw [e] at h; omega
    · rw [List.Nodup, List.pairwise_map]
      exact hl.imp fun {a b} h e => by
        have : a = b := (Prod.mk.inj e).1
        rw [this] at h; omega

end Sys2Proof.Machine
end

