-- ==== Sys2Proof/Laws/Tree.lean ====
section
/-! SUPPORT. The tree builder: what a pop takes, what the merge loop keeps, and the codes a tree gives
(spec/42_tree_builder.md R191 to R197). -/

namespace Sys2Proof.Machine

/-! ## Popping -/

theorem popLeast_perm (a : Node) (rest : List Node) :
    ((popLeast a rest).1 :: (popLeast a rest).2).Perm (a :: rest) := by
  induction rest generalizing a with
  | nil => exact .refl _
  | cons b rest ih =>
    simp only [popLeast]
    split
    · exact .refl _
    · exact (List.Perm.swap _ _ _).trans ((ih b).cons a)

theorem popLeast_length (a : Node) (rest : List Node) : (popLeast a rest).2.length = rest.length := by
  have := (popLeast_perm a rest).length_eq
  simpa using this

theorem Node.before_iff {a b : Node} :
    Node.before a b = true ↔ a.count < b.count ∨ (a.count = b.count ∧ a.seq < b.seq) := by
  simp [Node.before]

/-! ## The merge loop -/

/-- The symbols at a node's leaves, child0's first. -/
def Node.syms : Node → List Byte
  | .leaf _ _ sym => [sym]
  | .internal _ _ child0 child1 => child0.syms ++ child1.syms
  | .solo _ _ child0 => child0.syms

/-- No one-child node in the tree. -/
def Node.full : Node → Prop
  | .leaf _ _ _ => True
  | .internal _ _ child0 child1 => child0.full ∧ child1.full
  | .solo _ _ _ => False

/-- The merge loop keeps the leaves. -/
theorem mergeLoop_syms (rounds next : Nat) (a : Node) (rest : List Node) (h : rest.length ≤ rounds) :
    (mergeLoop rounds next a rest).syms.Perm ((a :: rest).flatMap Node.syms) := by
  induction rounds generalizing next a rest with
  | zero =>
    have : rest = [] := List.length_eq_zero_iff.1 (by omega)
    subst this
    simp [mergeLoop]
  | succ rounds ih =>
    have hp := popLeast_perm a rest
    have hl := popLeast_length a rest
    unfold mergeLoop
    generalize popLeast a rest = q at hp hl ⊢
    obtain ⟨x, left⟩ := q
    cases left with
    | nil => exact (by simpa using hp.flatMap_right Node.syms)
    | cons b left =>
      dsimp only
      have hp2 := popLeast_perm b left
      have hl2 := popLeast_length b left
      generalize popLeast b left = q2 at hp2 hl2 ⊢
      obtain ⟨y, left'⟩ := q2
      simp only at hp hl hp2 hl2 ⊢
      refine (ih (next + 1) _ left' (by simp at hl; omega)).trans ?_
      have h1 : ((x :: y :: left').flatMap Node.syms).Perm ((a :: rest).flatMap Node.syms) :=
        ((hp2.cons x).trans hp).flatMap_right Node.syms
      simpa [Node.syms] using h1

/-- The merge loop makes internal nodes only. -/
theorem mergeLoop_full (rounds next : Nat) (a : Node) (rest : List Node) (h : ∀ n ∈ a :: rest, n.full) :
    (mergeLoop rounds next a rest).full := by
  induction rounds generalizing next a rest with
  | zero => exact h a (by simp)
  | succ rounds ih =>
    have hp := popLeast_perm a rest
    unfold mergeLoop
    generalize popLeast a rest = q at hp ⊢
    obtain ⟨x, left⟩ := q
    cases left with
    | nil => exact h x (hp.subset (by simp))
    | cons b left =>
      dsimp only
      have hp2 := popLeast_perm b left
      generalize popLeast b left = q2 at hp2 ⊢
      obtain ⟨y, left'⟩ := q2
      simp only at hp hp2 ⊢
      have hall : ∀ n ∈ x :: y :: left', n.full := fun n hn => h n (((hp2.cons x).trans hp).subset hn)
      apply ih
      intro n hn
      rcases List.mem_cons.1 hn with rfl | hn
      · exact ⟨hall x (by simp), hall y (by simp)⟩
      · exact hall n (by simp [hn])

/-- With two nodes or more and rounds enough, the merge loop's root is internal. -/
theorem mergeLoop_internal (rounds next : Nat) (a : Node) (rest : List Node) (h : rest.length ≤ rounds)
    (hr : rest ≠ []) : ∃ c s l r, mergeLoop rounds next a rest = .internal c s l r := by
  induction rounds generalizing next a rest with
  | zero => exact absurd (List.length_eq_zero_iff.1 (by omega)) hr
  | succ rounds ih =>
    have hl := popLeast_length a rest
    unfold mergeLoop
    generalize popLeast a rest = q at hl ⊢
    obtain ⟨x, left⟩ := q
    cases left with
    | nil => exact absurd (List.length_eq_zero_iff.1 hl.symm) hr
    | cons b left =>
      dsimp only
      have hl2 := popLeast_length b left
      generalize popLeast b left = q2 at hl2 ⊢
      obtain ⟨y, left'⟩ := q2
      simp only at hl hl2 ⊢
      by_cases hn : left' = []
      · subst hn
        cases rounds with
        | zero => exact ⟨_, _, _, _, rfl⟩
        | succ r => exact ⟨_, _, _, _, rfl⟩
      · exact ih (next + 1) _ left' (by simp at hl; omega) hn

/-! ## The codes of a tree -/

theorem codesOf_keys (n : Node) (p : Code) : (codesOf n p).map Prod.fst = n.syms := by
  induction n generalizing p with
  | leaf => rfl
  | internal _ _ l r hl hr => simp [codesOf, Node.syms, hl, hr]
  | solo _ _ l hl => simp [codesOf, Node.syms, hl]

/-- Every code extends the path it was derived under. -/
theorem codesOf_prefix (n : Node) (p : Code) : ∀ e ∈ codesOf n p, p <+: e.2 := by
  induction n generalizing p with
  | leaf => intro e he; simp [codesOf] at he; simp [he]
  | internal _ _ l r hl hr =>
    intro e he
    simp only [codesOf, List.mem_append] at he
    rcases he with he | he
    · exact (List.prefix_append _ _).trans (hl _ e he)
    · exact (List.prefix_append _ _).trans (hr _ e he)
  | solo _ _ l hl =>
    intro e he
    exact (List.prefix_append _ _).trans (hl _ e he)

theorem not_prefix_of_branch {p c d : Code} {x y : Bool} (hxy : x ≠ y) (hc : p ++ [x] <+: c)
    (hd : p ++ [y] <+: d) : ¬ c <+: d := by
  intro h
  have h1 : p ++ [x] <+: d := hc.trans h
  have h2 := List.prefix_of_prefix_length_le h1 hd (by simp)
  have h3 := h2.eq_of_length (by simp)
  simp at h3
  exact hxy h3

/-- Codes of distinct leaves are no prefixes of one another (spec/42_tree_builder.md R195). -/
theorem codesOf_prefixFree (n : Node) (p : Code) :
    (codesOf n p).Pairwise fun e f => isPrefix e.2 f.2 = false ∧ isPrefix f.2 e.2 = false := by
  induction n generalizing p with
  | leaf => simp [codesOf]
  | internal _ _ l r hl hr =>
    rw [codesOf, List.pairwise_append]
    refine ⟨hl _, hr _, ?_⟩
    intro e he f hf
    have h1 := codesOf_prefix l _ e he
    have h2 := codesOf_prefix r _ f hf
    rw [isPrefix_eq_false_iff, isPrefix_eq_false_iff]
    exact ⟨not_prefix_of_branch (by simp) h1 h2, not_prefix_of_branch (by simp) h2 h1⟩
  | solo _ _ l hl => exact hl _

/-- A leaf of a tree without one-child nodes lies at a depth below the number of leaves
(spec/42_tree_builder.md R197). -/
theorem codesOf_depth (n : Node) (h : n.full) (p : Code) :
    ∀ e ∈ codesOf n p, e.2.length + 1 ≤ p.length + n.syms.length := by
  induction n generalizing p with
  | leaf => intro e he; simp [codesOf] at he; simp [he, Node.syms]
  | internal _ _ l r hl hr =>
    have hpos : ∀ m : Node, 1 ≤ m.syms.length := by
      intro m
      induction m with
      | leaf => simp [Node.syms]
      | internal _ _ a b ha hb => simp [Node.syms]; omega
      | solo _ _ a ha => simpa [Node.syms] using ha
    intro e he
    simp only [codesOf, List.mem_append] at he
    simp only [Node.syms, List.length_append]
    have h1 := hpos l
    have h2 := hpos r
    rcases he with he | he
    · have := hl h.1 _ e he; simp at this; omega
    · have := hr h.2 _ e he; simp at this; omega
  | solo => exact h.elim

theorem Node.syms_pos (n : Node) : 1 ≤ n.syms.length := by
  induction n with
  | leaf => simp [Node.syms]
  | internal _ _ a b ha hb => simp [Node.syms]; omega
  | solo _ _ a ha => simpa [Node.syms] using ha

/-- The sum of the depths of n leaves is at most (n - 1)(n + 2)/2, the caterpillar's (spec/42_tree_builder.md
R197). -/
theorem codesOf_depth_sum (n : Node) (h : n.full) (p : Code) :
    2 * ((codesOf n p).map fun e => e.2.length).sum + 2 ≤
      2 * (p.length * n.syms.length) + n.syms.length * n.syms.length + n.syms.length := by
  induction n generalizing p with
  | leaf => simp [codesOf, Node.syms]
  | internal _ _ l r hl hr =>
    have h1 := hl h.1 (p ++ [false])
    have h2 := hr h.2 (p ++ [true])
    have a1 := l.syms_pos
    have b1 := r.syms_pos
    simp only [codesOf, Node.syms, List.map_append, List.sum_append, List.length_append,
      List.length_singleton] at h1 h2 ⊢
    generalize l.syms.length = a at *
    generalize r.syms.length = b at *
    generalize p.length = k at *
    obtain ⟨a, rfl⟩ := Nat.exists_eq_add_of_le a1
    obtain ⟨b, rfl⟩ := Nat.exists_eq_add_of_le b1
    nlinarith [Nat.zero_le (a * b)]
  | solo => exact h.elim

/-- Some code continues its path with 0 bits only: the leaf reached by child0 at every step
(spec/45_composite.md R263). -/
theorem codesOf_all_zero (n : Node) (p : Code) :
    ∃ s d, (s, p ++ List.replicate d false) ∈ codesOf n p := by
  induction n generalizing p with
  | leaf _ _ s => exact ⟨s, 0, by simp [codesOf]⟩
  | internal _ _ l r hl hr =>
    obtain ⟨s, d, h⟩ := hl (p ++ [false])
    refine ⟨s, d + 1, ?_⟩
    rw [codesOf, List.mem_append]
    left
    simpa [List.replicate_succ] using h
  | solo _ _ l hl =>
    obtain ⟨s, d, h⟩ := hl (p ++ [false])
    refine ⟨s, d + 1, ?_⟩
    rw [codesOf]
    simpa [List.replicate_succ] using h

/-! ## The seeds and the tree of a histogram -/

theorem seedLeaves_syms (next : Nat) (l : List (Byte × Word)) :
    (seedLeaves next l).flatMap Node.syms = l.map Prod.fst := by
  induction l generalizing next with
  | nil => rfl
  | cons e l ih =>
    obtain ⟨s, n⟩ := e
    simp [seedLeaves, Node.syms, ih]

theorem seedLeaves_full (next : Nat) (l : List (Byte × Word)) : ∀ n ∈ seedLeaves next l, n.full := by
  induction l generalizing next with
  | nil => simp [seedLeaves]
  | cons e l ih =>
    obtain ⟨s, c⟩ := e
    intro n hn
    simp only [seedLeaves, List.mem_cons] at hn
    rcases hn with rfl | hn
    · trivial
    · exact ih _ n hn

/-- What the codes of a built tree are like. -/
structure CodesGood (entries : List (Byte × Code)) (present : List Byte) : Prop where
  keys : (entries.map Prod.fst).Perm present
  good : GoodEntries entries
  short : ∀ e ∈ entries, e.2.length ≤ 255
  size : entriesLength entries ≤ 33407
  allZero : ∃ s d, (s, List.replicate d false) ∈ entries

theorem entriesLength_eq (entries : List (Byte × Code)) :
    entriesLength entries = 2 * entries.length + (entries.map fun e => e.2.length).sum := by
  induction entries with
  | nil => rfl
  | cons e l ih =>
    simp only [entriesLength, List.map_cons, List.sum_cons, List.length_cons] at ih ⊢
    omega

/-- Everything BUILD's tree gives for the present symbols (spec/42_tree_builder.md R190 to R197). -/
theorem buildTree_spec (l : List (Byte × Word)) (hl : l ≠ []) (hn : (l.map Prod.fst).Nodup)
    (hlen : l.length ≤ 256) :
    ∃ root, buildTree (seedLeaves 0 l) = some root ∧ CodesGood (codesOf root []) (l.map Prod.fst) := by
  match l, hl with
  | [(s, n)], _ =>
    refine ⟨_, rfl, ?_⟩
    constructor
    · simp [codesOf]
    · exact ⟨by simp [codesOf], by simp [codesOf]⟩
    · simp [codesOf]
    · simp [codesOf, entriesLength]
    · exact ⟨s, 1, by simp [codesOf]⟩
  | (s, n) :: (s', n') :: rest, _ =>
    set l : List (Byte × Word) := (s, n) :: (s', n') :: rest with hdef
    have hb : ∃ a b more, seedLeaves 0 l = a :: b :: more := ⟨_, _, _, rfl⟩
    obtain ⟨a, b, more, hs⟩ := hb
    have hroot : buildTree (seedLeaves 0 l) = some (mergeLoop (more.length + 1) (more.length + 2) a (b :: more)) := by
      rw [hs]; rfl
    refine ⟨_, hroot, ?_⟩
    have hfull : (mergeLoop (more.length + 1) (more.length + 2) a (b :: more)).full := by
      apply mergeLoop_full
      rw [← hs]
      exact seedLeaves_full 0 l
    have hsyms := mergeLoop_syms (more.length + 1) (more.length + 2) a (b :: more) (by simp)
    rw [← hs, seedLeaves_syms] at hsyms
    obtain ⟨c, q, x, y, hint⟩ :=
      mergeLoop_internal (more.length + 1) (more.length + 2) a (b :: more) (by simp) (by simp)
    generalize mergeLoop (more.length + 1) (more.length + 2) a (b :: more) = root at *
    have hlen' : root.syms.length ≤ 256 := by rw [hsyms.length_eq, List.length_map]; exact hlen
    constructor
    · rw [codesOf_keys]; exact hsyms
    · constructor
      · intro e he hnil
        rw [hint, codesOf, List.mem_append] at he
        rcases he with he | he
        · have := (codesOf_prefix _ _ e he).length_le
          simp [hnil] at this
        · have := (codesOf_prefix _ _ e he).length_le
          simp [hnil] at this
      · have hk : (codesOf root []).Pairwise fun e f => e.1 ≠ f.1 := by
          have : ((codesOf root []).map Prod.fst).Nodup := by
            rw [codesOf_keys]; exact hsyms.nodup_iff.2 hn
          rwa [List.Nodup, List.pairwise_map] at this
        exact (List.Pairwise.and hk (codesOf_prefixFree root []))
    · intro e he
      have := codesOf_depth root hfull [] e he
      simp at this; omega
    · rw [entriesLength_eq]
      have h1 := codesOf_depth_sum root hfull []
      have h2 : (codesOf root []).length = root.syms.length := by
        rw [← codesOf_keys root [], List.length_map]
      rw [h2]
      simp only [List.length_nil, Nat.zero_mul, Nat.mul_zero, Nat.zero_add] at h1
      have h3 : root.syms.length * root.syms.length ≤ 256 * 256 := Nat.mul_le_mul hlen' hlen'
      omega
    · obtain ⟨z, d, h⟩ := codesOf_all_zero root []
      exact ⟨z, d, by simpa using h⟩

theorem Hist.present_keys_nodup (h : Hist) : ((Hist.present h).map Prod.fst).Nodup := by
  rw [List.Nodup, List.pairwise_map]
  exact (Hist.present_pairwise h).imp fun h he => by rw [he] at h; omega

theorem Hist.present_length_le (h : Hist) : (Hist.present h).length ≤ 256 := by
  rw [Hist.present_length, ← symbols_length]
  exact List.countP_le_length

/-- The code table of a histogram with a positive counter: BUILD's tree exists and its codes are good. -/
theorem codeTable_spec (h : Hist) (hp : Hist.present h ≠ []) :
    ∃ root, buildTree (seedLeaves 0 (Hist.present h)) = some root ∧
      codeTable h = Rom.ofEntries (codesOf root []) ∧
      CodesGood (codesOf root []) ((Hist.present h).map Prod.fst) := by
  obtain ⟨root, h1, h2⟩ :=
    buildTree_spec (Hist.present h) hp (Hist.present_keys_nodup h) (Hist.present_length_le h)
  exact ⟨root, h1, by simp [codeTable, h1], h2⟩

/-- CodeTooLong cannot fire (spec/42_tree_builder.md R197). -/
theorem firstTooLong_none {r : Rom} (h : ∀ s, Rom.clen r s ≤ 255) : firstTooLong r = none := by
  rw [firstTooLong, List.find?_eq_none]
  intro s _
  have := h s
  simp; omega

theorem CodesGood.clen_le {entries : List (Byte × Code)} {l : List Byte} (h : CodesGood entries l) (s : Byte) :
    Rom.clen (Rom.ofEntries entries) s ≤ 255 := by
  by_cases hs : s ∈ entries.map Prod.fst
  · obtain ⟨e, he, rfl⟩ := List.mem_map.1 hs
    rw [Rom.clen, Rom.code_ofEntries_of_mem h.good.keys_nodup he]
    exact h.short e he
  · rw [Rom.clen, Rom.code_ofEntries_of_not_mem h.good.keys_nodup hs]
    simp

/-- A symbol has a code in a histogram's table exactly when its counter is positive (spec/42_tree_builder.md
R196). -/
theorem codeTable_code_ne_nil (h : Hist) (s : Byte) : Rom.code (codeTable h) s ≠ [] ↔ Hist.count h s ≠ 0 := by
  by_cases hp : Hist.present h = []
  · have h0 : Hist.count h s = 0 := by
      by_contra hc
      have : (s, Hist.count h s) ∈ Hist.present h := Hist.mem_present.2 ⟨rfl, hc⟩
      rw [hp] at this
      simp at this
    simp [codeTable, hp, seedLeaves, buildTree, h0]
  · obtain ⟨root, _, ht, hg⟩ := codeTable_spec h hp
    rw [ht]
    have hmem : s ∈ (codesOf root []).map Prod.fst ↔ Hist.count h s ≠ 0 := by
      rw [hg.keys.mem_iff, List.mem_map]
      constructor
      · rintro ⟨e, he, rfl⟩
        obtain ⟨h1, h2⟩ := Hist.mem_present.1 he
        exact h1 ▸ h2
      · intro hc
        exact ⟨(s, Hist.count h s), Hist.mem_present.2 ⟨rfl, hc⟩, rfl⟩
    rw [← hmem]
    constructor
    · intro hc
      by_contra hm
      exact hc (Rom.code_ofEntries_of_not_mem hg.good.keys_nodup hm)
    · intro hm
      obtain ⟨e, he, rfl⟩ := List.mem_map.1 hm
      rw [Rom.code_ofEntries_of_mem hg.good.keys_nodup he]
      exact hg.good.1 e he

end Sys2Proof.Machine
end

