-- ==== Sys2Proof/Laws/Run.lean ====
section
/-! SUPPORT. What the body of a command can do, said once: how it ends, which bytes it reads, what it keeps. -/

namespace Sys2Proof.Machine

/-! ## Endings -/

/-- Everything the end of a command can answer (spec/60_exceptions.md R274, R275). -/
theorem Run.finish_cases (i : Instr) (r : Run) :
    (∃ s, r = .done s ∧ Run.finish i r = .next s.complete) ∨
    (∃ e s, r = .raised e s ∧ Run.finish i r = .next (s.raise (writesOutBuf i) e)) ∨
    (∃ n, r = .unwritten n ∧ Run.finish i r = .fault (.unwrittenInput n)) := by
  cases r with
  | done s => exact .inl ⟨s, rfl, rfl⟩
  | raised e s => exact .inr (.inl ⟨e, s, rfl, rfl⟩)
  | unwritten n => exact .inr (.inr ⟨n, rfl, rfl⟩)

@[simp] theorem Run.finish_done (i : Instr) (s : State) : Run.finish i (.done s) = .next s.complete := rfl

@[simp] theorem Run.finish_raised (i : Instr) (e : CmdError) (s : State) :
    Run.finish i (.raised e s) = .next (s.raise (writesOutBuf i) e) := rfl

@[simp] theorem Run.finish_unwritten (i : Instr) (n : Nat) :
    Run.finish i (.unwritten n) = .fault (.unwrittenInput n) := rfl

@[simp] theorem Run.andThen_done (s : State) (f : State → Run) : (Run.done s).andThen f = f s := rfl

@[simp] theorem Run.andThen_raised (e : CmdError) (s : State) (f : State → Run) :
    (Run.raised e s).andThen f = .raised e s := rfl

@[simp] theorem Run.andThen_unwritten (n : Nat) (f : State → Run) :
    (Run.unwritten n).andThen f = .unwritten n := rfl

/-- CHECK_IN_LEN passes exactly when IN_LEN is at most IN_SIZE (spec/40_command_control.md R164). -/
theorem State.checkInLen_none {s : State} : s.checkInLen = none ↔ s.inLen.toNat ≤ s.params.inSize := by
  unfold State.checkInLen
  split
  · simp; omega
  · simp; omega

theorem State.checkInLen_of_le {s : State} (h : s.inLen.toNat ≤ s.params.inSize) : s.checkInLen = none :=
  State.checkInLen_none.2 h

theorem State.checkInLen_of_lt {s : State} (h : s.params.inSize < s.inLen.toNat) :
    s.checkInLen = some (.badLength s.inLen.toNat) := by
  unfold State.checkInLen
  rw [if_pos h]

theorem State.checkInLen_cases (s : State) :
    (s.checkInLen = none ∧ s.inLen.toNat ≤ s.params.inSize) ∨
    (s.checkInLen = some (.badLength s.inLen.toNat) ∧ s.params.inSize < s.inLen.toNat) := by
  by_cases h : s.inLen.toNat ≤ s.params.inSize
  · exact .inl ⟨State.checkInLen_of_le h, h⟩
  · exact .inr ⟨State.checkInLen_of_lt (by omega), by omega⟩

/-! ## What every body keeps -/

/-- The state no command body writes: everything but HIST, the ROM, OUT_BUF and the result registers. -/
structure BodyKeeps (s t : State) : Prop where
  ctrl : t.ctrl = s.ctrl
  status : t.status = s.status
  errCode : t.errCode = s.errCode
  errInfo : t.errInfo = s.errInfo
  inLen : t.inLen = s.inLen
  inBuf : t.inBuf = s.inBuf
  seq : t.seq = s.seq
  params : t.params = s.params
  busResp : t.busResp = s.busResp
  draws : t.draws = s.draws
  events : t.events = s.events

theorem BodyKeeps.refl (s : State) : BodyKeeps s s := ⟨rfl, rfl, rfl, rfl, rfl, rfl, rfl, rfl, rfl, rfl, rfl⟩

theorem BodyKeeps.trans {s t u : State} (h : BodyKeeps s t) (g : BodyKeeps t u) : BodyKeeps s u :=
  ⟨g.ctrl.trans h.ctrl, g.status.trans h.status, g.errCode.trans h.errCode, g.errInfo.trans h.errInfo,
    g.inLen.trans h.inLen, g.inBuf.trans h.inBuf, g.seq.trans h.seq, g.params.trans h.params,
    g.busResp.trans h.busResp, g.draws.trans h.draws, g.events.trans h.events⟩

/-- What is true of a body's run from `s`: it keeps that state wherever it ends in a state, and it stops only at
an unwritten byte below IN_LEN (spec/70_reset_and_hazards.md R304). -/
def Run.Lawful (s : State) : Run → Prop
  | .done t => BodyKeeps s t
  | .raised _ t => BodyKeeps s t
  | .unwritten n => n < s.inLen.toNat ∧ Memory.read s.inBuf n = none

theorem Run.Lawful.andThen {s : State} {r : Run} {f : State → Run} (h : r.Lawful s)
    (hf : ∀ t, BodyKeeps s t → (f t).Lawful t) : (r.andThen f).Lawful s := by
  cases r with
  | done t =>
    have hk : BodyKeeps s t := h
    have := hf t hk
    simp only [Run.andThen_done]
    cases hr : f t with
    | done u => rw [hr] at this; exact hk.trans this
    | raised e u => rw [hr] at this; exact hk.trans this
    | unwritten n =>
      rw [hr] at this
      obtain ⟨h1, h2⟩ := this
      exact ⟨hk.inLen ▸ h1, hk.inBuf ▸ h2⟩
  | raised e t => exact h
  | unwritten n => exact h

theorem clearBody_lawful (s : State) : (clearBody s).Lawful s :=
  ⟨rfl, rfl, rfl, rfl, rfl, rfl, rfl, rfl, rfl, rfl, rfl⟩

theorem histBody_lawful (s : State) : (histBody s).Lawful s := by
  unfold histBody
  split
  · exact BodyKeeps.refl s
  · split
    · exact BodyKeeps.refl s
    · rcases Memory.fetchRange_cases s.inBuf s.inLen.toNat 0 with ⟨msg, _, _, he⟩ | ⟨i, _, h2, h3, he⟩
      · rw [he]
        exact ⟨rfl, rfl, rfl, rfl, rfl, rfl, rfl, rfl, rfl, rfl, rfl⟩
      · rw [he]
        exact ⟨by omega, h3⟩

theorem buildBody_lawful (s : State) : (buildBody s).Lawful s := by
  unfold buildBody
  split
  · exact BodyKeeps.refl s
  · split
    · exact BodyKeeps.refl s
    · exact ⟨rfl, rfl, rfl, rfl, rfl, rfl, rfl, rfl, rfl, rfl, rfl⟩

/-- Everything PACK's check of the message can answer. -/
theorem Memory.fetchMapped_cases (r : Rom) (m : Memory) (n p : Nat) :
    (∃ msg, msg.length = n ∧ HoldsAt m p msg ∧ Mapped r msg ∧ Memory.fetchMapped r m n p = .ok msg) ∨
    (∃ msg b, msg.length < n ∧ HoldsAt m p (msg ++ [b]) ∧ Mapped r msg ∧ Rom.code r b = [] ∧
      Memory.fetchMapped r m n p = .error (.raised (.unmappedSymbol (p + msg.length)))) ∨
    (∃ i, p ≤ i ∧ i < p + n ∧ Memory.read m i = none ∧
      Memory.fetchMapped r m n p = .error (.unwritten i)) := by
  induction n generalizing p with
  | zero => exact .inl ⟨[], rfl, by simp, by simp [Mapped], rfl⟩
  | succ n ih =>
    rcases Memory.fetch_cases m p with ⟨b, hb, hf⟩ | ⟨hn, hf⟩
    · by_cases hc : Rom.clen r b = 0
      · right; left
        refine ⟨[], b, by simp, ?_, by simp [Mapped], ?_, ?_⟩
        · simpa [HoldsAt.cons] using hb
        · simpa [Rom.clen] using hc
        · simp [Memory.fetchMapped, hf, hc]
      · have hb' : Rom.code r b ≠ [] := fun h => hc (by simp [Rom.clen, h])
        rcases ih (p + 1) with ⟨bs, hl, hh, hm, he⟩ | ⟨msg, c, hl, hh, hm, hcn, he⟩ | ⟨i, h1, h2, h3, he⟩
        · left
          refine ⟨b :: bs, by simp [hl], HoldsAt.cons.2 ⟨hb, hh⟩, ?_, by simp [Memory.fetchMapped, hf, hc, he]⟩
          intro x hx
          rcases List.mem_cons.1 hx with rfl | hx
          · exact hb'
          · exact hm x hx
        · right; left
          refine ⟨b :: msg, c, by simp; omega, HoldsAt.cons.2 ⟨hb, hh⟩, ?_, hcn, ?_⟩
          · intro x hx
            rcases List.mem_cons.1 hx with rfl | hx
            · exact hb'
            · exact hm x hx
          · have : p + (msg.length + 1) = p + 1 + msg.length := by omega
            simp only [Memory.fetchMapped, hf, hc, he, List.length_cons, if_false, this]
        · right; right
          exact ⟨i, by omega, by omega, h3, by simp [Memory.fetchMapped, hf, hc, he]⟩
    · right; right
      exact ⟨p, le_refl _, by omega, hn, by simp [Memory.fetchMapped, hf]⟩

/-- PACK's check of the message stops at its first unwritten byte, when every byte before it has a code. -/
theorem Memory.fetchMapped_of_unwritten {r : Rom} {m : Memory} {n p i : Nat} (hp : p ≤ i) (hi : i < p + n)
    (h : Memory.read m i = none)
    (hw : ∀ j, p ≤ j → j < i → ∃ b, Memory.read m j = some b ∧ Rom.code r b ≠ []) :
    Memory.fetchMapped r m n p = .error (.unwritten i) := by
  induction n generalizing p with
  | zero => omega
  | succ n ih =>
    by_cases hpi : p = i
    · subst hpi
      simp [Memory.fetchMapped, Memory.fetch_of_unwritten h]
    · obtain ⟨b, hb, hc⟩ := hw p (Nat.le_refl _) (by omega)
      have hc' : Rom.clen r b ≠ 0 := fun h0 => hc (List.length_eq_zero_iff.1 h0)
      simp [Memory.fetchMapped, Memory.fetch_of_read hb, hc',
        ih (p := p + 1) (by omega) (by omega) fun j hj => hw j (by omega)]

/-- A message whose bytes all have codes passes PACK's check. -/
theorem Memory.fetchMapped_of_holds {r : Rom} {m : Memory} {p : Nat} {msg : List Byte} (h : HoldsAt m p msg)
    (hm : Mapped r msg) : Memory.fetchMapped r m msg.length p = .ok msg := by
  induction msg generalizing p with
  | nil => rfl
  | cons b bs ih =>
    obtain ⟨h1, h2⟩ := HoldsAt.cons.1 h
    have hb : Rom.clen r b ≠ 0 := by
      have := hm b (by simp)
      simpa [Rom.clen] using this
    simp [Memory.fetchMapped, Memory.fetch_of_read h1, hb, ih h2 fun x hx => hm x (by simp [hx])]

theorem packBody_lawful (s : State) : (packBody s).Lawful s := by
  unfold packBody
  split
  · exact BodyKeeps.refl s
  · split
    · exact BodyKeeps.refl s
    · rcases Memory.fetchMapped_cases s.rom s.inBuf s.inLen.toNat 0 with
        ⟨msg, _, _, _, he⟩ | ⟨msg, b, _, _, _, _, he⟩ | ⟨i, _, h2, h3, he⟩
      · rw [he]
        dsimp only
        split
        · exact BodyKeeps.refl s
        · exact ⟨rfl, rfl, rfl, rfl, rfl, rfl, rfl, rfl, rfl, rfl, rfl⟩
      · rw [he]
        exact BodyKeeps.refl s
      · rw [he]
        exact ⟨by omega, h3⟩

/-! ## Which bytes the parser and the walker read -/

/-- A stop, if it is at an unwritten byte, is at one below `n`. -/
def Stop.Below (m : Memory) (n : Nat) : Stop → Prop
  | .raised _ => True
  | .unwritten i => i < n ∧ Memory.read m i = none

theorem Memory.fetch_below {m : Memory} {i n : Nat} {stop : Stop} (h : Memory.fetch m i = .error stop) (hi : i < n) :
    stop.Below m n := by
  rcases Memory.fetch_cases m i with ⟨b, _, he⟩ | ⟨hn, he⟩
  · rw [he] at h; cases h
  · rw [he] at h; cases h; exact ⟨hi, hn⟩

theorem parseCode_below {m : Memory} {n k q : Nat} {stop : Stop} (h : parseCode m k q = .error stop)
    (hq : q + k ≤ n) : stop.Below m n := by
  induction k generalizing q with
  | zero => cases h
  | succ k ih =>
    unfold parseCode at h
    split at h
    · cases h; rename_i he; exact Memory.fetch_below he (by omega)
    · split at h
      · cases h; trivial
      · split at h
        · cases h; rename_i he; exact ih he (by omega)
        · cases h

theorem parseCode_length {m : Memory} {k q : Nat} {c : Code} (h : parseCode m k q = .ok c) : c.length = k := by
  induction k generalizing q c with
  | zero => cases h; rfl
  | succ k ih =>
    unfold parseCode at h
    split at h
    · cases h
    · split at h
      · cases h
      · split at h
        · cases h
        · cases h; rename_i he; simp [ih he]

theorem parseEntry_below {m : Memory} {tableEnd p n : Nat} {seen : List (Byte × Code)} {stop : Stop}
    (h : parseEntry m tableEnd seen p = .error stop) (hn : tableEnd ≤ n) : stop.Below m n := by
  unfold parseEntry at h
  split at h
  · cases h; trivial
  · split at h
    · cases h; rename_i he; exact Memory.fetch_below he (by omega)
    · split at h
      · cases h; rename_i he; exact Memory.fetch_below he (by omega)
      · split at h
        · cases h; trivial
        · split at h
          · cases h; trivial
          · split at h
            · cases h; rename_i he; exact parseCode_below he (by omega)
            · split at h
              · cases h; trivial
              · split at h
                · cases h; trivial
                · cases h

theorem parseEntries_below {m : Memory} {tableEnd rounds p n : Nat} {seen : List (Byte × Code)} {stop : Stop}
    (h : parseEntries m tableEnd rounds seen p = .error stop) (hn : tableEnd ≤ n) : stop.Below m n := by
  induction rounds generalizing seen p with
  | zero => cases h
  | succ rounds ih =>
    unfold parseEntries at h
    split at h
    · split at h
      · cases h; rename_i he; exact parseEntry_below he hn
      · exact ih h
    · cases h

/-- What an accepted entry is: of nonempty code, within the table, new and no prefix of or by an earlier one. -/
theorem parseEntry_ok {m : Memory} {tableEnd p : Nat} {seen : List (Byte × Code)} {e : Byte × Code}
    (h : parseEntry m tableEnd seen p = .ok e) :
    e.2 ≠ [] ∧ e.2.length ≤ 255 ∧ p + 2 + e.2.length ≤ tableEnd ∧
      ∀ f ∈ seen, f.1 ≠ e.1 ∧ isPrefix f.2 e.2 = false ∧ isPrefix e.2 f.2 = false := by
  unfold parseEntry at h
  split at h
  · cases h
  · split at h
    · cases h
    · rename_i sym _
      split at h
      · cases h
      · rename_i len _
        split at h
        · cases h
        · rename_i hlen
          split at h
          · cases h
          · rename_i hend
            split at h
            · cases h
            · rename_i code hcode
              split at h
              · cases h
              · rename_i hdup
                split at h
                · cases h
                · rename_i hpre
                  cases h
                  have hl := parseCode_length hcode
                  have hpos : len.toNat ≠ 0 := fun h0 => hlen (BitVec.eq_of_toNat_eq h0)
                  have hlt := len.isLt
                  refine ⟨?_, by simp only [hl]; omega, by simp only [hl]; omega, ?_⟩
                  · intro h0
                    have h0' : code = [] := h0
                    rw [h0', List.length_nil] at hl
                    omega
                  · intro f hf
                    simp only [List.any_eq_true, not_exists, not_and, beq_iff_eq] at hdup
                    simp only [List.any_eq_true, not_exists, not_and, Bool.or_eq_true, not_or,
                      Bool.not_eq_true] at hpre
                    exact ⟨hdup f hf, (hpre f hf).1, (hpre f hf).2⟩

theorem GoodEntries.append_one {seen : List (Byte × Code)} {e : Byte × Code} (h : GoodEntries seen)
    (hc : e.2 ≠ []) (hs : ∀ f ∈ seen, f.1 ≠ e.1 ∧ isPrefix f.2 e.2 = false ∧ isPrefix e.2 f.2 = false) :
    GoodEntries (seen ++ [e]) := by
  constructor
  · intro f hf
    rcases List.mem_append.1 hf with hf | hf
    · exact h.1 f hf
    · simp at hf; subst hf; exact hc
  · rw [List.pairwise_append]
    refine ⟨h.2, by simp, ?_⟩
    intro f hf g hg
    simp at hg; subst hg
    exact hs f hf

/-- What the whole table gives when it is accepted: good entries that fill it exactly (spec/44_decoder.md
R231). -/
theorem parseEntries_ok {m : Memory} {tableEnd rounds p : Nat} {seen : List (Byte × Code)}
    {out : List (Byte × Code) × Nat} (h : parseEntries m tableEnd rounds seen p = .ok out)
    (hg : GoodEntries seen) (hp : p = 1 + entriesLength seen) (hle : p ≤ tableEnd) (hr : tableEnd ≤ p + rounds) :
    GoodEntries out.1 ∧ out.2 = tableEnd ∧ tableEnd = 1 + entriesLength out.1 := by
  induction rounds generalizing seen p with
  | zero =>
    cases h
    exact ⟨hg, by simp; omega, by simp; omega⟩
  | succ rounds ih =>
    unfold parseEntries at h
    split at h
    · split at h
      · cases h
      · rename_i e he
        obtain ⟨h1, _, h2, h3⟩ := parseEntry_ok he
        refine ih h (hg.append_one h1 h3) ?_ h2 (by omega)
        simp only [entriesLength, List.map_append, List.sum_append, List.map_cons, List.map_nil, List.sum_cons,
          List.sum_nil] at hp ⊢
        omega
    · cases h
      exact ⟨hg, by simp; omega, by simp; omega⟩

theorem fetchBE32_below {m : Memory} {p n : Nat} {stop : Stop} (h : Memory.fetchBE32 m p = .error stop)
    (hp : p + 4 ≤ n) : stop.Below m n := by
  unfold Memory.fetchBE32 at h
  split at h
  · cases h; rename_i he; exact Memory.fetch_below he (by omega)
  · split at h
    · cases h; rename_i he; exact Memory.fetch_below he (by omega)
    · split at h
      · cases h; rename_i he; exact Memory.fetch_below he (by omega)
      · split at h
        · cases h; rename_i he; exact Memory.fetch_below he (by omega)
        · cases h

theorem parseBitCount_below {counted : Bool} {m : Memory} {inLen p : Nat} {stop : Stop}
    (h : parseBitCount counted m inLen p = .error stop) : stop.Below m inLen := by
  unfold parseBitCount at h
  split at h
  · split at h
    · cases h; trivial
    · split at h
      · cases h; rename_i he; exact fetchBE32_below he (by omega)
      · cases h
  · cases h

theorem parse_below {counted : Bool} {m : Memory} {inLen : Nat} {stop : Stop}
    (h : parse counted m inLen = .error stop) : stop.Below m inLen := by
  unfold parse at h
  split at h
  · cases h; trivial
  · split at h
    · cases h; rename_i he; exact Memory.fetch_below he (by omega)
    · split at h
      · cases h; trivial
      · split at h
        · cases h; rename_i he; exact parseEntries_below he (by omega)
        · split at h
          · cases h; rename_i he; exact parseBitCount_below he
          · cases h

/-- What PARSE returns when it succeeds (spec/44_decoder.md R231): good entries filling a table of T bytes, and
the offset of the body. -/
theorem parse_ok {counted : Bool} {m : Memory} {inLen : Nat} {r : ParsedTable} (h : parse counted m inLen = .ok r) :
    GoodEntries r.entries ∧ r.tableLen = entriesLength r.entries ∧ r.tableLen ≤ 255 ∧
      r.bodyOff = 1 + r.tableLen + (if counted then 4 else 0) ∧ r.bodyOff ≤ inLen := by
  unfold parse at h
  split at h
  · cases h
  · split at h
    · cases h
    · rename_i t _
      split at h
      · cases h
      · split at h
        · cases h
        · rename_i entries p he
          have hg : GoodEntries ([] : List (Byte × Code)) := ⟨by simp, by simp⟩
          obtain ⟨h1, h2, h3⟩ := parseEntries_ok he hg rfl (by omega) (by omega)
          simp only at h1 h2 h3
          split at h
          · cases h
          · rename_i off n hb
            cases h
            have ht := t.isLt
            refine ⟨h1, by simp; omega, by simp; omega, ?_⟩
            unfold parseBitCount at hb
            split at hb
            · rename_i hc
              split at hb
              · cases hb
              · split at hb
                · cases hb
                · cases hb
                  simp [hc]
                  omega
            · rename_i hc
              cases hb
              simp [hc]
              omega

theorem loadtabBody_lawful (s : State) : (loadtabBody s).Lawful s := by
  unfold loadtabBody
  split
  · exact BodyKeeps.refl s
  · split
    · rename_i stop he
      have := parse_below he
      cases stop with
      | raised e => exact BodyKeeps.refl s
      | unwritten i => exact this
    · exact ⟨rfl, rfl, rfl, rfl, rfl, rfl, rfl, rfl, rfl, rfl, rfl⟩

theorem walkCheck_below {s : State} {stop : Stop} (h : walkCheck s = .error stop) :
    stop.Below s.inBuf s.inLen.toNat := by
  unfold walkCheck at h
  split at h
  · cases h; trivial
  · split at h
    · split at h
      · cases h; trivial
      · split at h
        · rename_i hr
          split at h
          · cases h
            rename_i he
            refine Memory.fetch_below he ?_
            have : ceilDiv8 s.bitCnt.toNat ≥ 1 := by
              unfold ceilDiv8
              omega
            omega
          · split at h
            · cases h; trivial
            · cases h
        · cases h
    · cases h

/-- The number of bits a walk covers lies in the body's bytes (spec/44_decoder.md R235). -/
theorem walkCheck_ok {s : State} {nbits : Nat} (h : walkCheck s = .ok nbits) :
    s.bodyOff.toNat ≤ s.inLen.toNat ∧ nbits ≤ 8 * (s.inLen.toNat - s.bodyOff.toNat) := by
  unfold walkCheck at h
  split at h
  · cases h
  · split at h
    · split at h
      · cases h
      · rename_i hb hn
        have hc : s.bitCnt.toNat ≤ 8 * (s.inLen.toNat - s.bodyOff.toNat) := by
          have : s.inLen.toNat - s.bodyOff.toNat = ceilDiv8 s.bitCnt.toNat := by
            by_contra hne; exact hn hne
          rw [this, ceilDiv8]
          omega
        split at h
        · split at h
          · cases h
          · split at h
            · cases h
            · cases h; exact ⟨by omega, hc⟩
        · cases h; exact ⟨by omega, hc⟩
    · cases h; exact ⟨by omega, le_refl _⟩

theorem stepBit_written {counted : Bool} {entries : List (Byte × Code)} {outSize pos i : Nat} {b : Bool} {w : Walker} :
    stepBit counted entries outSize pos b w ≠ .unwritten i := by
  unfold stepBit
  split
  · simp
  · split
    · split <;> simp
    · split
      · simp
      · split <;> simp

theorem walkBits_below {counted : Bool} {entries : List (Byte × Code)} {outSize : Nat} {m : Memory}
    {base n t len i : Nat} {w : Walker} (h : walkBits counted entries outSize m base n t w = .unwritten i)
    (hn : t + n ≤ 8 * (len - base)) : i < len ∧ Memory.read m i = none := by
  induction n generalizing t w with
  | zero => cases h
  | succ n ih =>
    unfold walkBits at h
    split at h
    · rename_i j he
      cases h
      unfold Memory.fetchBit at he
      split at he
      · cases he
        rename_i hf
        exact Memory.fetch_below hf (by omega)
      · cases he
    · cases h
    · split at h
      · exact ih h (by omega)
      · cases h
      · rename_i hs
        exact absurd hs stepBit_written

theorem walkBody_lawful (s : State) : (walkBody s).Lawful s := by
  unfold walkBody
  split
  · exact BodyKeeps.refl s
  · split
    · rename_i stop he
      have := walkCheck_below he
      cases stop with
      | raised e => exact BodyKeeps.refl s
      | unwritten i => exact this
    · rename_i nbits he
      obtain ⟨h1, h2⟩ := walkCheck_ok he
      split
      · rename_i i hw
        exact walkBits_below hw (by omega)
      · exact ⟨rfl, rfl, rfl, rfl, rfl, rfl, rfl, rfl, rfl, rfl, rfl⟩
      · unfold walkEnd
        split
        · exact ⟨rfl, rfl, rfl, rfl, rfl, rfl, rfl, rfl, rfl, rfl, rfl⟩
        · exact ⟨rfl, rfl, rfl, rfl, rfl, rfl, rfl, rfl, rfl, rfl, rfl⟩

theorem buildIfMessage_lawful (s : State) : (buildIfMessage s).Lawful s := by
  unfold buildIfMessage
  split
  · exact buildBody_lawful s
  · exact BodyKeeps.refl s

theorem encodeBody_lawful (s : State) : (encodeBody s).Lawful s := by
  unfold encodeBody
  split
  · exact BodyKeeps.refl s
  · exact (((clearBody_lawful s).andThen fun t _ => histBody_lawful t).andThen
      fun t _ => buildIfMessage_lawful t).andThen fun t _ => packBody_lawful t

theorem decodeBody_lawful (s : State) : (decodeBody s).Lawful s := by
  unfold decodeBody
  split
  · exact BodyKeeps.refl s
  · exact (loadtabBody_lawful s).andThen fun t _ => walkBody_lawful t

/-- Every command is the end of a lawful run of its body. -/
theorem exec_eq_finish (i : Instr) (s : State) : ∃ r, exec i s = Run.finish i r ∧ r.Lawful s := by
  cases i with
  | nop => exact ⟨.done s, rfl, BodyKeeps.refl s⟩
  | clear => exact ⟨_, rfl, clearBody_lawful s⟩
  | hist => exact ⟨_, rfl, histBody_lawful s⟩
  | build => exact ⟨_, rfl, buildBody_lawful s⟩
  | pack => exact ⟨_, rfl, packBody_lawful s⟩
  | loadtab => exact ⟨_, rfl, loadtabBody_lawful s⟩
  | walk => exact ⟨_, rfl, walkBody_lawful s⟩
  | encode => exact ⟨_, rfl, encodeBody_lawful s⟩
  | decode => exact ⟨_, rfl, decodeBody_lawful s⟩

end Sys2Proof.Machine
end

