-- ==== Sys2Proof/Laws/Packer.lean ====
section
/-! SUPPORT. The bit packer's bytes read MSB-first give the bits back, and the table serializer's bytes parse back
to the entries (spec/43_bit_packer.md R211 to R213, spec/44_decoder.md R231). -/

namespace Sys2Proof.Machine

/-! ## PACKBITS -/

/-- Bit `t` of what is still to be written: the register's K bits, the bits to come, then zeros. -/
def pendingBit (sr : Byte) (k : Nat) (bits : List Bool) (t : Nat) : Bool :=
  if t < k then sr.getLsbD (k - 1 - t) else bits.getD (t - k) false

/-- PACKBITS and FLUSH write ceil(n/8) bytes for n bits (spec/43_bit_packer.md R213). -/
theorem packBits_length (sr : Byte) (k : Nat) (bits : List Bool) (hk : k < 8) :
    (packBits sr k bits).length = ceilDiv8 (k + bits.length) := by
  induction bits generalizing sr k with
  | nil =>
    unfold packBits ceilDiv8
    split
    · simp; omega
    · simp; omega
  | cons b bits ih =>
    unfold packBits
    split
    · rw [List.length_cons, ih 0 0 (by omega)]
      simp [ceilDiv8]; omega
    · rw [ih _ (k + 1) (by omega)]
      simp [ceilDiv8]; omega

theorem shiftIn_getLsbD (sr : Byte) (b : Bool) (i : Nat) (hi : i < 8) :
    ((sr <<< 1) ||| (if b then (1 : Byte) else 0)).getLsbD i = if i = 0 then b else sr.getLsbD (i - 1) := by
  have h1 : ∀ j, (1 : Byte).getLsbD j = decide (j = 0) := by
    intro j
    by_cases hj : j < 8
    · interval_cases j <;> rfl
    · have : j ≠ 0 := by omega
      simp only [this, decide_false]
      exact BitVec.getLsbD_of_ge _ _ (by omega)
  rw [BitVec.getLsbD_or, BitVec.getLsbD_shiftLeft]
  cases b
  · by_cases h : i = 0 <;> simp [h, hi]
  · simp only [if_true, h1]
    by_cases h : i = 0
    · simp [h]
    · simp [h, hi]

/-- Every bit of the bytes PACKBITS writes, read MSB-first: the bits in order, then zero padding
(spec/30_encoding.md R134, spec/43_bit_packer.md R212, R213). -/
theorem packBits_bit (sr : Byte) (k : Nat) (bits : List Bool) (hk : k < 8) (t : Nat)
    (ht : t < 8 * (packBits sr k bits).length) :
    ((packBits sr k bits)[t / 8]?.getD 0).getLsbD (7 - t % 8) = pendingBit sr k bits t := by
  induction bits generalizing sr k t with
  | nil =>
    unfold packBits at ht ⊢
    split
    · rename_i hk0
      rw [if_pos hk0] at ht
      simp at ht
      have h0 : t / 8 = 0 := by omega
      have h1 : t % 8 = t := by omega
      rw [h0, h1]
      simp only [List.getElem?_cons_zero, Option.getD_some, BitVec.getLsbD_shiftLeft, pendingBit]
      by_cases h : t < k
      · have e : 7 - t - (8 - k) = k - 1 - t := by omega
        simp [h, e]; omega
      · simp [h]; omega
    · rename_i hk0
      rw [if_neg hk0] at ht
      simp at ht
  | cons b bits ih =>
    unfold packBits at ht ⊢
    split
    · rename_i hk8
      rw [if_pos hk8] at ht
      have hk7 : k = 7 := by omega
      subst hk7
      by_cases h : t < 8
      · have h0 : t / 8 = 0 := by omega
        have h1 : t % 8 = t := by omega
        rw [h0, h1]
        simp only [List.getElem?_cons_zero, Option.getD_some]
        rw [shiftIn_getLsbD sr b (7 - t) (by omega)]
        unfold pendingBit
        by_cases h7 : t = 7
        · subst h7; simp
        · rw [if_neg (by omega), if_pos (by omega)]
          congr 1
          omega
      · have h0 : t / 8 = (t - 8) / 8 + 1 := by omega
        have h1 : t % 8 = (t - 8) % 8 := by omega
        rw [h0, h1, List.getElem?_cons_succ, ih 0 0 (by omega) (t - 8) (by rw [List.length_cons] at ht; omega)]
        unfold pendingBit
        rw [if_neg (by omega), if_neg (by omega)]
        have : t - 7 = (t - 8 - 0) + 1 := by omega
        rw [this, List.getD_cons_succ]
    · rename_i hk8
      rw [if_neg hk8] at ht
      rw [ih _ (k + 1) (by omega) t ht]
      unfold pendingBit
      by_cases h : t < k
      · rw [if_pos (by omega), if_pos h, shiftIn_getLsbD sr b _ (by omega), if_neg (by omega)]
        congr 1
        omega
      · by_cases hk' : t = k
        · subst hk'
          rw [if_pos (show t < t + 1 by omega), if_neg (show ¬ t < t by omega),
            shiftIn_getLsbD sr b _ (by omega), if_pos (by omega)]
          simp
        · rw [if_neg (by omega), if_neg h]
          have : t - k = (t - (k + 1)) + 1 := by omega
          rw [this, List.getD_cons_succ]

/-- The body of a packed bit string, read as the walker reads it: the bits, then zeros. -/
theorem fetchBit_packBits {m : Memory} {base : Nat} {bits : List Bool} (h : HoldsAt m base (packBits 0 0 bits))
    (t : Nat) (ht : t < 8 * ceilDiv8 bits.length) :
    Memory.fetchBit m base t = .ok (bits.getD t false) := by
  have hl := packBits_length 0 0 bits (by omega)
  rw [Nat.zero_add] at hl
  have hlt : t / 8 < (packBits 0 0 bits).length := by omega
  have hr := h (t / 8) hlt
  have hb := packBits_bit 0 0 bits (by omega) t (by omega)
  rw [List.getElem?_eq_getElem hlt] at hr hb
  rw [Memory.fetchBit_of_read hr]
  simp only [Option.getD_some] at hb
  rw [hb]
  simp [pendingBit]

/-! ## SERIALIZE and PARSE -/

theorem serializeEntry_length (e : Byte × Code) : (serializeEntry e).length = 2 + e.2.length := by
  simp [serializeEntry]; omega

theorem serializeEntries_length (entries : List (Byte × Code)) :
    (serializeEntries entries).length = entriesLength entries := by
  induction entries with
  | nil => rfl
  | cons e l ih =>
    simp only [serializeEntries, List.flatMap_cons, List.length_append, serializeEntry_length] at ih ⊢
    rw [ih]
    simp [entriesLength]

theorem serialize_length (r : Rom) : (serialize r).length = 1 + Rom.tableLength r := by
  simp [serialize, serializeEntries_length, Rom.tableLength]; omega

theorem bitOfByte_bitByte (b : Bool) : bitOfByte (bitByte b) = some b := by
  cases b <;> simp [bitOfByte, bitByte]

theorem parseCode_of_holds {m : Memory} {q : Nat} {c : Code} (h : HoldsAt m q (c.map bitByte)) :
    parseCode m c.length q = .ok c := by
  induction c generalizing q with
  | nil => rfl
  | cons b c ih =>
    obtain ⟨h1, h2⟩ := HoldsAt.cons.1 h
    simp [parseCode, Memory.fetch_of_read h1, bitOfByte_bitByte, ih h2]

/-- A serialized entry parses to itself after entries it does not clash with. -/
theorem parseEntry_of_holds {m : Memory} {tableEnd p : Nat} {seen : List (Byte × Code)} {e : Byte × Code}
    (h : HoldsAt m p (serializeEntry e)) (hc : e.2 ≠ []) (hl : e.2.length ≤ 255)
    (hend : p + 2 + e.2.length ≤ tableEnd)
    (hs : ∀ f ∈ seen, f.1 ≠ e.1 ∧ isPrefix f.2 e.2 = false ∧ isPrefix e.2 f.2 = false) :
    parseEntry m tableEnd seen p = .ok e := by
  obtain ⟨sym, code⟩ := e
  simp only at hc hl hend hs
  unfold serializeEntry at h
  obtain ⟨h1, h⟩ := HoldsAt.cons.1 h
  obtain ⟨h2, h3⟩ := HoldsAt.cons.1 h
  have hn : (BitVec.ofNat 8 code.length).toNat = code.length := by
    simp only [BitVec.toNat_ofNat]; omega
  have hpos : code.length ≠ 0 := fun h => hc (List.length_eq_zero_iff.1 h)
  have hz : BitVec.ofNat 8 code.length ≠ 0 := by
    intro h0
    rw [h0] at hn
    exact hpos hn.symm
  have hd : (seen.any fun f => f.1 == sym) = false := by
    rw [List.any_eq_false]
    intro f hf
    simpa using (hs f hf).1
  have hp : (seen.any fun f => isPrefix f.2 code || isPrefix code f.2) = false := by
    rw [List.any_eq_false]
    intro f hf
    simp [(hs f hf).2.1, (hs f hf).2.2]
  unfold parseEntry
  rw [if_neg (by omega), Memory.fetch_of_read h1]
  simp only
  rw [Memory.fetch_of_read h2]
  simp only
  rw [if_neg hz, if_neg (by rw [hn]; omega), hn, parseCode_of_holds h3]
  simp only [hd, hp]
  rfl

/-- Good entries are read one round each, and the parse goes on after them. -/
theorem parseEntries_append {m : Memory} (entries : List (Byte × Code)) {seen : List (Byte × Code)}
    {tableEnd rounds p : Nat} (h : HoldsAt m p (serializeEntries entries)) (hg : GoodEntries (seen ++ entries))
    (hl : ∀ e ∈ entries, e.2.length ≤ 255) (hend : p + entriesLength entries ≤ tableEnd) :
    parseEntries m tableEnd (entries.length + rounds) seen p =
      parseEntries m tableEnd rounds (seen ++ entries) (p + entriesLength entries) := by
  induction entries generalizing seen p with
  | nil => simp [entriesLength]
  | cons e rest ih =>
    have hlen : entriesLength (e :: rest) = 2 + e.2.length + entriesLength rest := by simp [entriesLength]
    rw [serializeEntries, List.flatMap_cons, HoldsAt.append, serializeEntry_length] at h
    obtain ⟨h1, h2⟩ := h
    have hs : ∀ f ∈ seen, f.1 ≠ e.1 ∧ isPrefix f.2 e.2 = false ∧ isPrefix e.2 f.2 = false := by
      have := hg.2
      rw [List.pairwise_append] at this
      intro f hf
      exact this.2.2 f hf e (by simp)
    have he := parseEntry_of_holds h1 (hg.1 e (by simp)) (hl e (by simp)) (tableEnd := tableEnd) (by omega) hs
    rw [List.length_cons, Nat.add_right_comm, parseEntries, if_pos (by omega), he]
    simp only
    rw [ih (seen := seen ++ [e]) (p := p + 2 + e.2.length) (by rw [serializeEntries]; rwa [Nat.add_assoc])
      (by simpa using hg) (fun f hf => hl f (by simp [hf])) (by omega), List.append_assoc]
    simp only [List.singleton_append]
    congr 1
    omega

/-- A serialized table parses to its entries, in its own order (spec/30_encoding.md R135). -/
theorem parseEntries_of_holds {m : Memory} (entries : List (Byte × Code)) {seen : List (Byte × Code)}
    {tableEnd rounds p : Nat} (h : HoldsAt m p (serializeEntries entries)) (hg : GoodEntries (seen ++ entries))
    (hl : ∀ e ∈ entries, e.2.length ≤ 255) (hend : tableEnd = p + entriesLength entries)
    (hr : entries.length ≤ rounds) :
    parseEntries m tableEnd rounds seen p = .ok (seen ++ entries, tableEnd) := by
  obtain ⟨k, rfl⟩ := Nat.exists_eq_add_of_le hr
  rw [parseEntries_append entries h hg hl (by omega), ← hend]
  cases k <;> simp [parseEntries]

theorem be32_be32Bytes (w : Word) :
    be32 (w.extractLsb' 24 8) (w.extractLsb' 16 8) (w.extractLsb' 8 8) (w.extractLsb' 0 8) = w := by
  apply BitVec.eq_of_getLsbD_eq
  intro i hi
  unfold be32
  simp only [BitVec.getLsbD_append, BitVec.getLsbD_extractLsb']
  by_cases h1 : i < 8
  · simp [h1]
  · by_cases h2 : i < 16
    · have h4 : i - 8 < 8 := by omega
      simp [h1, h4]
      congr 1; omega
    · by_cases h3 : i < 24
      · have h4 : ¬ i - 8 < 8 := by omega
        have h5 : i - 8 - 8 < 8 := by omega
        simp [h1, h4, h5]
        congr 1; omega
      · have h4 : ¬ i - 8 < 8 := by omega
        have h5 : ¬ i - 8 - 8 < 8 := by omega
        have h6 : i - 8 - 8 - 8 < 8 := by omega
        simp [h1, h4, h5, h6]
        congr 1; omega

theorem fetchBE32_of_holds {m : Memory} {p : Nat} {w : Word} (h : HoldsAt m p (be32Bytes w)) :
    Memory.fetchBE32 m p = .ok w := by
  unfold be32Bytes at h
  obtain ⟨h1, h⟩ := HoldsAt.cons.1 h
  obtain ⟨h2, h⟩ := HoldsAt.cons.1 h
  obtain ⟨h3, h⟩ := HoldsAt.cons.1 h
  obtain ⟨h4, _⟩ := HoldsAt.cons.1 h
  simp only [Memory.fetchBE32, Memory.fetch_of_read h1, Memory.fetch_of_read h2, Memory.fetch_of_read h3,
    Memory.fetch_of_read h4, be32_be32Bytes]

/-- Every entry of a table of at most 255 bytes has a code of at most 253 bits (spec/44_decoder.md R232). -/
theorem code_length_of_entriesLength {entries : List (Byte × Code)} {e : Byte × Code} (he : e ∈ entries) :
    2 + e.2.length ≤ entriesLength entries :=
  List.single_le_sum (by simp) _ (List.mem_map.2 ⟨e, he, rfl⟩)

theorem length_le_entriesLength (entries : List (Byte × Code)) : entries.length ≤ entriesLength entries := by
  rw [entriesLength_eq]; omega

/-- The header of a container with a table of good entries, in any order, parses to them. `n` is the bit count of
the counted format. -/
theorem parse_of_holds {counted : Bool} {m : Memory} {inLen : Nat} {entries : List (Byte × Code)} {n : Word}
    (hg : GoodEntries entries) (ht : entriesLength entries ≤ 255)
    (h : HoldsAt m 0 (BitVec.ofNat 8 (entriesLength entries) :: serializeEntries entries ++
      (if counted then be32Bytes n else [])))
    (hl : 1 + entriesLength entries + (if counted then 4 else 0) ≤ inLen) :
    parse counted m inLen = .ok
      { entries := entries
        tableLen := entriesLength entries
        bodyOff := 1 + entriesLength entries + (if counted then 4 else 0)
        bitCnt := if counted then n else BitVec.ofNat 32 (8 * (inLen - (1 + entriesLength entries))) } := by
  obtain ⟨h0, hN⟩ := HoldsAt.append.1 h
  obtain ⟨h1, h2⟩ := HoldsAt.cons.1 h0
  have hT : (BitVec.ofNat 8 (entriesLength entries)).toNat = entriesLength entries := by
    simp only [BitVec.toNat_ofNat]; omega
  have hpe := parseEntries_of_holds entries (seen := []) (m := m) (p := 1)
    (tableEnd := 1 + entriesLength entries) (rounds := entriesLength entries) (by simpa using h2) (by simpa using hg)
    (fun e he => by have := code_length_of_entriesLength he; omega) rfl (length_le_entriesLength entries)
  unfold parse
  rw [if_neg (by omega), Memory.fetch_of_read h1]
  simp only [hT]
  rw [if_neg (by omega), hpe]
  simp only [List.nil_append]
  unfold parseBitCount
  cases counted with
  | true =>
    simp only [if_true] at hl hN ⊢
    rw [if_neg (by omega)]
    have : HoldsAt m (1 + entriesLength entries) (be32Bytes n) := by
      simpa [serializeEntries_length, Nat.add_comm] using hN
    rw [fetchBE32_of_holds this]
  | false => simp

end Sys2Proof.Machine
end

