-- ==== Sys2Proof/Laws/Walker.lean ====
section
/-! SUPPORT. The walker on a prefix-free code ROM: it emits exactly the symbols whose codes make up the bits
(spec/44_decoder.md R235 to R241). -/

namespace Sys2Proof.Machine

/-- The body at `base` reads as these bits from bit `t` on. -/
def BitsAt (m : Memory) (base t : Nat) (bits : List Bool) : Prop :=
  ∀ i, i < bits.length → Memory.fetchBit m base (t + i) = .ok (bits.getD i false)

theorem BitsAt.append {m : Memory} {base t : Nat} {xs ys : List Bool} :
    BitsAt m base t (xs ++ ys) ↔ BitsAt m base t xs ∧ BitsAt m base (t + xs.length) ys := by
  constructor
  · intro h
    constructor
    · intro i hi
      rw [h i (by simp; omega), List.getD_append _ _ _ _ hi]
    · intro i hi
      have := h (xs.length + i) (by simp; omega)
      rw [← Nat.add_assoc] at this
      rw [this, List.getD_append_right _ _ _ _ (by omega)]
      congr 2
      omega
  · rintro ⟨h1, h2⟩ i hi
    by_cases h : i < xs.length
    · rw [h1 i h, List.getD_append _ _ _ _ h]
    · have := h2 (i - xs.length) (by simp at hi; omega)
      rw [List.getD_append_right _ _ _ _ (by omega), ← this]
      congr 1
      omega

theorem BitsAt.cons {m : Memory} {base t : Nat} {x : Bool} {ys : List Bool} :
    BitsAt m base t (x :: ys) ↔ Memory.fetchBit m base t = .ok x ∧ BitsAt m base (t + 1) ys := by
  have h := @BitsAt.append m base t [x] ys
  simp only [List.singleton_append, List.length_singleton] at h
  rw [h]
  constructor
  · rintro ⟨h1, h2⟩
    exact ⟨by simpa using h1 0 (by simp), h2⟩
  · rintro ⟨h1, h2⟩
    refine ⟨?_, h2⟩
    intro i hi
    have : i = 0 := by simpa using hi
    subst this
    simpa using h1

/-- The body PACK packs reads as its bits and then the padding (spec/30_encoding.md R134). -/
theorem BitsAt.packBits {m : Memory} {base : Nat} {bits : List Bool} (h : HoldsAt m base (packBits 0 0 bits)) :
    BitsAt m base 0 (bits ++ List.replicate (8 * ceilDiv8 bits.length - bits.length) false) := by
  intro i hi
  have hc : bits.length ≤ 8 * ceilDiv8 bits.length := by unfold ceilDiv8; omega
  rw [List.length_append, List.length_replicate] at hi
  rw [Nat.zero_add, fetchBit_packBits h i (by omega)]
  congr 1
  by_cases hb : i < bits.length
  · rw [List.getD_append _ _ _ _ hb]
  · rw [List.getD_append_right _ _ _ _ (by omega), List.getD_eq_default _ _ (by omega)]
    rw [List.getD_eq_getElem?_getD, List.getElem?_replicate]
    split <;> rfl

/-! ## The table scan on a prefix-free ROM -/

theorem find_code {r : Rom} (hp : PrefixFree r) {s : Byte} (hs : Rom.code r s ≠ []) :
    ((Rom.entries r).find? fun e => e.2 == Rom.code r s) = some (s, Rom.code r s) := by
  have hex : ∃ e ∈ Rom.entries r, (e.2 == Rom.code r s) = true :=
    ⟨(s, Rom.code r s), Rom.mem_entries.2 ⟨rfl, hs⟩, by simp⟩
  obtain ⟨e, he⟩ := Option.isSome_iff_exists.1 (List.find?_isSome.2 hex)
  rw [he]
  have h1 := List.find?_some he
  have h2 := List.mem_of_find?_eq_some he
  obtain ⟨h3, h4⟩ := Rom.mem_entries.1 h2
  simp only [beq_iff_eq] at h1
  have hes : e.1 = s := by
    by_contra hne
    have := hp e.1 s hne (h3 ▸ h4) hs
    rw [← h3, h1, isPrefix_eq_false_iff] at this
    exact this (List.prefix_refl _)
  congr 1
  exact Prod.ext hes h1

theorem find_properPrefix {r : Rom} (hp : PrefixFree r) {s : Byte} {c : Code} (hc : c <+: Rom.code r s)
    (hl : c.length < (Rom.code r s).length) : ((Rom.entries r).find? fun e => e.2 == c) = none := by
  rw [List.find?_eq_none]
  intro e he
  obtain ⟨h3, h4⟩ := Rom.mem_entries.1 he
  simp only [beq_iff_eq]
  intro hec
  have hs : Rom.code r s ≠ [] := by
    intro h; rw [h] at hl; simp at hl
  by_cases hes : e.1 = s
  · rw [hes] at h3
    rw [← hec, h3] at hl
    omega
  · have := hp e.1 s hes (h3 ▸ h4) hs
    rw [← h3, hec, isPrefix_eq_false_iff] at this
    exact this hc

theorem any_properPrefix {r : Rom} {s : Byte} {c : Code} (hc : c <+: Rom.code r s)
    (hl : c.length < (Rom.code r s).length) : ((Rom.entries r).any fun e => isProperPrefix c e.2) = true := by
  rw [List.any_eq_true]
  refine ⟨(s, Rom.code r s), Rom.mem_entries.2 ⟨rfl, ?_⟩, isProperPrefix_iff.2 ⟨hc, hl⟩⟩
  intro h
  have h' : Rom.code r s = [] := h
  rw [h'] at hl
  simp at hl

/-- A bit that completes a code emits its symbol, or is OutOverflow at the output's capacity
(spec/44_decoder.md R236, R240). -/
theorem stepBit_emit {counted : Bool} {r : Rom} (hp : PrefixFree r) {outSize pos : Nat} {b : Bool} {w : Walker}
    (hd : w.dead = false) {s : Byte} (hs : w.cand ++ [b] = Rom.code r s) :
    stepBit counted (Rom.entries r) outSize pos b w =
      if w.k = outSize then .raised (.outOverflow pos) w.out
      else .on { w with out := Memory.write w.out w.k s, k := w.k + 1, cand := [] } := by
  have hne : Rom.code r s ≠ [] := by rw [← hs]; simp
  unfold stepBit
  rw [hd, hs, find_code hp hne]
  rfl

/-- A bit inside a code is added to the candidate. -/
theorem stepBit_inside {counted : Bool} {r : Rom} (hp : PrefixFree r) {outSize pos : Nat} {b : Bool} {w : Walker}
    (hd : w.dead = false) {s : Byte} (hc : w.cand ++ [b] <+: Rom.code r s)
    (hl : (w.cand ++ [b]).length < (Rom.code r s).length) :
    stepBit counted (Rom.entries r) outSize pos b w = .on { w with cand := w.cand ++ [b] } := by
  unfold stepBit
  rw [hd, find_properPrefix hp hc hl, any_properPrefix hc hl]
  rfl

/-- A bit after which the candidate is neither a code nor a proper prefix of one is a dead path
(spec/44_decoder.md R236). -/
theorem stepBit_dead {counted : Bool} {r : Rom} {outSize pos : Nat} {b : Bool} {w : Walker}
    (hd : w.dead = false) (hc : ∀ s, Rom.code r s ≠ [] → ¬ w.cand ++ [b] <+: Rom.code r s) :
    stepBit counted (Rom.entries r) outSize pos b w =
      if counted then .raised (.malformed .deadPath pos) w.out else .on { w with dead := true, cand := [] } := by
  have hf : ((Rom.entries r).find? fun e => e.2 == w.cand ++ [b]) = none := by
    rw [List.find?_eq_none]
    intro e he
    obtain ⟨h3, h4⟩ := Rom.mem_entries.1 he
    simp only [beq_iff_eq]
    intro hec
    exact hc e.1 (h3 ▸ h4) (by rw [← h3, hec])
  have ha : ((Rom.entries r).any fun e => isProperPrefix (w.cand ++ [b]) e.2) = false := by
    rw [List.any_eq_false]
    intro e he
    obtain ⟨h3, h4⟩ := Rom.mem_entries.1 he
    rw [isProperPrefix_iff]
    rintro ⟨h, _⟩
    exact hc e.1 (h3 ▸ h4) (h3 ▸ h)
  unfold stepBit
  rw [hd, hf, ha]
  rfl

/-! ## Walking codes -/

theorem walkBits_on {counted : Bool} {entries : List (Byte × Code)} {outSize : Nat} {m : Memory}
    {base n t : Nat} {w : Walker} {b : Bool} (hb : Memory.fetchBit m base t = .ok b) :
    walkBits counted entries outSize m base (n + 1) t w =
      match stepBit counted entries outSize (base + t / 8) b w with
      | .on w' => walkBits counted entries outSize m base n (t + 1) w'
      | .raised e out => .raised e out
      | .unwritten i => .unwritten i := by
  simp only [walkBits, hb] <;> rfl

/-- Walking bits that stay inside a code only lengthens the candidate. -/
theorem walkBits_inside {counted : Bool} {r : Rom} (hp : PrefixFree r) {outSize : Nat} {m : Memory} {base : Nat}
    {s : Byte} (c : Code) {n t : Nat} {w : Walker} (hd : w.dead = false) (hb : BitsAt m base t c)
    (hc : w.cand ++ c <+: Rom.code r s) (hl : (w.cand ++ c).length < (Rom.code r s).length) :
    walkBits counted (Rom.entries r) outSize m base (c.length + n) t w =
      walkBits counted (Rom.entries r) outSize m base n (t + c.length) { w with cand := w.cand ++ c } := by
  induction c generalizing t w with
  | nil => simp
  | cons b c ih =>
    obtain ⟨h1, h2⟩ := BitsAt.cons.1 hb
    have hc' : (w.cand ++ [b]) ++ c <+: Rom.code r s := by simpa using hc
    have hl' : ((w.cand ++ [b]) ++ c).length < (Rom.code r s).length := by simpa using hl
    have e1 : (b :: c).length + n = (c.length + n) + 1 := by simp; omega
    rw [e1, walkBits_on h1, stepBit_inside hp hd ((List.prefix_append _ _).trans hc') (by
      simp only [List.length_append] at hl' ⊢; omega)]
    simp only
    rw [ih (w := { w with cand := w.cand ++ [b] }) hd h2 hc' hl']
    simp only [List.append_assoc, List.singleton_append, List.length_cons]
    congr 1
    omega

/-- Walking a symbol's whole code emits the symbol, or is OutOverflow at the byte of the code's last bit
(spec/44_decoder.md R236, R240). -/
theorem walkBits_code {counted : Bool} {r : Rom} (hp : PrefixFree r) {outSize : Nat} {m : Memory} {base : Nat}
    {s : Byte} (hs : Rom.code r s ≠ []) {n t k : Nat} {out : Memory} (hb : BitsAt m base t (Rom.code r s)) :
    walkBits counted (Rom.entries r) outSize m base ((Rom.code r s).length + n) t
        { cand := [], dead := false, k := k, out := out } =
      if k = outSize then .raised (.outOverflow (base + (t + (Rom.code r s).length - 1) / 8)) out
      else walkBits counted (Rom.entries r) outSize m base n (t + (Rom.code r s).length)
        { cand := [], dead := false, k := k + 1, out := Memory.write out k s } := by
  obtain ⟨c, b, hcb⟩ : ∃ c b, Rom.code r s = c ++ [b] :=
    ⟨_, _, (List.dropLast_append_getLast hs).symm⟩
  rw [hcb, BitsAt.append] at hb
  obtain ⟨h1, h2⟩ := hb
  have h3 := (BitsAt.cons.1 h2).1
  have e1 : (Rom.code r s).length + n = c.length + (n + 1) := by rw [hcb]; simp; omega
  have e2 : t + (Rom.code r s).length - 1 = t + c.length := by rw [hcb]; simp
  have e3 : t + (Rom.code r s).length = t + c.length + 1 := by rw [hcb]; simp; omega
  rw [e1, walkBits_inside hp (s := s) c rfl h1 (by simp [hcb]) (by simp [hcb]), walkBits_on h3,
    stepBit_emit hp rfl (s := s) (by simp [hcb]), e2, e3]
  by_cases hk : k = outSize
  · simp [hk]
  · simp [hk]

/-- Walking a message's bits from the root writes the message (spec/44_decoder.md R236). -/
theorem walkBits_message {counted : Bool} {r : Rom} (hp : PrefixFree r) {outSize : Nat} {m : Memory} {base : Nat}
    (msg : List Byte) (hm : Mapped r msg) {n t k : Nat} {out : Memory} (hb : BitsAt m base t (messageBits r msg))
    (hk : k + msg.length ≤ outSize) :
    walkBits counted (Rom.entries r) outSize m base ((messageBits r msg).length + n) t
        { cand := [], dead := false, k := k, out := out } =
      walkBits counted (Rom.entries r) outSize m base n (t + (messageBits r msg).length)
        { cand := [], dead := false, k := k + msg.length, out := Memory.writeList out k msg } := by
  induction msg generalizing t k out with
  | nil => simp [messageBits, Memory.writeList]
  | cons s msg ih =>
    have hs : Rom.code r s ≠ [] := hm s (by simp)
    have e0 : messageBits r (s :: msg) = Rom.code r s ++ messageBits r msg := by simp [messageBits]
    rw [e0, BitsAt.append] at hb
    obtain ⟨h1, h2⟩ := hb
    simp only [List.length_cons] at hk
    rw [e0, List.length_append, Nat.add_assoc, walkBits_code hp hs h1, if_neg (by omega),
      ih (fun b h => hm b (by simp [h])) h2 (by omega)]
    have e1 : k + 1 + msg.length = k + (msg.length + 1) := by omega
    simp only [List.length_cons, Memory.writeList, e1, Nat.add_assoc]

/-- Once dead, the walk changes nothing (spec/44_decoder.md R236). -/
theorem walkBits_dead {counted : Bool} {entries : List (Byte × Code)} {outSize : Nat} {m : Memory} {base : Nat}
    (bits : List Bool) {t : Nat} {w : Walker} (hd : w.dead = true) (hb : BitsAt m base t bits) :
    walkBits counted entries outSize m base bits.length t w = .on w := by
  induction bits generalizing t with
  | nil => rfl
  | cons b bits ih =>
    obtain ⟨h1, h2⟩ := BitsAt.cons.1 hb
    rw [List.length_cons, walkBits_on h1]
    have : stepBit counted entries outSize (base + t / 8) b w = .on w := by simp [stepBit, hd]
    rw [this]
    exact ih h2

/-- In the legacy format bits that complete no code, dropped inside one or absorbed after a dead path, emit nothing
(spec/44_decoder.md R236, R238). -/
theorem walkBits_legacy_tail {r : Rom} (hp : PrefixFree r) {outSize : Nat} {m : Memory} {base t k : Nat} {out : Memory}
    {tail : List Bool} (hb : BitsAt m base t tail)
    (h : InsideACode r tail ∨ ∃ (c : Code) (x : Bool) (more : List Bool), tail = c ++ [x] ++ more ∧ InsideACode r c ∧
      ∀ b, Rom.code r b ≠ [] → ¬(c ++ [x]) <+: Rom.code r b) :
    ∃ cand dead, walkBits false (Rom.entries r) outSize m base tail.length t
        { cand := [], dead := false, k := k, out := out } = .on { cand := cand, dead := dead, k := k, out := out } := by
  have inside : ∀ (c : Code) (n : Nat), InsideACode r c → BitsAt m base t c →
      walkBits false (Rom.entries r) outSize m base (c.length + n) t { cand := [], dead := false, k := k, out := out } =
      walkBits false (Rom.entries r) outSize m base n (t + c.length) { cand := c, dead := false, k := k, out := out } := by
    rintro c n (rfl | ⟨b, h1, h2⟩) hb
    · simp
    · exact walkBits_inside hp c (w := { cand := [], dead := false, k := k, out := out }) rfl hb h1 h2
  rcases h with h | ⟨c, x, more, rfl, hc, hx⟩
  · exact ⟨_, _, inside tail 0 h hb⟩
  · rw [List.append_assoc, BitsAt.append] at hb
    obtain ⟨h1, h2⟩ := hb
    obtain ⟨h3, h4⟩ := BitsAt.cons.1 h2
    refine ⟨[], true, ?_⟩
    have e : (c ++ [x] ++ more).length = c.length + (more.length + 1) := by simp
    rw [e, inside c _ hc h1, walkBits_on h3, stepBit_dead rfl hx]
    exact walkBits_dead more rfl h4

/-- In the legacy format the walk stops at the first unwritten byte it reaches (spec/70_reset_and_hazards.md R304). -/
theorem walkBits_legacy_unwritten {entries : List (Byte × Code)} {outSize : Nat} {m : Memory} {base i : Nat}
    (hi : base ≤ i) (h : Memory.read m i = none) (hw : ∀ j, base ≤ j → j < i → Memory.read m j ≠ none) {n t : Nat}
    {w : Walker} (ht : t ≤ 8 * (i - base)) (hn : 8 * (i - base) < t + n) (hk : w.k + (8 * (i - base) - t) ≤ outSize) :
    walkBits false entries outSize m base n t w = .unwritten i := by
  induction n generalizing t w with
  | zero => omega
  | succ n ih =>
    rcases Nat.eq_or_lt_of_le ht with ht | ht
    · have : base + t / 8 = i := by omega
      simp [walkBits, Memory.fetchBit, this, Memory.fetch_of_unwritten h]
    · obtain ⟨b, hb⟩ := Option.ne_none_iff_exists'.1 (hw (base + t / 8) (by omega) (by omega))
      rw [walkBits_on (Memory.fetchBit_of_read hb)]
      have : ∀ x, ∃ w', stepBit false entries outSize (base + t / 8) x w = .on w' ∧ w'.k ≤ w.k + 1 := by
        intro x
        unfold stepBit
        split
        · exact ⟨w, rfl, by omega⟩
        · split
          · rw [if_neg (by omega)]; exact ⟨_, rfl, Nat.le_refl _⟩
          · split
            · exact ⟨_, rfl, Nat.le_succ _⟩
            · exact ⟨_, rfl, Nat.le_succ _⟩
      obtain ⟨w', h1, h2⟩ := this (b.getLsbD (7 - t % 8))
      rw [h1]
      exact ih (by omega) (by omega) (by omega)

/-- The legacy format's zero padding: the all-zero code completes as often as it fits (spec/45_composite.md
R263). -/
theorem walkBits_zeros {counted : Bool} {r : Rom} (hp : PrefixFree r) {outSize : Nat} {m : Memory} {base : Nat}
    {s : Byte} {d : Nat} (hd : 0 < d) (hs : Rom.code r s = List.replicate d false) (z : Nat) {t k : Nat}
    {out : Memory} (hb : BitsAt m base t (List.replicate z false)) (hk : k + z / d ≤ outSize) :
    walkBits counted (Rom.entries r) outSize m base z t { cand := [], dead := false, k := k, out := out } =
      .on { cand := List.replicate (z % d) false, dead := false, k := k + z / d,
            out := Memory.writeList out k (List.replicate (z / d) s) } := by
  have hne : Rom.code r s ≠ [] := by
    rw [hs]
    intro h
    have := congrArg List.length h
    simp at this
    omega
  have hbits : List.replicate z false = messageBits r (List.replicate (z / d) s) ++ List.replicate (z % d) false := by
    have : messageBits r (List.replicate (z / d) s) = List.replicate (d * (z / d)) false := by
      generalize z / d = q
      induction q with
      | zero => simp [messageBits]
      | succ q ih =>
        rw [List.replicate_succ]
        simp only [messageBits, List.flatMap_cons] at ih ⊢
        rw [ih, hs, List.replicate_append_replicate]
        congr 1
        rw [Nat.mul_succ]; omega
    rw [this, List.replicate_append_replicate]
    congr 1
    exact (Nat.div_add_mod z d).symm
  rw [hbits, BitsAt.append] at hb
  obtain ⟨h1, h2⟩ := hb
  have hmap : Mapped r (List.replicate (z / d) s) := by
    intro b hb
    rw [List.eq_of_mem_replicate hb]
    exact hne
  have hz : z = (messageBits r (List.replicate (z / d) s)).length + (List.replicate (z % d) false).length := by
    rw [← List.length_append, ← hbits]; simp
  have hmod := Nat.mod_lt z hd
  have hin := walkBits_inside (counted := counted) hp (s := s) (outSize := outSize) (m := m) (base := base)
    (List.replicate (z % d) false) (n := 0) (t := t + (messageBits r (List.replicate (z / d) s)).length)
    (w := { cand := [], dead := false, k := k + z / d, out := Memory.writeList out k (List.replicate (z / d) s) })
    rfl h2 (by
      rw [hs, List.nil_append]
      exact ⟨List.replicate (d - z % d) false, by rw [List.replicate_append_replicate]; congr 1; omega⟩)
    (by rw [hs]; simpa using hmod)
  have hmsg := walkBits_message (counted := counted) hp (outSize := outSize) (m := m) (base := base)
    (List.replicate (z / d) s) hmap (n := (List.replicate (z % d) false).length) (t := t) (k := k) (out := out) h1
    (by simpa using hk)
  rw [← hz] at hmsg
  rw [hmsg]
  simp only [List.length_replicate, List.nil_append, Nat.add_zero] at hin ⊢
  rw [hin]
  rfl

/-- Symbols past OUT_SIZE raise OutOverflow (spec/44_decoder.md R240). -/
theorem walkBits_overflow {counted : Bool} {r : Rom} (hp : PrefixFree r) {outSize : Nat} {m : Memory} {base : Nat}
    (msg : List Byte) (hm : Mapped r msg) {n t k : Nat} {out : Memory} (hb : BitsAt m base t (messageBits r msg))
    (hk : k ≤ outSize) (ho : outSize < k + msg.length) :
    ∃ pos out', walkBits counted (Rom.entries r) outSize m base ((messageBits r msg).length + n) t
      { cand := [], dead := false, k := k, out := out } = .raised (.outOverflow pos) out' := by
  induction msg generalizing t k out with
  | nil => simp only [List.length_nil] at ho; omega
  | cons s msg ih =>
    have e0 : messageBits r (s :: msg) = Rom.code r s ++ messageBits r msg := by simp [messageBits]
    rw [e0, BitsAt.append] at hb
    simp only [List.length_cons] at ho
    rw [e0, List.length_append, Nat.add_assoc, walkBits_code hp (hm s (by simp)) hb.1]
    by_cases h : k = outSize
    · exact ⟨_, _, by rw [if_pos h]⟩
    · rw [if_neg h]
      exact ih (fun b h => hm b (by simp [h])) hb.2 (by omega) (by omega)

end Sys2Proof.Machine
end

