-- ==== Sys2Proof/Laws/Container.lean ====
section
/-! SUPPORT. Containers in a buffer: a body's bits as the packer writes and the walker reads them, the header PACK
writes, and the padding check (spec/30_encoding.md R130 to R135). -/

namespace Sys2Proof.Machine

/-- What the packer writes is a body of the bits it was given. -/
theorem BodyHolds.of_packBits {m : Memory} {base : Nat} {bits : List Bool} (h : HoldsAt m base (packBits 0 0 bits)) :
    BodyHolds m base bits := by
  intro t ht
  have hlen := packBits_length 0 0 bits (by omega)
  simp only [Nat.zero_add] at hlen
  have hget : t / 8 < (packBits 0 0 bits).length := by omega
  have hbit := packBits_bit 0 0 bits (by omega) t (by omega)
  rw [List.getElem?_eq_getElem hget, Option.getD_some] at hbit
  refine ⟨_, (h (t / 8) hget).trans (List.getElem?_eq_getElem hget), hbit.trans ?_⟩
  simp [pendingBit]

/-- A body reads as its bits followed by 0 bits to the end of its last byte. -/
theorem BodyHolds.bitsAt {m : Memory} {base : Nat} {bits : List Bool} (h : BodyHolds m base bits) :
    BitsAt m base 0 (bits ++ List.replicate (8 * ceilDiv8 bits.length - bits.length) false) := by
  intro i hi
  have hc : bits.length ≤ 8 * ceilDiv8 bits.length := by unfold ceilDiv8; omega
  have hi' : i < 8 * ceilDiv8 bits.length := by
    rw [List.length_append, List.length_replicate] at hi; omega
  obtain ⟨b, h1, h2⟩ := h i hi'
  rw [Nat.zero_add, Memory.fetchBit_of_read h1, h2]
  congr 1
  by_cases hlt : i < bits.length
  · rw [List.getD_append _ _ _ _ hlt]
  · rw [List.getD_eq_default _ _ (by omega), List.getD_append_right _ _ _ _ (by omega)]
    by_cases hr : i - bits.length < 8 * ceilDiv8 bits.length - bits.length
    · rw [List.getD_eq_getElem _ _ (by simpa using hr)]; simp
    · rw [List.getD_eq_default _ _ (by simpa using hr)]

/-- The padding mask keeps exactly the low `k` bits of a byte. -/
theorem and_lowMask_eq_zero {b : Byte} {k : Nat} (hk : k < 8) :
    b &&& (((1 : Byte) <<< k) - 1) = 0 ↔ b.toNat % 2 ^ k = 0 := by
  have h : ∀ k : Fin 8, ∀ b : Byte, b &&& (((1 : Byte) <<< k.val) - 1) = 0 ↔ b.toNat % 2 ^ k.val = 0 := by decide +kernel
  exact h ⟨k, hk⟩ b

/-- The padding bits of a body are 0. -/
theorem BodyHolds.padding {m : Memory} {base : Nat} {bits : List Bool} (h : BodyHolds m base bits)
    (hr : bits.length % 8 ≠ 0) :
    ∃ last, Memory.read m (base + ceilDiv8 bits.length - 1) = some last ∧
      last &&& (((1 : Byte) <<< (8 - bits.length % 8)) - 1) = 0 := by
  have hc : 0 < ceilDiv8 bits.length := by unfold ceilDiv8; omega
  have hq : ceilDiv8 bits.length = bits.length / 8 + 1 := by unfold ceilDiv8; omega
  obtain ⟨last, h1, _⟩ := h (8 * (bits.length / 8)) (by omega)
  have e : base + 8 * (bits.length / 8) / 8 = base + ceilDiv8 bits.length - 1 := by omega
  rw [e] at h1
  refine ⟨last, h1, ?_⟩
  apply BitVec.eq_of_getLsbD_eq
  intro i hi
  by_cases hlow : i < 8 - bits.length % 8
  · have hb : last.getLsbD i = false := by
      obtain ⟨b', h2, h3⟩ := h (8 * (bits.length / 8) + (7 - i)) (by omega)
      have e2 : base + (8 * (bits.length / 8) + (7 - i)) / 8 = base + ceilDiv8 bits.length - 1 := by omega
      rw [e2, h1] at h2
      cases h2
      have e3 : 7 - (8 * (bits.length / 8) + (7 - i)) % 8 = i := by omega
      rw [e3] at h3
      rw [h3, List.getD_eq_default _ _ (by omega)]
    simp [hb]
  · have hm : ∀ k : Fin 8, ∀ j : Fin 8, ¬ j.val < k.val → (((1 : Byte) <<< k.val) - 1).getLsbD j.val = false := by decide
    have := hm ⟨8 - bits.length % 8, by omega⟩ ⟨i, hi⟩ hlow
    simp only at this
    rw [BitVec.getLsbD_and, this]; simp

/-- The header the container of a ROM begins with. -/
theorem container_eq (counted : Bool) (r : Rom) (msg : List Byte) :
    container counted r msg =
      headerBytes counted (Rom.entries r) (messageBits r msg).length ++ packBits 0 0 (messageBits r msg) := rfl

theorem be32Bytes_length (w : Word) : (be32Bytes w).length = 4 := rfl

theorem headerBytes_length (counted : Bool) (entries : List (Byte × Code)) (n : Nat) :
    (headerBytes counted entries n).length = headerSize counted entries := by
  cases counted <;>
    simp [headerBytes, headerSize, tableBytes, serializeEntries_length, be32Bytes_length] <;> omega

theorem container_length (counted : Bool) (r : Rom) (msg : List Byte) :
    (container counted r msg).length = containerLength counted r msg := by
  rw [container_eq, List.length_append, headerBytes_length, packBits_length 0 0 _ (by omega), Nat.zero_add]
  rfl

theorem containerLength_eq (counted : Bool) (r : Rom) (msg : List Byte) :
    containerLength counted r msg =
      headerSize counted (Rom.entries r) + ceilDiv8 (messageBits r msg).length := rfl

/-- A container written at the start of a buffer: its header, its body, and the bytes after it. -/
theorem holds_container (m : Memory) (counted : Bool) (r : Rom) (msg : List Byte) :
    HoldsAt (Memory.writeList m 0 (container counted r msg)) 0
        (headerBytes counted (Rom.entries r) (messageBits r msg).length) ∧
      BodyHolds (Memory.writeList m 0 (container counted r msg)) (headerSize counted (Rom.entries r))
        (messageBits r msg) ∧
      SameFrom (containerLength counted r msg) m (Memory.writeList m 0 (container counted r msg)) := by
  have h := HoldsAt.writeList m 0 (container counted r msg)
  have h' := h
  rw [container_eq, HoldsAt.append, headerBytes_length, Nat.zero_add] at h'
  refine ⟨?_, ?_, ?_⟩
  · rw [container_eq]; exact h'.1
  · rw [container_eq]; exact BodyHolds.of_packBits h'.2
  · have := SameFrom.writeList m 0 (container counted r msg)
    rwa [container_length, Nat.zero_add] at this

/-- A parse that meets a bad entry after good ones stops as that entry does (spec/44_decoder.md R231, R232). -/
theorem parse_of_entry_error {counted : Bool} {m : Memory} {inLen : Nat} {T : Byte} {entries : List (Byte × Code)}
    {stop : Stop} (hl : 1 + T.toNat ≤ inLen) (hg : GoodEntries entries) (ht : entriesLength entries < T.toNat)
    (h : HoldsAt m 0 (T :: serializeEntries entries))
    (he : parseEntry m (1 + T.toNat) entries (1 + entriesLength entries) = .error stop) :
    parse counted m inLen = .error stop := by
  obtain ⟨h1, h2⟩ := HoldsAt.cons.1 h
  obtain ⟨k, hk⟩ : ∃ k, T.toNat = entries.length + (k + 1) := by
    have := length_le_entriesLength entries
    exact ⟨T.toNat - entries.length - 1, by omega⟩
  have hpe := parseEntries_append entries (seen := []) (m := m) (p := 1) (tableEnd := 1 + T.toNat) (rounds := k + 1)
    (by simpa using h2) (by simpa using hg)
    (fun e he => by have := code_length_of_entriesLength he; have := T.isLt; omega) (by omega)
  rw [← hk] at hpe
  rw [parse, if_neg (by omega), Memory.fetch_of_read h1]
  simp only
  rw [if_neg (by omega), hpe, parseEntries, if_pos (by omega)]
  simp [he]

/-- The first byte that is no code bit stops the code (spec/44_decoder.md R231). -/
theorem parseCode_bad {m : Memory} {q n : Nat} {c : Code} {x : Byte} {rest : List Byte}
    (h : HoldsAt m q (c.map bitByte ++ x :: rest)) (hn : c.length < n) (h0 : x ≠ 0x30) (h1 : x ≠ 0x31) :
    parseCode m n q = .error (malformedAt .badBitByte (q + c.length)) := by
  induction c generalizing q n with
  | nil =>
    obtain ⟨n, rfl⟩ : ∃ k, n = k + 1 := ⟨n - 1, by simp at hn; omega⟩
    have hx : bitOfByte x = none := by rw [bitOfByte, if_neg h0, if_neg h1]
    simp [parseCode, Memory.fetch_of_read (HoldsAt.cons.1 h).1, hx]
  | cons b c ih =>
    obtain ⟨n, rfl⟩ : ∃ k, n = k + 1 := ⟨n - 1, by simp at hn; omega⟩
    obtain ⟨h2, h3⟩ := HoldsAt.cons.1 h
    have hn' : c.length < n := by simp only [List.length_cons] at hn; omega
    have e : q + 1 + c.length = q + (c.length + 1) := by omega
    simp [parseCode, Memory.fetch_of_read h2, bitOfByte_bitByte, ih h3 hn', e]

/-! ## WALK on a body -/

/-- The structural checks pass on a body of BITCNT bits, in the counted format. -/
theorem walkCheck_counted {s : State} {bits : List Bool} (hf : s.ctrl.fmt = true)
    (hb : BodyHolds s.inBuf s.bodyOff.toNat bits) (hn : s.bitCnt.toNat = bits.length)
    (hl : s.inLen.toNat = s.bodyOff.toNat + ceilDiv8 bits.length) : walkCheck s = .ok bits.length := by
  rw [walkCheck, if_neg (by omega), if_pos (by exact hf), if_neg (by rw [hn]; omega), hn]
  by_cases h8 : bits.length % 8 = 0
  · rw [if_neg (by omega)]
  · obtain ⟨last, h1, h2⟩ := hb.padding h8
    rw [if_pos h8, Memory.fetch_of_read h1]
    simp only
    rw [if_neg (by simpa using h2)]

/-- In the legacy format the walk takes every bit of the body's bytes. -/
theorem walkCheck_legacy {s : State} (hf : s.ctrl.fmt = false) (hl : s.bodyOff.toNat ≤ s.inLen.toNat) :
    walkCheck s = .ok (8 * (s.inLen.toNat - s.bodyOff.toNat)) := by
  rw [walkCheck, if_neg (by omega), if_neg (by simp [State.counted, hf])]

/-- WALK past its checks is the walk of its bits. -/
theorem walkBody_of_check {s : State} {n : Nat} (hl : s.inLen.toNat ≤ s.params.inSize) (hc : walkCheck s = .ok n) :
    walkBody s =
      match walkBits s.counted (Rom.entries s.rom) s.params.outSize s.inBuf s.bodyOff.toNat n 0
          { cand := [], dead := false, k := 0, out := s.outBuf } with
      | .unwritten i => .unwritten i
      | .raised e out => .raised e { s with outBuf := out }
      | .on w => walkEnd s w := by
  simp only [walkBody, State.checkInLen_of_le hl, hc] <;>
  cases walkBits s.counted (Rom.entries s.rom) s.params.outSize s.inBuf s.bodyOff.toNat n 0
    { cand := [], dead := false, k := 0, out := s.outBuf } <;> rfl

end Sys2Proof.Machine
end

