-- ==== Sys2Proof/Laws/Effects.lean ====
section
/-! SUPPORT. What each command's body can write, wherever it ends (spec/30_encoding.md R123), and the buffers a run
of it leaves (spec/43_bit_packer.md R214, spec/44_decoder.md R240, R241). -/

namespace Sys2Proof.Machine

/-- A relation between the state a run starts in and the state it ends in, done or raised. -/
def Run.Ends (P : State → State → Prop) (s : State) : Run → Prop
  | .done t => P s t
  | .raised _ t => P s t
  | .unwritten _ => True

theorem Run.Ends.mono {P Q : State → State → Prop} {s : State} {r : Run} (h : r.Ends P s) (hpq : ∀ t, P s t → Q s t) :
    r.Ends Q s := by
  cases r with
  | done t => exact hpq t h
  | raised e t => exact hpq t h
  | unwritten n => trivial

theorem Run.Ends.andThen {P : State → State → Prop} (trans : ∀ a b c, P a b → P b c → P a c) {s : State} {r : Run}
    {f : State → Run} (h : r.Ends P s) (hf : ∀ t, P s t → (f t).Ends P t) : (r.andThen f).Ends P s := by
  cases r with
  | done t =>
    have := hf t h
    simp only [Run.andThen_done]
    cases hft : f t with
    | done u => rw [hft] at this; exact trans _ _ _ h this
    | raised e u => rw [hft] at this; exact trans _ _ _ h this
    | unwritten n => trivial
  | raised e t => exact h
  | unwritten n => trivial

/-- A command that answers a next state ended its body in a state. -/
theorem Run.Ends.finish {P : State → State → Prop} {s t : State} {r : Run} {i : Instr} (h : r.Ends P s)
    (hn : Run.finish i r = .next t) :
    ∃ u, P s u ∧ ((r = .done u ∧ t = u.complete) ∨ ∃ e, r = .raised e u ∧ t = u.raise (writesOutBuf i) e) := by
  cases r with
  | done u => exact ⟨u, h, .inl ⟨rfl, by cases hn; rfl⟩⟩
  | raised e u => exact ⟨u, h, .inr ⟨e, rfl, by cases hn; rfl⟩⟩
  | unwritten n => cases hn

/-! ## What each body writes -/

theorem histBody_writes (s : State) : (histBody s).Ends (fun s t => t = { s with hist := t.hist }) s := by
  unfold histBody
  split
  · rfl
  · split
    · rfl
    · split
      · rename_i stop _; cases stop <;> first | rfl | trivial
      · rfl

theorem buildBody_writes (s : State) :
    (buildBody s).Ends
      (fun s t => t = { s with rom := t.rom, nsym := t.nsym, maxLen := t.maxLen, tableLen := t.tableLen }) s := by
  unfold buildBody
  split
  · rfl
  · split <;> rfl

theorem packBody_writes (s : State) :
    (packBody s).Ends
      (fun s t => t = { s with
        outBuf := t.outBuf, outLen := t.outLen, tableLen := t.tableLen, bitCnt := t.bitCnt, bodyOff := t.bodyOff }) s := by
  unfold packBody
  split
  · rfl
  · split
    · rfl
    · split
      · rename_i stop _; cases stop <;> first | rfl | trivial
      · split <;> rfl

theorem loadtabBody_writes (s : State) :
    (loadtabBody s).Ends
      (fun s t => t = { s with
        rom := t.rom, nsym := t.nsym, maxLen := t.maxLen, tableLen := t.tableLen, bitCnt := t.bitCnt
        bodyOff := t.bodyOff }) s := by
  unfold loadtabBody
  split
  · rfl
  · split
    · rename_i stop _; cases stop <;> first | rfl | trivial
    · rfl

theorem walkBody_writes (s : State) :
    (walkBody s).Ends (fun s t => t = { s with outBuf := t.outBuf, outLen := t.outLen }) s := by
  unfold walkBody
  split
  · rfl
  · split
    · rename_i stop _; cases stop <;> first | rfl | trivial
    · split
      · trivial
      · rfl
      · unfold walkEnd; split <;> rfl

/-- LOADTAB's body raises in the state it began in: the parse stages its entries (spec/10_state.md R58). -/
theorem loadtabBody_raised {s t : State} {e : CmdError} (h : loadtabBody s = .raised e t) : t = s := by
  unfold loadtabBody at h
  split at h
  · cases h; rfl
  · split at h
    · rename_i stop _; cases stop <;> cases h; rfl
    · cases h

/-- What holds of a state and is kept by every unit's body holds at the end of every command's body: ENCODE and DECODE
are the units' bodies one after another (spec/45_composite.md). -/
theorem exec_preserves {I : State → Prop} (hc : ∀ s, (clearBody s).Ends (fun s t => I s → I t) s)
    (hh : ∀ s, (histBody s).Ends (fun s t => I s → I t) s) (hb : ∀ s, (buildBody s).Ends (fun s t => I s → I t) s)
    (hp : ∀ s, (packBody s).Ends (fun s t => I s → I t) s) (hl : ∀ s, (loadtabBody s).Ends (fun s t => I s → I t) s)
    (hw : ∀ s, (walkBody s).Ends (fun s t => I s → I t) s) {i : Instr} {s t : State} (h : exec i s = .next t)
    (hi : I s) : ∃ u, I u ∧ (t = u.complete ∨ ∃ e, t = u.raise (writesOutBuf i) e) := by
  have trans : ∀ a b c : State, (I a → I b) → (I b → I c) → I a → I c := fun _ _ _ h g x => g (h x)
  have fin : ∀ r, Run.Ends (fun s t => I s → I t) s r → Run.finish i r = .next t →
      ∃ u, I u ∧ (t = u.complete ∨ ∃ e, t = u.raise (writesOutBuf i) e) := by
    intro r hr hf
    obtain ⟨u, hu, ⟨_, h⟩ | ⟨e, _, h⟩⟩ := hr.finish hf
    · exact ⟨u, hu hi, .inl h⟩
    · exact ⟨u, hu hi, .inr ⟨e, h⟩⟩
  cases i with
  | nop => exact fin (.done s) id h
  | clear => exact fin _ (hc s) h
  | hist => exact fin _ (hh s) h
  | build => exact fin _ (hb s) h
  | pack => exact fin _ (hp s) h
  | loadtab => exact fin _ (hl s) h
  | walk => exact fin _ (hw s) h
  | encode =>
    refine fin _ ?_ h
    unfold encodeBody
    split
    · exact id
    · refine .andThen trans (.andThen trans (.andThen trans (hc s) fun t _ => hh t) fun t _ => ?_) fun t _ => hp t
      unfold buildIfMessage
      split
      · exact hb t
      · exact id
  | decode =>
    refine fin _ ?_ h
    unfold decodeBody
    split
    · exact id
    · exact .andThen trans (hl s) fun t _ => hw t

/-- No cause or sub-cause is reserved, and SUB is nonzero exactly for MalformedContainer (spec/60_exceptions.md R270,
R271). -/
theorem CmdError.codes_legal (e : CmdError) :
    e.cause ≠ 0 ∧ e.cause.toNat ≤ 9 ∧ e.sub.toNat ≤ 12 ∧ (e.sub ≠ 0 ↔ e.cause = 4) := by
  cases e with
  | malformed sub _ => cases sub <;> simp [CmdError.cause, CmdError.sub, SubCause.code]
  | _ => simp [CmdError.cause, CmdError.sub]

/-! ## The buffers a run leaves -/

/-- What the walker does to OUT_BUF: it writes below the symbols it has counted and below OUT_SIZE, and keeps the
canonical form. -/
def Walked.Keeps (outSize : Nat) (w : Walker) : Walked → Prop
  | .on w' => w.k ≤ w'.k ∧ w'.k ≤ outSize ∧ SameFrom w'.k w.out w'.out ∧
      (Memory.wf w.out → Memory.wf w'.out) ∧ (Memory.within w.out outSize → Memory.within w'.out outSize)
  | .raised _ out => SameFrom outSize w.out out ∧
      (Memory.wf w.out → Memory.wf out) ∧ (Memory.within w.out outSize → Memory.within out outSize)
  | .unwritten _ => True

theorem SameFrom.refl (n : Nat) (m : Memory) : SameFrom n m m := fun _ _ => rfl

theorem SameFrom.trans {n k : Nat} {a b c : Memory} (h : SameFrom n a b) (g : SameFrom k b c) (hn : n ≤ k) :
    SameFrom k a c :=
  fun i hi => (g i hi).trans (h i (Nat.le_trans hn hi))

theorem stepBit_keeps {counted : Bool} {entries : List (Byte × Code)} {outSize pos : Nat} {b : Bool} {w : Walker}
    (hk : w.k ≤ outSize) : (stepBit counted entries outSize pos b w).Keeps outSize w := by
  have same : Walked.Keeps outSize w (.raised (.outOverflow pos) w.out) := ⟨SameFrom.refl _ _, id, id⟩
  unfold stepBit
  split
  · exact ⟨Nat.le_refl _, hk, SameFrom.refl _ _, id, id⟩
  · split
    · split
      · exact same
      · have hlt : w.k < outSize := by omega
        refine ⟨Nat.le_succ _, hlt, ?_, fun h => Memory.wf_write h _ _, fun h => Memory.within_write h hlt _⟩
        intro i (hi : w.k + 1 ≤ i)
        exact Memory.read_write_other _ _ (by omega)
    · split
      · exact ⟨Nat.le_refl _, hk, SameFrom.refl _ _, id, id⟩
      · split
        · exact same
        · exact ⟨Nat.le_refl _, hk, SameFrom.refl _ _, id, id⟩

theorem walkBits_keeps {counted : Bool} {entries : List (Byte × Code)} {outSize base n t : Nat} {m : Memory} {w : Walker}
    (hk : w.k ≤ outSize) : (walkBits counted entries outSize m base n t w).Keeps outSize w := by
  induction n generalizing t w with
  | zero => exact ⟨Nat.le_refl _, hk, SameFrom.refl _ _, id, id⟩
  | succ n ih =>
    rcases hb : Memory.fetchBit m base t with stop | b
    · rw [walkBits, hb]
      cases stop with
      | raised e => exact ⟨SameFrom.refl _ _, id, id⟩
      | unwritten i => trivial
    · rw [walkBits_on hb]
      have hs := stepBit_keeps (counted := counted) (entries := entries) (pos := base + t / 8) (b := b) hk
      cases h : stepBit counted entries outSize (base + t / 8) b w with
      | raised e out => rw [h] at hs; exact hs
      | unwritten i => trivial
      | on w' =>
        rw [h] at hs
        obtain ⟨h1, h2, h3, h4, h5⟩ := hs
        have hr := ih (t := t + 1) h2
        simp only
        cases h' : walkBits counted entries outSize m base n (t + 1) w' with
        | on w2 =>
          rw [h'] at hr
          obtain ⟨g1, g2, g3, g4, g5⟩ := hr
          exact ⟨by omega, g2, h3.trans g3 g1, fun h => g4 (h4 h), fun h => g5 (h5 h)⟩
        | raised e out =>
          rw [h'] at hr
          obtain ⟨g3, g4, g5⟩ := hr
          exact ⟨h3.trans g3 h2, fun h => g4 (h4 h), fun h => g5 (h5 h)⟩
        | unwritten i => trivial

theorem Params.sizes {p : Params} (h : p.wellFormed = true) :
    p.inSize % 4 = 0 ∧ p.inSize ≤ 65536 ∧ p.outSize % 4 = 0 ∧ p.outSize ≤ 65536 := by
  simp only [Params.wellFormed, legalSize, Bool.and_eq_true, decide_eq_true_eq] at h
  omega

/-- OUT_BUF keeps its canonical form and its bounds. -/
def OutKept (s t : State) : Prop :=
  t.params = s.params ∧ (Memory.wf s.outBuf → Memory.wf t.outBuf) ∧
  (Memory.within s.outBuf s.params.outSize → Memory.within t.outBuf s.params.outSize)

theorem OutKept.refl (s : State) : OutKept s s := ⟨rfl, id, id⟩

theorem OutKept.of_eq {s t : State} (hp : t.params = s.params) (ho : t.outBuf = s.outBuf) : OutKept s t :=
  ⟨hp, ho ▸ id, ho ▸ id⟩

theorem OutKept.trans {s t u : State} (h : OutKept s t) (g : OutKept t u) : OutKept s u :=
  ⟨g.1.trans h.1, fun x => g.2.1 (h.2.1 x), fun x => by
    have := g.2.2
    rw [h.1] at this
    exact this (h.2.2 x)⟩

/-- The bytes of OUT_BUF a run that ends well leaves alone are those from OUT_LEN on; a run that raises leaves
alone those from `errFrom` on. -/
def Run.OutFrom (errFrom : Nat) (s : State) : Run → Prop
  | .done t => OutKept s t ∧ t.outLen.toNat ≤ s.params.outSize ∧ SameFrom t.outLen.toNat s.outBuf t.outBuf
  | .raised _ t => OutKept s t ∧ SameFrom errFrom s.outBuf t.outBuf
  | .unwritten _ => True

theorem walkBody_out (s : State) (hw : s.params.wellFormed = true) :
    (walkBody s).OutFrom s.params.outSize s := by
  have hs := Params.sizes hw
  unfold walkBody
  split
  · exact ⟨OutKept.refl s, SameFrom.refl _ _⟩
  · split
    · rename_i stop _
      cases stop with
      | raised e => exact ⟨OutKept.refl s, SameFrom.refl _ _⟩
      | unwritten i => trivial
    · rename_i nbits _
      have h := walkBits_keeps (counted := s.counted) (entries := Rom.entries s.rom) (outSize := s.params.outSize)
        (base := s.bodyOff.toNat) (n := nbits) (t := 0) (m := s.inBuf)
        (w := { cand := [], dead := false, k := 0, out := s.outBuf }) (Nat.zero_le _)
      generalize walkBits s.counted (Rom.entries s.rom) s.params.outSize s.inBuf s.bodyOff.toNat nbits 0
        { cand := [], dead := false, k := 0, out := s.outBuf } = r at h ⊢
      cases r with
      | unwritten i => trivial
      | raised e out => exact ⟨⟨rfl, h.2.1, h.2.2⟩, h.1⟩
      | on w =>
        obtain ⟨_, h2, h3, h4, h5⟩ := h
        simp only
        unfold walkEnd
        split
        · exact ⟨⟨rfl, h4, h5⟩, fun i hi => h3 i (Nat.le_trans h2 hi)⟩
        · have hk : (BitVec.ofNat 17 w.k).toNat = w.k := by simp only [BitVec.toNat_ofNat]; omega
          refine ⟨⟨rfl, h4, h5⟩, ?_, ?_⟩
          · simp only [hk]; exact h2
          · simp only [hk]; exact h3

theorem packBody_out (s : State) (hw : s.params.wellFormed = true) : (packBody s).OutFrom 0 s := by
  have hs := Params.sizes hw
  unfold packBody
  split
  · exact ⟨OutKept.refl s, SameFrom.refl _ _⟩
  · split
    · exact ⟨OutKept.refl s, SameFrom.refl _ _⟩
    · split
      · rename_i stop _
        cases stop with
        | raised e => exact ⟨OutKept.refl s, SameFrom.refl _ _⟩
        | unwritten i => trivial
      · rename_i msg _
        split
        · exact ⟨OutKept.refl s, SameFrom.refl _ _⟩
        · have hk : (BitVec.ofNat 17 (containerLength s.counted s.rom msg)).toNat =
              containerLength s.counted s.rom msg := by
            simp only [BitVec.toNat_ofNat]; omega
          refine ⟨⟨rfl, fun h => Memory.wf_writeList h _ _, fun h => Memory.within_writeList h _ ?_⟩, ?_, ?_⟩
          · rw [container_length]; omega
          · simp only [hk]; omega
          · simp only [hk]; exact (holds_container s.outBuf s.counted s.rom msg).2.2

/-- The steps of ENCODE before PACK leave OUT_BUF and the parameters alone. -/
theorem encodePrefix_keeps (s : State) :
    (((clearBody s).andThen histBody).andThen buildIfMessage).Ends
      (fun s t => t.params = s.params ∧ t.outBuf = s.outBuf) s := by
  have tr : ∀ a b c : State, (b.params = a.params ∧ b.outBuf = a.outBuf) →
      (c.params = b.params ∧ c.outBuf = b.outBuf) → (c.params = a.params ∧ c.outBuf = a.outBuf) :=
    fun _ _ _ h g => ⟨g.1.trans h.1, g.2.trans h.2⟩
  apply Run.Ends.andThen (P := fun s t => t.params = s.params ∧ t.outBuf = s.outBuf) tr
  · apply Run.Ends.andThen (P := fun s t => t.params = s.params ∧ t.outBuf = s.outBuf) tr
    · exact ⟨rfl, rfl⟩
    intro t _
    exact (histBody_writes t).mono fun u hu => by rw [hu]; exact ⟨rfl, rfl⟩
  · intro t _
    unfold buildIfMessage
    split
    · exact (buildBody_writes t).mono fun u hu => by rw [hu]; exact ⟨rfl, rfl⟩
    · exact ⟨rfl, rfl⟩

theorem Run.OutFrom.after {s t : State} {r : Run} {n : Nat} (hp : t.params = s.params) (ho : t.outBuf = s.outBuf)
    (h : r.OutFrom n t) : r.OutFrom n s := by
  have hk := OutKept.of_eq hp ho
  cases r with
  | done u =>
    obtain ⟨h1, h2, h3⟩ := h
    exact ⟨hk.trans h1, hp ▸ h2, ho ▸ h3⟩
  | raised e u => exact ⟨hk.trans h.1, ho ▸ h.2⟩
  | unwritten i => trivial

theorem encodeBody_out (s : State) (hw : s.params.wellFormed = true) : (encodeBody s).OutFrom 0 s := by
  unfold encodeBody
  split
  · exact ⟨OutKept.refl s, SameFrom.refl _ _⟩
  · have hk := encodePrefix_keeps s
    generalize ((clearBody s).andThen histBody).andThen buildIfMessage = r at hk ⊢
    cases r with
    | done u => exact (packBody_out u (hk.1 ▸ hw)).after hk.1 hk.2
    | raised e u => exact ⟨OutKept.of_eq hk.1 hk.2, fun i _ => congrArg (Memory.read · i) hk.2⟩
    | unwritten i => trivial

theorem decodeBody_out (s : State) (hw : s.params.wellFormed = true) :
    (decodeBody s).OutFrom s.params.outSize s := by
  unfold decodeBody
  split
  · exact ⟨OutKept.refl s, SameFrom.refl _ _⟩
  · have hk := (loadtabBody_writes s).mono (Q := fun s t => t.params = s.params ∧ t.outBuf = s.outBuf)
      fun u hu => by rw [hu]; exact ⟨rfl, rfl⟩
    generalize loadtabBody s = r at hk ⊢
    cases r with
    | done u =>
      have := walkBody_out u (hk.1 ▸ hw)
      rw [hk.1] at this
      exact this.after hk.1 hk.2
    | raised e u => exact ⟨OutKept.of_eq hk.1 hk.2, fun i _ => congrArg (Memory.read · i) hk.2⟩
    | unwritten i => trivial

end Sys2Proof.Machine
end

