-- ==== Sys2Proof/Laws/Bus.lean ====
section
/-! SUPPORT. The bus: the map by ranges, its checks, and everything a host access can do
(spec/20_memory.md R80 to R95, spec/60_exceptions.md R279). -/

namespace Sys2Proof.Machine

/-! ## The map -/

theorem toNat_offset {off : Nat} (h : off < 0x40000) : (BitVec.ofNat 18 off : Offset).toNat = off := by
  rw [BitVec.toNat_ofNat]
  omega

theorem regionOf_reg {off : Offset} (h : off.toNat < 0x1000) : regionOf off = .reg := by
  rw [regionOf, if_pos h]

theorem regionOf_histw {off : Offset} (h : 0x1000 ≤ off.toNat) (h' : off.toNat < 0x1400) : regionOf off = .histw := by
  rw [regionOf, if_neg (by omega), if_pos h']

theorem regionOf_romw {off : Offset} (h : 0x2000 ≤ off.toNat) (h' : off.toNat < 0x6000) : regionOf off = .romw := by
  rw [regionOf, if_neg (by omega), if_neg (by omega), if_neg (by omega), if_pos h']

theorem regionOf_inw {off : Offset} (h : 0x10000 ≤ off.toNat) (h' : off.toNat < 0x20000) : regionOf off = .inw := by
  rw [regionOf, if_neg (by omega), if_neg (by omega), if_neg (by omega), if_neg (by omega), if_neg (by omega),
    if_pos h']

theorem regionOf_outw {off : Offset} (h : 0x20000 ≤ off.toNat) (h' : off.toNat < 0x30000) : regionOf off = .outw := by
  rw [regionOf, if_neg (by omega), if_neg (by omega), if_neg (by omega), if_neg (by omega), if_neg (by omega),
    if_neg (by omega), if_pos h']

theorem regionOf_gap {off : Offset}
    (h : (0x1400 ≤ off.toNat ∧ off.toNat < 0x2000) ∨ (0x6000 ≤ off.toNat ∧ off.toNat < 0x10000) ∨
      0x30000 ≤ off.toNat) : regionOf off = .gap := by
  unfold regionOf
  rcases h with ⟨h1, h2⟩ | ⟨h1, h2⟩ | h1
  · rw [if_neg (by omega), if_neg (by omega), if_pos h2]
  · rw [if_neg (by omega), if_neg (by omega), if_neg (by omega), if_neg (by omega), if_pos h2]
  · rw [if_neg (by omega), if_neg (by omega), if_neg (by omega), if_neg (by omega), if_neg (by omega),
      if_neg (by omega), if_neg (by omega)]

theorem regionOf_cases (off : Offset) :
    (regionOf off = .reg ∧ off.toNat < 0x1000) ∨
    (regionOf off = .histw ∧ 0x1000 ≤ off.toNat ∧ off.toNat < 0x1400) ∨
    (regionOf off = .romw ∧ 0x2000 ≤ off.toNat ∧ off.toNat < 0x6000) ∨
    (regionOf off = .inw ∧ 0x10000 ≤ off.toNat ∧ off.toNat < 0x20000) ∨
    (regionOf off = .outw ∧ 0x20000 ≤ off.toNat ∧ off.toNat < 0x30000) ∨
    (regionOf off = .gap ∧ ((0x1400 ≤ off.toNat ∧ off.toNat < 0x2000) ∨
      (0x6000 ≤ off.toNat ∧ off.toNat < 0x10000) ∨ 0x30000 ≤ off.toNat)) := by
  by_cases h1 : off.toNat < 0x1000
  · exact .inl ⟨regionOf_reg h1, h1⟩
  by_cases h2 : off.toNat < 0x1400
  · exact .inr (.inl ⟨regionOf_histw (by omega) h2, by omega, h2⟩)
  by_cases h3 : 0x2000 ≤ off.toNat ∧ off.toNat < 0x6000
  · exact .inr (.inr (.inl ⟨regionOf_romw h3.1 h3.2, h3⟩))
  by_cases h4 : 0x10000 ≤ off.toNat ∧ off.toNat < 0x20000
  · exact .inr (.inr (.inr (.inl ⟨regionOf_inw h4.1 h4.2, h4⟩)))
  by_cases h5 : 0x20000 ≤ off.toNat ∧ off.toNat < 0x30000
  · exact .inr (.inr (.inr (.inr (.inl ⟨regionOf_outw h5.1 h5.2, h5⟩))))
  · have h6 : (0x1400 ≤ off.toNat ∧ off.toNat < 0x2000) ∨ (0x6000 ≤ off.toNat ∧ off.toNat < 0x10000) ∨
        0x30000 ≤ off.toNat := by omega
    exact .inr (.inr (.inr (.inr (.inr ⟨regionOf_gap h6, h6⟩))))

/-! ## The checks -/

theorem lowBits_eq_zero_iff (off : Offset) : off.extractLsb' 0 2 = 0 ↔ off.toNat % 4 = 0 := by
  rw [← BitVec.toNat_inj]
  simp [BitVec.extractLsb'_toNat]

theorem accessWidthLegal_narrow {a : Access} (h : a.width = 8) :
    accessWidthLegal a = decide (0x10000 ≤ a.off.toNat ∧ a.off.toNat ≤ 0x2FFFF) := by
  unfold accessWidthLegal
  rw [if_pos h]
  rcases regionOf_cases a.off with ⟨e, h'⟩ | ⟨e, h'⟩ | ⟨e, h'⟩ | ⟨e, h'⟩ | ⟨e, h'⟩ | ⟨e, h'⟩ <;> rw [e]
  · exact (decide_eq_false (by omega)).symm
  · exact (decide_eq_false (by omega)).symm
  · exact (decide_eq_false (by omega)).symm
  · exact (decide_eq_true (by omega)).symm
  · exact (decide_eq_true (by omega)).symm
  · exact (decide_eq_false (by omega)).symm

/-- The two checks of the bus pass exactly for a well-formed access (spec/20_memory.md R86, R87). -/
theorem checks_iff_wellFormed (a : Access) : (accessWidthLegal a && accessAligned a) = a.wellFormed := by
  cases a with
  | read8 off =>
    rw [accessWidthLegal_narrow rfl, accessAligned, if_neg (by simp [Access.width]), Bool.and_true]; rfl
  | write8 off v =>
    rw [accessWidthLegal_narrow rfl, accessAligned, if_neg (by simp [Access.width]), Bool.and_true]; rfl
  | read32 off =>
    have := lowBits_eq_zero_iff off
    by_cases h : off.toNat % 4 = 0 <;>
      simp_all [accessWidthLegal, accessAligned, Access.width, Access.off, Access.wellFormed]
  | write32 off v =>
    have := lowBits_eq_zero_iff off
    by_cases h : off.toNat % 4 = 0 <;>
      simp_all [accessWidthLegal, accessAligned, Access.width, Access.off, Access.wellFormed]

/-- A host access is BUSERR, a fault, or its effect. -/
theorem hostAccess_eq (a : Access) (s : State) :
    hostAccess a s = if a.wellFormed then s.perform a else .fault (.hostBusError a.off a.width) := by
  rw [← checks_iff_wellFormed]
  unfold hostAccess
  cases accessWidthLegal a <;> cases accessAligned a <;> rfl

/-- A host's word of a buffer, its unwritten bytes filled with draws (spec/20_memory.md R90, log 6). -/
theorem hostWord_of_fillDraws {m : Memory} {i d : Nat} {b0 b1 b2 b3 : Byte}
    (h : fillDraws d ([0, 1, 2, 3].map fun k => Memory.read m (i + k)) = [b0, b1, b2, b3]) :
    hostWord m i d = (b3 ++ b2 ++ b1 ++ b0, d + ([0, 1, 2, 3].map fun k => Memory.read m (i + k)).count none) := by
  simp only [List.map_cons, List.map_nil, Nat.add_zero] at h ⊢
  unfold hostWord hostByte
  cases e0 : Memory.read m i <;> cases e1 : Memory.read m (i + 1) <;> cases e2 : Memory.read m (i + 2) <;>
    cases e3 : Memory.read m (i + 3) <;> simp_all [fillDraws]

/-! ## Everything an access can do -/

/-- A read changes nothing but the response and the draw counter, which does not fall (spec/20_memory.md R92). -/
theorem perform_read32 (s : State) (off : Offset) :
    ∃ v d, s.draws ≤ d ∧ s.perform (.read32 off) = .next { s with busResp := .data32 v, draws := d } := by
  refine ⟨_, _, ?_, rfl⟩
  have hb : ∀ m i d, d ≤ (hostByte m i d).2 := by
    intro m i d
    unfold hostByte
    split <;> simp
  have hw : ∀ m i d, d ≤ (hostWord m i d).2 := fun m i d =>
    Nat.le_trans (Nat.le_trans (Nat.le_trans (hb m i d) (hb _ _ _)) (hb _ _ _)) (hb _ _ _)
  have ho : ∀ v, s.draws ≤ (s.output v).2 := by
    intro v
    unfold State.output
    split <;> simp
  unfold State.read32
  split
  · split
    · split
      · exact ho _
      · exact Nat.le_refl _
    · exact Nat.le_refl _
  · exact ho _
  · split
    · exact ho _
    · exact Nat.le_refl _
  · split
    · exact hw _ _ _
    · exact Nat.le_refl _
  · split
    · split
      · simp
      · exact hw _ _ _
    · exact Nat.le_refl _
  · exact Nat.le_refl _

theorem perform_read8 (s : State) (off : Offset) :
    ∃ v d, s.draws ≤ d ∧ s.perform (.read8 off) = .next { s with busResp := .data8 v, draws := d } := by
  refine ⟨_, _, ?_, rfl⟩
  have hb : ∀ m i d, d ≤ (hostByte m i d).2 := by
    intro m i d
    unfold hostByte
    split <;> simp
  unfold State.read8
  split
  · split
    · exact hb _ _ _
    · exact Nat.le_refl _
  · split
    · split
      · simp
      · exact hb _ _ _
    · exact Nat.le_refl _
  all_goals exact Nat.le_refl _

/-- What a write does to the state, before its response: nothing, bytes into a buffer inside its size, or the write
of a register. -/
inductive WriteEffect (s : State) (off : Offset) : State → Prop
  | nothing : WriteEffect s off s
  | input (bytes : List Byte) : s.status.busy = false → inIndex off < s.params.inSize →
      (bytes.length = 1 ∨ (bytes.length = 4 ∧ inIndex off % 4 = 0)) →
      WriteEffect s off { s with inBuf := Memory.writeList s.inBuf (inIndex off) bytes }
  | output (bytes : List Byte) : s.status.busy = false → outIndex off < s.params.outSize →
      (bytes.length = 1 ∨ (bytes.length = 4 ∧ outIndex off % 4 = 0)) →
      WriteEffect s off { s with outBuf := Memory.writeList s.outBuf (outIndex off) bytes }
  | register (r : Reg) (w : Word) : regAt off = some r → WriteEffect s off (s.writeReg r w)

theorem writeBytes_effect {s t : State} {off : Offset} {bytes : List Byte}
    (hl : bytes.length = 1 ∨ (bytes.length = 4 ∧ off.toNat % 4 = 0)) (h : s.writeBytes off bytes = .next t) :
    WriteEffect s off t := by
  unfold State.writeBytes at h
  rcases regionOf_cases off with ⟨e, h'⟩ | ⟨e, h'⟩ | ⟨e, h'⟩ | ⟨e, h'⟩ | ⟨e, h'⟩ | ⟨e, h'⟩ <;> rw [e] at h <;>
    simp only at h
  · cases h; exact .nothing
  · cases h; exact .nothing
  · cases h; exact .nothing
  · split at h
    · rename_i hi
      unfold State.writeBuffer at h
      split at h
      · cases h
      · rename_i hb
        cases h
        exact .input bytes (by simpa using hb) hi (by unfold inIndex; omega)
    · cases h; exact .nothing
  · split at h
    · rename_i hi
      unfold State.writeBuffer at h
      split at h
      · cases h
      · rename_i hb
        cases h
        exact .output bytes (by simpa using hb) hi (by unfold outIndex; omega)
    · cases h; exact .nothing
  · cases h; exact .nothing

/-- Everything a host access that answers a next state did: a read, or one of the write effects. A register is
written only by a Write32 at its own offset. -/
theorem hostAccess_next {a : Access} {s t : State} (h : hostAccess a s = .next t) :
    (∃ r d, t = { s with busResp := r, draws := d }) ∨
    (∃ u, WriteEffect s a.off u ∧ t = { u with busResp := .ok } ∧
      (∀ r w, a = .write32 a.off w → regAt a.off = some r → u = s.writeReg r w) ∧
      ((∃ w, a = .write32 a.off w) ∨ ∀ r, regAt a.off ≠ some r)) := by
  rw [hostAccess_eq] at h
  split at h
  · rename_i hwf
    cases a with
    | read8 off =>
      obtain ⟨v, d, _, e⟩ := perform_read8 s off
      rw [e] at h; cases h
      exact .inl ⟨_, _, rfl⟩
    | read32 off =>
      obtain ⟨v, d, _, e⟩ := perform_read32 s off
      rw [e] at h; cases h
      exact .inl ⟨_, _, rfl⟩
    | write8 off v =>
      right
      simp only [State.perform] at h
      cases hb : s.writeBytes off [v] with
      | fault f => rw [hb] at h; cases h
      | refused r => rw [hb] at h; cases h
      | next u =>
        rw [hb] at h; cases h
        refine ⟨u, writeBytes_effect (.inl rfl) hb, rfl, fun r w e => (by cases e), .inr ?_⟩
        simp only [Access.wellFormed, decide_eq_true_eq] at hwf
        intro r hr
        unfold regAt at hr
        simp only [Access.off] at hr
        split at hr <;> first | omega | cases hr
    | write32 off v =>
      right
      simp only [State.perform] at h
      simp only [Access.wellFormed, decide_eq_true_eq] at hwf
      cases hb : s.write32 off v with
      | fault f => rw [hb] at h; cases h
      | refused r => rw [hb] at h; cases h
      | next u =>
        rw [hb] at h; cases h
        have hreg : ∀ r, regAt off = some r → off.toNat < 0x1000 := by
          intro r hr
          unfold regAt at hr
          split at hr <;> first | omega | cases hr
        have hu : WriteEffect s off u ∧ ∀ r, regAt off = some r → u = s.writeReg r v := by
          unfold State.write32 at hb
          rcases regionOf_cases off with ⟨e, h'⟩ | ⟨e, h'⟩ | ⟨e, h'⟩ | ⟨e, h'⟩ | ⟨e, h'⟩ | ⟨e, h'⟩ <;>
            rw [e] at hb <;> simp only at hb
          · cases hr : regAt off with
            | none => rw [hr] at hb; cases hb; exact ⟨.nothing, fun r e => by cases e⟩
            | some r =>
              rw [hr] at hb; cases hb
              exact ⟨.register r v hr, fun r' e => by cases e; rfl⟩
          · cases hb; exact ⟨.nothing, fun r hr => by have := hreg r hr; omega⟩
          · cases hb; exact ⟨.nothing, fun r hr => by have := hreg r hr; omega⟩
          · exact ⟨writeBytes_effect (.inr ⟨rfl, hwf⟩) hb, fun r hr => by have := hreg r hr; omega⟩
          · exact ⟨writeBytes_effect (.inr ⟨rfl, hwf⟩) hb, fun r hr => by have := hreg r hr; omega⟩
          · cases hb; exact ⟨.nothing, fun r hr => by have := hreg r hr; omega⟩
        refine ⟨u, hu.1, rfl, ?_, .inl ⟨v, rfl⟩⟩
        intro r w e hr
        cases e
        exact hu.2 r hr
  · cases h

/-- Everything a step that answers a next state did: a run command ended (successfully or with an error, after its
body kept the host's side), nothing, reset, or a host access. -/
theorem step_next {s t : State} (h : step s = .next t) :
    (∃ rest, t = { s with events := rest }) ∨
    (∃ rest, t = State.applyReset { s with events := rest }) ∨
    (∃ i rest, s.seq = .run i ∧ exec i { s with events := rest } = .next t) ∨
    (∃ w rest, s.seq = .illegal w ∧ t = ({ s with events := rest }).raise false (.illegalCommand w)) ∨
    (∃ a rest, s.events = .access a :: rest ∧ hostAccess a { s with events := rest } = .next t) := by
  have turn : ∀ rest, coreTurn { s with events := rest } = .next t →
      (t = { s with events := rest }) ∨ (∃ i, s.seq = .run i ∧ exec i { s with events := rest } = .next t) ∨
      (∃ w, s.seq = .illegal w ∧ t = ({ s with events := rest }).raise false (.illegalCommand w)) := by
    intro rest h
    unfold coreTurn at h
    cases hs : s.seq with
    | idle => simp only [hs] at h; cases h; exact .inl (by rw [← hs])
    | run i => simp only [hs] at h; exact .inr (.inl ⟨i, rfl, h⟩)
    | illegal w =>
      simp only [hs, execIllegal] at h
      cases h
      exact .inr (.inr ⟨w, rfl, by rw [← hs]⟩)
  unfold step at h
  split at h
  · rename_i he
    have hs : s = { s with events := [] } := by rw [← he]
    rw [hs] at h
    rcases turn [] h with h | ⟨i, h1, h2⟩ | ⟨w, h1, h2⟩
    · exact .inl ⟨_, h⟩
    · exact .inr (.inr (.inl ⟨i, _, h1, h2⟩))
    · exact .inr (.inr (.inr (.inl ⟨w, _, h1, h2⟩)))
  · rename_i rest he
    rcases turn rest h with h | ⟨i, h1, h2⟩ | ⟨w, h1, h2⟩
    · exact .inl ⟨_, h⟩
    · exact .inr (.inr (.inl ⟨i, _, h1, h2⟩))
    · exact .inr (.inr (.inr (.inl ⟨w, _, h1, h2⟩)))
  · rename_i rest he
    cases h
    exact .inr (.inl ⟨rest, rfl⟩)
  · rename_i a rest he
    exact .inr (.inr (.inr (.inr ⟨a, rest, he, h⟩)))

end Sys2Proof.Machine
end

