-- ==== Sys2Proof/Laws/Encode.lean ====
section
/-! SUPPORT. The code table of a message, and ENCODE's steps before PACK (spec/45_composite.md R260). -/

namespace Sys2Proof.Machine

/-- What BUILD leaves when some counter is positive (spec/42_tree_builder.md R190 to R197). -/
theorem buildBody_done {s : State} (h : ∃ b, Hist.count s.hist b ≠ 0) :
    buildBody s = .done { s with
      rom := codeTable s.hist
      nsym := BitVec.ofNat 9 (Hist.present s.hist).length
      maxLen := BitVec.ofNat 8 (Rom.longest (codeTable s.hist))
      tableLen := BitVec.ofNat 16 (Rom.tableLength (codeTable s.hist)) } := by
  have hp : Hist.present s.hist ≠ [] := by
    obtain ⟨b, hb⟩ := h
    intro hc
    have : (b, Hist.count s.hist b) ∈ Hist.present s.hist := Hist.mem_present.2 ⟨rfl, hb⟩
    rw [hc] at this
    simp at this
  obtain ⟨root, h1, h2, h3⟩ := codeTable_spec s.hist hp
  rw [h2]
  simp [buildBody, h1, firstTooLong_none h3.clen_le]

theorem codeTable_of_empty {h : Hist} (hp : Hist.present h = []) : codeTable h = Rom.empty := by
  simp [codeTable, hp, seedLeaves, buildTree]

/-- A histogram's table: prefix-free, short codes, a size that fits TABLE_LEN, one code per present symbol. -/
theorem codeTable_good (h : Hist) :
    PrefixFree (codeTable h) ∧ (∀ b, Rom.clen (codeTable h) b ≤ 255) ∧ Rom.tableLength (codeTable h) ≤ 33407 ∧
      (Rom.entries (codeTable h)).length = (Hist.present h).length := by
  by_cases hp : Hist.present h = []
  · rw [codeTable_of_empty hp, hp]
    refine ⟨fun a b _ ha => absurd (Rom.code_empty a) ha, fun b => by simp [Rom.clen], ?_, by simp⟩
    simp [Rom.tableLength, entriesLength]
  · obtain ⟨root, _, h2, h3⟩ := codeTable_spec h hp
    have hperm := Rom.entries_ofEntries_perm h3.good.keys_nodup h3.good.1
    rw [h2]
    refine ⟨PrefixFree.ofEntries h3.good, h3.clen_le, ?_, ?_⟩
    · rw [Rom.tableLength, entriesLength_perm hperm]; exact h3.size
    · rw [hperm.length_eq, ← List.length_map (f := Prod.fst), h3.keys.length_eq, List.length_map]

/-- A nonempty histogram's table has a code of 0 bits only (spec/45_composite.md R263). -/
theorem codeTable_zero {h : Hist} (hp : Hist.present h ≠ []) :
    ∃ b d, 0 < d ∧ Rom.code (codeTable h) b = List.replicate d false := by
  obtain ⟨root, _, h2, h3⟩ := codeTable_spec h hp
  obtain ⟨b, d, hm⟩ := h3.allZero
  refine ⟨b, d, ?_, ?_⟩
  · have hne : List.replicate d false ≠ [] := h3.good.1 _ hm
    rcases d with _ | d
    · simp at hne
    · omega
  · rw [h2]; exact Rom.code_ofEntries_of_mem h3.good.keys_nodup hm

/-- The counts of a message. -/
theorem count_message {msg : List Byte} (h : msg.length ≤ countCap) (b : Byte) :
    (Hist.count (Hist.countBytes Hist.zero msg) b).toNat = msg.count b := by
  rw [Hist.count_countBytes (by rw [Hist.total_zero, Nat.zero_add]; exact h), Hist.count_zero]
  simp

theorem present_message {msg : List Byte} (h : msg.length ≤ countCap) :
    Hist.present (Hist.countBytes Hist.zero msg) = [] ↔ msg = [] := by
  constructor
  · intro hp
    rcases msg with _ | ⟨b, rest⟩
    · rfl
    · have hc := count_message h b
      have : (b, Hist.count (Hist.countBytes Hist.zero (b :: rest)) b) ∈
          Hist.present (Hist.countBytes Hist.zero (b :: rest)) := by
        refine Hist.mem_present.2 ⟨rfl, fun h0 => ?_⟩
        simp only at h0
        rw [h0] at hc
        simp at hc
      rw [hp] at this
      simp at this
  · rintro rfl
    apply List.eq_nil_iff_forall_not_mem.2
    intro e he
    obtain ⟨h1, h2⟩ := Hist.mem_present.1 he
    exact h2 (h1.trans (Hist.count_zero _))

/-- Every byte of a message has a code in its table. -/
theorem mapped_messageTable {msg : List Byte} (h : msg.length ≤ countCap) : Mapped (messageTable msg) msg := by
  intro b hb
  rw [messageTable, codeTable_code_ne_nil]
  intro h0
  have hc := count_message h b
  rw [h0] at hc
  have := List.count_pos_iff.2 hb
  have h00 : (0 : Word).toNat = 0 := rfl
  omega

/-- PACK of a message whose bytes all have codes: its two checks left, then the container. -/
theorem packBody_of_message {s : State} {msg : List Byte} (hl : msg.length = s.inLen.toNat)
    (hi : s.inLen.toNat ≤ s.params.inSize) (hm : HoldsAt s.inBuf 0 msg) (hc : Mapped s.rom msg) :
    packBody s =
      if 255 < Rom.tableLength s.rom then .raised (.tableTooLarge (Rom.tableLength s.rom)) s
      else if s.params.outSize < containerLength s.counted s.rom msg then
        .raised (.outOverflow (containerLength s.counted s.rom msg)) s
      else .done { s with
        outBuf := Memory.writeList s.outBuf 0 (container s.counted s.rom msg)
        outLen := BitVec.ofNat 17 (containerLength s.counted s.rom msg)
        tableLen := BitVec.ofNat 16 (Rom.tableLength s.rom)
        bitCnt := BitVec.ofNat 32 (messageBits s.rom msg).length
        bodyOff := BitVec.ofNat 17 (headerLength s.counted s.rom) } := by
  have hf := Memory.fetchMapped_of_holds hm hc
  rw [hl] at hf
  simp only [packBody, State.checkInLen_of_le hi, hf, gt_iff_lt]

/-- ENCODE's state when PACK begins (spec/45_composite.md R260). -/
def encodeReady (s : State) (msg : List Byte) : State :=
  { s with
    hist := Hist.countBytes Hist.zero msg
    rom := messageTable msg
    nsym := BitVec.ofNat 9 (Rom.entries (messageTable msg)).length
    maxLen := BitVec.ofNat 8 (Rom.longest (messageTable msg))
    tableLen := BitVec.ofNat 16 (Rom.tableLength (messageTable msg))
    bitCnt := 0
    bodyOff := 0
    outLen := 0 }

theorem encodePrefix_of_message {s : State} {msg : List Byte} (hl : msg.length = s.inLen.toNat)
    (hi : s.inLen.toNat ≤ s.params.inSize) (hm : HoldsAt s.inBuf 0 msg) :
    ((clearBody s).andThen histBody).andThen buildIfMessage = .done (encodeReady s msg) := by
  have hlt := s.inLen.isLt
  have hcap : msg.length ≤ countCap := by unfold countCap; omega
  have hf := Memory.fetchRange_of_holds hm
  rw [hl] at hf
  have hh : (clearBody s).andThen histBody = .done { s with
      hist := Hist.countBytes Hist.zero msg, rom := Rom.empty, nsym := 0, maxLen := 0, tableLen := 0, bitCnt := 0
      bodyOff := 0, outLen := 0 } := by
    rw [clearBody, Run.andThen_done, histBody]
    rw [State.checkInLen_of_le (by exact hi)]
    simp only [Hist.total_zero, hf]
    rw [if_neg (by unfold countCap; omega)]
  rw [hh, Run.andThen_done, buildIfMessage]
  by_cases h0 : msg = []
  · have hp := (present_message hcap).2 h0
    have hr : messageTable msg = Rom.empty := codeTable_of_empty hp
    have h0' : s.inLen.toNat = 0 := by rw [← hl, h0]; rfl
    rw [if_neg (by simp only; omega)]
    have hlo : Rom.longest Rom.empty = 0 :=
      Nat.le_zero.1 (Rom.longest_le_iff.2 fun b => by simp [Rom.clen])
    simp [encodeReady, hr, Rom.tableLength, entriesLength, hlo]
  · have hp : Hist.present (Hist.countBytes Hist.zero msg) ≠ [] := fun h => h0 ((present_message hcap).1 h)
    have hpos : 0 < msg.length := List.length_pos_iff.2 h0
    rw [if_pos (by simp only; omega), buildBody_done]
    · simp only [encodeReady, messageTable, (codeTable_good _).2.2.2]
    · obtain ⟨e, he⟩ := List.exists_mem_of_ne_nil _ hp
      obtain ⟨h1, h2⟩ := Hist.mem_present.1 he
      exact ⟨e.1, h1 ▸ h2⟩

theorem execEncode_of_message {s : State} {msg : List Byte} (hl : msg.length = s.inLen.toNat)
    (hi : s.inLen.toNat ≤ s.params.inSize) (hm : HoldsAt s.inBuf 0 msg) :
    exec .encode s = Run.finish .encode (packBody (encodeReady s msg)) := by
  rw [exec, execEncode, encodeBody, State.checkInLen_of_le hi, encodePrefix_of_message hl hi hm, Run.andThen_done]

end Sys2Proof.Machine
end

