-- ==== Sys2Proof/Laws/Decode.lean ====
section
/-! SUPPORT. LOADTAB of a header and WALK of a message's body (spec/44_decoder.md R230 to R238). -/

namespace Sys2Proof.Machine

/-- LOADTAB of a header of good entries (spec/30_encoding.md R135). -/
theorem loadtabBody_of_header {s : State} {entries : List (Byte × Code)} {n : Nat} (hg : GoodEntries entries)
    (ht : entriesLength entries ≤ 255) (h : HoldsAt s.inBuf 0 (headerBytes s.ctrl.fmt entries n))
    (hl : headerSize s.ctrl.fmt entries ≤ s.inLen.toNat) (hi : s.inLen.toNat ≤ s.params.inSize) :
    loadtabBody s = .done { s with
      rom := Rom.ofEntries entries
      nsym := BitVec.ofNat 9 entries.length
      maxLen := BitVec.ofNat 8 ((entries.map fun e => e.2.length).foldl max 0)
      tableLen := BitVec.ofNat 16 (entriesLength entries)
      bodyOff := BitVec.ofNat 17 (headerSize s.ctrl.fmt entries)
      bitCnt :=
        if s.ctrl.fmt then BitVec.ofNat 32 n
        else BitVec.ofNat 32 (8 * (s.inLen.toNat - headerSize s.ctrl.fmt entries)) } := by
  have hp : parse s.counted s.inBuf s.inLen.toNat = _ := parse_of_holds hg ht h hl
  simp only [loadtabBody, State.checkInLen_of_le hi, hp]
  cases hf : s.ctrl.fmt <;> simp [State.counted, hf, headerSize]

/-- WALK of the body of a message, counted format. -/
theorem walkBody_of_message {s : State} {msg : List Byte} (hf : s.ctrl.fmt = true) (hp : PrefixFree s.rom)
    (hm : Mapped s.rom msg) (hb : BodyHolds s.inBuf s.bodyOff.toNat (messageBits s.rom msg))
    (hn : s.bitCnt.toNat = (messageBits s.rom msg).length)
    (hl : s.inLen.toNat = s.bodyOff.toNat + ceilDiv8 (messageBits s.rom msg).length)
    (hi : s.inLen.toNat ≤ s.params.inSize) (ho : msg.length ≤ s.params.outSize) :
    walkBody s =
      .done { s with outBuf := Memory.writeList s.outBuf 0 msg, outLen := BitVec.ofNat 17 msg.length } := by
  have hk := walkBits_message (counted := s.counted) hp msg hm (n := 0) (k := 0) (out := s.outBuf)
    (outSize := s.params.outSize) (BitsAt.append.1 hb.bitsAt).1 (by rw [Nat.zero_add]; exact ho)
  rw [Nat.add_zero] at hk
  rw [walkBody_of_check hi (walkCheck_counted hf hb hn hl), hk]
  simp [walkBits, walkEnd]

/-- WALK of the body of a message, legacy format: z padding bits decode as z/d symbols whose code is d 0 bits. -/
theorem walkBody_of_padded {s : State} {msg : List Byte} {z d : Nat} {zero : Byte} (hf : s.ctrl.fmt = false)
    (hp : PrefixFree s.rom) (hm : Mapped s.rom msg) (hd : 0 < d) (hz : Rom.code s.rom zero = List.replicate d false)
    (hb : BodyHolds s.inBuf s.bodyOff.toNat (messageBits s.rom msg))
    (hpad : z = 8 * ceilDiv8 (messageBits s.rom msg).length - (messageBits s.rom msg).length)
    (hl : s.inLen.toNat = s.bodyOff.toNat + ceilDiv8 (messageBits s.rom msg).length)
    (hi : s.inLen.toNat ≤ s.params.inSize) (ho : msg.length + z / d ≤ s.params.outSize) :
    walkBody s = .done { s with
      outBuf := Memory.writeList (Memory.writeList s.outBuf 0 msg) msg.length (List.replicate (z / d) zero)
      outLen := BitVec.ofNat 17 (msg.length + z / d) } := by
  have hbits := hb.bitsAt
  rw [← hpad] at hbits
  obtain ⟨h1, h2⟩ := BitsAt.append.1 hbits
  have hk := walkBits_message (counted := s.counted) hp msg hm (n := z) (k := 0) (out := s.outBuf)
    (outSize := s.params.outSize) h1 (by rw [Nat.zero_add]; exact Nat.le_trans (Nat.le_add_right _ _) ho)
  have hk2 := walkBits_zeros (counted := s.counted) hp hd hz z (k := 0 + msg.length)
    (out := Memory.writeList s.outBuf 0 msg) (outSize := s.params.outSize) h2 (by omega)
  have hlen : 8 * (s.inLen.toNat - s.bodyOff.toNat) = (messageBits s.rom msg).length + z := by
    have : (messageBits s.rom msg).length ≤ 8 * ceilDiv8 (messageBits s.rom msg).length := by unfold ceilDiv8; omega
    omega
  rw [walkBody_of_check hi (walkCheck_legacy hf (by omega)), hlen, hk, hk2]
  simp [walkEnd, State.counted, hf]

/-- WALK of the codes of a message longer than OUT_SIZE, either format (spec/44_decoder.md R240). -/
theorem walkBody_of_overflow {s : State} {msg : List Byte} {n : Nat} (hp : PrefixFree s.rom) (hm : Mapped s.rom msg)
    (hb : BitsAt s.inBuf s.bodyOff.toNat 0 (messageBits s.rom msg)) (hi : s.inLen.toNat ≤ s.params.inSize)
    (hc : walkCheck s = .ok ((messageBits s.rom msg).length + n)) (ho : s.params.outSize < msg.length) :
    ∃ pos out, walkBody s = .raised (.outOverflow pos) { s with outBuf := out } := by
  obtain ⟨pos, out, h⟩ := walkBits_overflow (counted := s.counted) hp msg hm (n := n) (k := 0) (out := s.outBuf) hb
    (Nat.zero_le s.params.outSize) (by omega)
  exact ⟨pos, out, by rw [walkBody_of_check hi hc, h]⟩

theorem execDecode_of_le {s : State} (hi : s.inLen.toNat ≤ s.params.inSize) :
    exec .decode s = Run.finish .decode ((loadtabBody s).andThen walkBody) := by
  simp only [exec, execDecode, decodeBody, State.checkInLen_of_le hi]

end Sys2Proof.Machine
end

