-- ==== Sys2Proof/Laws/PerInstr.lean ====
section
/-! SUPPORT. Statements made per command, one lemma per constructor of Instr (spec/30_encoding.md R120 to R123). -/

namespace Sys2Proof.Laws.Encoding

/-- A command is well formed, its encoding is the table's match word with MBZ = 0, and that word decodes to it, from
the word itself and from the table's 32 bits. -/
def Statement (i : Instr) : Prop :=
  i.wellFormed = true ∧ encode i = Machine.matchWord i ∧ mbzField (encode i) = 0 ∧ opField (encode i) = opcode i ∧
  decode (encode i) = .ok i ∧ decodeTableWord 32 (encode i).toNat = some i

theorem nop : Statement .nop := by unfold Statement; decide
theorem clear : Statement .clear := by unfold Statement; decide
theorem hist : Statement .hist := by unfold Statement; decide
theorem build : Statement .build := by unfold Statement; decide
theorem pack : Statement .pack := by unfold Statement; decide
theorem loadtab : Statement .loadtab := by unfold Statement; decide
theorem walk : Statement .walk := by unfold Statement; decide
theorem encode : Statement .encode := by unfold Statement; decide
theorem decode : Statement .decode := by unfold Statement; decide

end Sys2Proof.Laws.Encoding
end

