-- ==== Sys2Proof/Tests/Slice0.lean ====
section
/-! SUPPORT. Tests on the vectors of spec/95_test_vectors.md, and a witness for the hypotheses of every
obligation. -/

set_option Elab.async false

namespace Sys2Proof.Tests

open Sys2Proof.Machine

/-! ## Builders -/

/-- The block of a given FMT with a message or a container loaded (spec/30_encoding.md R141, `ctrl` and `load`). -/
def loaded (fmt : Bool) (bytes : List Byte) : State :=
  { State.reset with
    ctrl := { fmt := fmt, ie := false }
    inBuf := Memory.writeList [] 0 bytes
    inLen := BitVec.ofNat 17 bytes.length }

/-- `s` with these codes in the ROM. -/
def withCodes (entries : List (Byte × Code)) (s : State) : State := { s with rom := Rom.ofEntries entries }

/-- `s` with HIST[b] = n and every other counter as it was. -/
def withCount (b : Byte) (n : Word) (s : State) : State := { s with hist := s.hist.set b.toNat n b.isLt }

/-- `s` with BODY_OFF and BITCNT as LOADTAB leaves them. -/
def withBody (off : Nat) (bits : Nat) (s : State) : State :=
  { s with bodyOff := BitVec.ofNat 17 off, bitCnt := BitVec.ofNat 32 bits }

/-- The step that runs a command: its word accepted, then the core's turn. -/
def runStep (i : Instr) (s : State) : Host.Outcome State Fault Refusal := step (s.accept (encode i))

/-- A property of the next state, false of a stop. -/
def onNext (o : Host.Outcome State Fault Refusal) (p : State → Bool) : Bool :=
  match o with
  | .next t => p t
  | .fault _ => false
  | .refused _ => false

/-- The next state, or `d` at a stop. -/
def nextOr (d : State) (o : Host.Outcome State Fault Refusal) : State :=
  match o with
  | .next t => t
  | .fault _ => d
  | .refused _ => d

theorem eq_next {o : Host.Outcome State Fault Refusal} {p : State → Bool} (d : State) (h : onNext o p = true) :
    o = .next (nextOr d o) ∧ p (nextOr d o) = true := by
  cases o <;> simp_all [onNext, nextOr]

/-- The first bytes of OUT_BUF. -/
def outBytes (s : State) (n : Nat) : List (Option Byte) := (List.range n).map (Memory.read s.outBuf)

/-- The error registers as the host reads them: STATUS, ERRCODE, ERRINFO. -/
def errRegs (s : State) : Nat × Nat × Nat := (s.status.word.toNat, s.errCode.word.toNat, s.errInfo.toNat)

/-- "aaaab". -/
def aaaab : List Byte := [0x61, 0x61, 0x61, 0x61, 0x62]

/-- The counted container of "aaaab" (spec/95_test_vectors.md S4). -/
def aaaabBox : List Byte := [0x06, 0x61, 0x01, 0x31, 0x62, 0x01, 0x30, 0x00, 0x00, 0x00, 0x05, 0xF0]

/-- The codes of "aaaab" (V3.3). -/
def abCodes : List (Byte × Code) := [(0x61, [true]), (0x62, [false])]

/-! ## Well-formedness -/

/-- R86: an 8-bit access outside 0x10000 to 0x2FFFF is ill formed. -/
theorem test_ill_formed_width :
    (Access.read8 0x00000).wellFormed = false ∧ (Access.write8 0x0FFFF 0).wellFormed = false ∧
    (Access.read8 0x30000).wellFormed = false ∧ (Access.write8 0x10000 0).wellFormed = true ∧
    (Access.read8 0x2FFFF).wellFormed = true := by decide

/-- R87: a misaligned 32-bit access is ill formed. -/
theorem test_ill_formed_alignment :
    (Access.read32 0x00001).wellFormed = false ∧ (Access.write32 0x10002 0).wellFormed = false ∧
    (Access.read32 0x3FFFF).wellFormed = false ∧ (Access.read32 0x3FFFC).wellFormed = true := by decide

/-- R8: a size that is no multiple of 4, below 4 or above 65536 is ill formed. -/
theorem test_ill_formed_params :
    (Params.mk 6 8).wellFormed = false ∧ (Params.mk 8 0).wellFormed = false ∧
    (Params.mk 65540 8).wellFormed = false ∧ (Params.mk 4 65536).wellFormed = true := by decide

/-! ## Decoding, from words written out bit by bit (spec/30_encoding.md R120, R121) -/

theorem test_decode_sequencer :
    decode 0b00000000000000000000000000000000 = .ok .nop ∧
    decode 0b00000000000000000000000000000001 = .ok .clear := by decide

theorem test_decode_units :
    decode 0b00000000000000000000000000000010 = .ok .hist ∧
    decode 0b00000000000000000000000000000011 = .ok .build ∧
    decode 0b00000000000000000000000000000100 = .ok .pack ∧
    decode 0b00000000000000000000000000000101 = .ok .loadtab ∧
    decode 0b00000000000000000000000000000110 = .ok .walk := by decide

theorem test_decode_composite :
    decode 0b00000000000000000000000000010000 = .ok .encode ∧
    decode 0b00000000000000000000000000010001 = .ok .decode := by decide

/-- R122, V1.3 to V1.5, and the ends of its ranges. -/
theorem test_decode_illegal :
    decode 0x00000100 = .error .mustBeZero ∧ decode 0x80000000 = .error .mustBeZero ∧
    decode 0x00000007 = .error .unlistedOpcode ∧ decode 0x0000000F = .error .unlistedOpcode ∧
    decode 0x00000012 = .error .unlistedOpcode ∧ decode 0x000000FF = .error .unlistedOpcode := by decide

theorem test_decode_table_word :
    decodeTableWord 32 0x11 = some .decode ∧ decodeTableWord 32 0x111 = none ∧
    decodeTableWord 8 0x105 = some .loadtab := by decide

/-! ## The commands -/

/-- V1.2: NOP after an error. -/
theorem test_nop_clears_error :
    onNext (runStep .nop (State.reset.failed 8 0 7)) (fun t => errRegs t == (2, 0, 0)) = true := by decide +kernel

/-- V1.6: CLEAR leaves CTRL, IN_LEN and OVR alone. -/
theorem test_clear :
    onNext (runStep .clear { withCodes abCodes (withCount 0x61 4 State.reset) with
        ctrl := { fmt := true, ie := true }, inLen := 99999, outLen := 12
        status := { busy := false, done := false, err := false, ovr := true } })
      (fun t => Hist.count t.hist 0x61 == 0 && Rom.code t.rom 0x61 == [] && t.outLen == 0 && t.inLen == 99999 &&
        t.ctrl == { fmt := true, ie := true } && t.status.word == 0xA) = true := by decide +kernel

/-- V2.4: HIST accumulates. -/
theorem test_hist_accumulates :
    onNext (runStep .hist (withCount 0x61 1 (withCount 0x62 1 (loaded true [0x61, 0x61]))))
      (fun t => Hist.count t.hist 0x61 == 3 && Hist.count t.hist 0x62 == 1 && Hist.total t.hist == 4) = true := by
  decide +kernel

/-- V2.5: HIST refuses to pass 2^32 - 1. -/
theorem test_hist_overflow :
    onNext (runStep .hist (withCount 0 0xFFFFFFFD (loaded true [1, 2, 3, 4, 5])))
      (fun t => errRegs t == (4, 7, 2) && Hist.count t.hist 1 == 0) = true := by decide +kernel

/-- V3.5: among equal counts the leaf pops before the younger internal node. -/
theorem test_build_tie :
    onNext (runStep .build (withCount 0x61 1 (withCount 0x62 1 (withCount 0x63 2 State.reset))))
      (fun t => Rom.code t.rom 0x63 == [false] && Rom.code t.rom 0x61 == [true, false] &&
        Rom.code t.rom 0x62 == [true, true] && t.nsym == 3 && t.maxLen == 2 && t.tableLen == 11) = true := by
  decide +kernel

/-- V3.2: one symbol gets the code "0". -/
theorem test_build_single :
    onNext (runStep .build (withCount 0x41 3 State.reset))
      (fun t => Rom.entries t.rom == [(0x41, [false])] && t.nsym == 1 && t.maxLen == 1 && t.tableLen == 3) = true := by
  decide +kernel

/-- V4.9: PACK of "abcc". -/
theorem test_pack :
    onNext (runStep .pack (withCodes [(0x61, [true, false]), (0x62, [true, true]), (0x63, [false])]
        (loaded true [0x61, 0x62, 0x63, 0x63])))
      (fun t => outBytes t 17 == [0x0B, 0x61, 0x02, 0x31, 0x30, 0x62, 0x02, 0x31, 0x31, 0x63, 0x01, 0x30, 0x00, 0x00,
        0x00, 0x06, 0xB0].map some && t.outLen == 17 && t.tableLen == 11 && t.bitCnt == 6 && t.bodyOff == 16) = true := by
  decide +kernel

/-- V4.11: a byte that has no code. -/
theorem test_pack_unmapped :
    onNext (runStep .pack (withCodes [(0x61, [false]), (0x62, [true])] (loaded true [0x61, 0x62, 0x63])))
      (fun t => errRegs t == (4, 5, 2) && t.outBuf == [] && t.outLen == 0) = true := by decide +kernel

/-- D1: LOADTAB of the container of "aaaab". -/
theorem test_loadtab :
    onNext (runStep .loadtab (loaded true aaaabBox))
      (fun t => Rom.entries t.rom == abCodes && t.nsym == 2 && t.maxLen == 1 && t.tableLen == 6 && t.bodyOff == 11 &&
        t.bitCnt == 5) = true := by decide +kernel

/-- M8: "0" is a prefix of "01". -/
theorem test_loadtab_not_prefix_free :
    onNext (runStep .loadtab (loaded true [0x07, 0x61, 0x01, 0x30, 0x62, 0x02, 0x30, 0x31]))
      (fun t => errRegs t == (4, 0x704, 4) && Rom.entries t.rom == []) = true := by decide +kernel

/-- D1: WALK after LOADTAB. -/
theorem test_walk :
    onNext (runStep .walk (withBody 11 5 (withCodes abCodes (loaded true aaaabBox))))
      (fun t => outBytes t 5 == aaaab.map some && t.outLen == 5) = true := by decide +kernel

/-- D9: a dead path is absorbing in the legacy format. -/
theorem test_walk_dead :
    onNext (runStep .walk (withBody 4 8 (withCodes [(0x41, [true])] (loaded false [0x03, 0x41, 0x01, 0x31, 0x80]))))
      (fun t => errRegs t == (2, 0, 0) && outBytes t 2 == [some 0x41, none] && t.outLen == 1) = true := by
  decide +kernel

/-- S4: ENCODE of "aaaab", counted format. -/
theorem test_encode :
    onNext (runStep .encode (loaded true aaaab))
      (fun t => outBytes t 12 == aaaabBox.map some && t.outLen == 12 && t.status.word == 2) = true := by
  decide +kernel

/-- D6: the legacy "abcc" over-decodes. -/
theorem test_decode_legacy :
    onNext (runStep .decode
        (loaded false [0x0B, 0x61, 0x02, 0x31, 0x30, 0x62, 0x02, 0x31, 0x31, 0x63, 0x01, 0x30, 0xB0]))
      (fun t => outBytes t 6 == [0x61, 0x62, 0x63, 0x63, 0x63, 0x63].map some && t.outLen == 6) = true := by
  decide +kernel

/-- M13: DEAD_PATH; the symbol decoded before it stays in OUT_BUF, OUT_LEN is 0. -/
theorem test_decode_dead_path :
    onNext (runStep .decode (loaded true [0x03, 0x41, 0x01, 0x31, 0x00, 0x00, 0x00, 0x02, 0x80]))
      (fun t => errRegs t == (4, 0xB04, 8) && outBytes t 1 == [some 0x41] && t.outLen == 0) = true := by
  decide +kernel

/-! ## The bus -/

/-- R90: byte lanes, from P2's word load; R81: a narrow register access is BUSERR. -/
theorem test_little_endian :
    onNext (step (State.reset.withNext (.access (.write32 0x10000 0x31016106))))
      (fun t => t.inBuf == [(0, 0x06), (1, 0x61), (2, 0x01), (3, 0x31)]) = true ∧
    onNext (step ((loaded true aaaabBox).withNext (.access (.read32 0x10008))))
      (fun t => t.busResp == .data32 0xF0050000) = true ∧
    onNext (step (State.reset.withNext (.access (.read8 0x00C)))) (fun _ => true) = false := by decide +kernel

/-- V1.8: a CMD write while busy is dropped and sets OVR. -/
theorem test_busy_write :
    onNext (step ((State.reset.accept 0x02).withNext (.access (.write32 0x008 0x01))))
      (fun t => t.seq == .run .hist && t.status.word == 9) = true := by decide +kernel

/-- After V3.11: CODEW[0] of 'A' (11 bits) is 0xFFC00000 and CLENW is 11 (spec/10_state.md R48). -/
theorem test_rom_window :
    codeWord (List.replicate 10 true ++ [false]) 0 = 0xFFC00000 ∧
    romSlot (List.replicate 10 true ++ [false]) 0 = 11 := by decide +kernel

/-! ## Witnesses: the hypotheses of each obligation can be met, each clause's at a boundary -/

/-- A state in which a command runs. -/
def busyState : State := State.reset.accept (encode .hist)

theorem witness_StepRunsDecodedCommand :
    busyState.seq = .run .hist ∧ busyState.events = [] ∧ State.reset.seq = .idle ∧ State.reset.events = [] ∧
    decode 0x10 = .ok .encode := by decide +kernel

theorem witness_CommandIssue :
    State.reset.seq = .idle ∧ busyState.seq ≠ .idle ∧ (0x11 : Word) = matchWord .decode ∧
    ∀ i, (0x12 : Word) ≠ matchWord i := by
  refine ⟨by decide +kernel, by decide +kernel, by decide, fun i => ?_⟩
  cases i <;> decide

theorem witness_IllegalCommandReportsTheWord :
    (∀ i, (0x100 : Word) ≠ matchWord i) ∧ State.reset.seq = .idle ∧ (State.reset.accept 0x07).seq = .illegal 0x07 := by
  refine ⟨fun i => ?_, by decide +kernel, by decide +kernel⟩
  cases i <;> decide

theorem witness_EveryCommandCompletes : WrittenBelow (loaded true aaaab).inBuf (loaded true aaaab).inLen.toNat := by
  unfold WrittenBelow
  decide

/-- IN_LEN = 1 and no byte of IN_BUF written. -/
def unwrittenState : State := { State.reset with inLen := 1 }

/-- `s` with `n` bytes of input, of which IN_BUF may hold fewer. -/
def withLen (n : Nat) (s : State) : State := { s with inLen := BitVec.ofNat 17 n }

/-- The hypotheses the clauses on an unwritten byte share. -/
def UnwrittenAt (s : State) (n : Nat) : Prop :=
  s.inLen.toNat ≤ s.params.inSize ∧ n < s.inLen.toNat ∧ Memory.read s.inBuf n = none

/-- A message cut after its first byte; the first byte; a table cut before its second entry; no bit count; a legacy body
cut after 8 bits, as many as OUT_SIZE; a counted body of 8 bits, and one of 9 without its last byte. -/
theorem witness_CommandStopsOnlyAtUnwrittenInput :
    (∃ f, exec .hist unwrittenState = .fault f) ∧
    (let s := withLen 2 (withCodes [(0x61, [false])] (loaded true [0x61]));
      UnwrittenAt s 1 ∧ WrittenBelow s.inBuf 1 ∧ Hist.total s.hist + s.inLen.toNat ≤ 2 ^ 32 - 1 ∧
      Rom.tableLength s.rom ≤ 255 ∧ ∀ i b, i < 1 → Memory.read s.inBuf i = some b → Rom.code s.rom b ≠ []) ∧
    UnwrittenAt unwrittenState 0 ∧
    (let s := withLen 6 (loaded true (5 :: serializeEntries [(0x61, [false])]));
      UnwrittenAt s 4 ∧ GoodEntries [(0x61, [false])] ∧ entriesLength [(0x61, [false])] + 2 ≤ (5 : Byte).toNat ∧
      1 + (5 : Byte).toNat ≤ s.inLen.toNat ∧ HoldsAt s.inBuf 0 (5 :: serializeEntries [(0x61, [false])]) ∧
      4 = 1 + entriesLength [(0x61, [false])]) ∧
    (let s := withLen 8 (loaded true (tableBytes [(0x61, [false])]));
      UnwrittenAt s 4 ∧ s.ctrl.fmt = true ∧ HoldsAt s.inBuf 0 (tableBytes [(0x61, [false])]) ∧
      1 + entriesLength [(0x61, [false])] + 4 ≤ s.inLen.toNat ∧ 4 = 1 + entriesLength [(0x61, [false])]) ∧
    (let s := withLen 2 { loaded false [0xFF] with params := { inSize := 65536, outSize := 8 } };
      UnwrittenAt s 1 ∧ s.ctrl.fmt = false ∧ s.bodyOff.toNat ≤ 1 ∧
      (∀ i, s.bodyOff.toNat ≤ i → i < 1 → Memory.read s.inBuf i ≠ none) ∧
      8 * (1 - s.bodyOff.toNat) ≤ s.params.outSize) ∧
    (let s := withBody 0 8 unwrittenState;
      UnwrittenAt s 0 ∧ s.ctrl.fmt = true ∧ s.bodyOff.toNat ≤ 0 ∧
      s.inLen.toNat - s.bodyOff.toNat = ceilDiv8 s.bitCnt.toNat ∧ s.bitCnt.toNat % 8 = 0 ∧ 0 = s.bodyOff.toNat) ∧
    (let s := withBody 0 9 (withLen 2 (loaded true [0xFF]));
      UnwrittenAt s 1 ∧ s.ctrl.fmt = true ∧ s.bodyOff.toNat ≤ 1 ∧
      s.inLen.toNat - s.bodyOff.toNat = ceilDiv8 s.bitCnt.toNat ∧ s.bitCnt.toNat % 8 ≠ 0 ∧
      1 = s.inLen.toNat - 1) := by
  unfold UnwrittenAt
  refine ⟨?_, ⟨by decide +kernel, by unfold WrittenBelow; decide, by decide +kernel, by decide +kernel, ?_⟩,
    by decide +kernel,
    ⟨by decide +kernel, by unfold GoodEntries; decide, by decide, by decide +kernel, HoldsAt.writeList _ _ _, by decide⟩,
    ⟨by decide +kernel, by decide +kernel, HoldsAt.writeList _ _ _, by decide +kernel, by decide⟩,
    ⟨by decide +kernel, by decide +kernel, by decide +kernel, ?_, by decide +kernel⟩, by decide +kernel,
    by decide +kernel⟩
  · have h : onNext (exec .hist unwrittenState) (fun _ => true) = false := by decide +kernel
    obtain ⟨r, e, _⟩ := exec_eq_finish .hist unwrittenState
    rw [e] at h ⊢
    cases r with
    | done t => simp [onNext] at h
    | raised c t => simp [onNext] at h
    | unwritten n => exact ⟨_, rfl⟩
  · intro i b hi hr
    obtain rfl : i = 0 := by omega
    obtain rfl : (0x61 : Byte) = b := Option.some.inj hr
    decide +kernel
  · intro i _ hi
    obtain rfl : i = 0 := by omega
    decide +kernel

theorem witness_CommandKeepsHostState : ∃ t, exec .nop State.reset = .next t := ⟨_, rfl⟩

theorem witness_CommandWritesOnlyItsResults :
    (∃ t, exec .nop State.reset = .next t) ∧ Instr.nop ∉ [Instr.clear, .hist, .encode] ∧
    Instr.nop ∉ [Instr.clear, .build, .loadtab, .encode, .decode] ∧
    Instr.nop ∉ [Instr.clear, .build, .pack, .loadtab, .encode, .decode] ∧
    Instr.nop ∉ [Instr.clear, .pack, .loadtab, .encode, .decode] ∧
    Instr.nop ∉ [Instr.clear, .pack, .walk, .encode, .decode] ∧ Instr.nop ∉ [Instr.pack, .walk, .encode, .decode] :=
  ⟨⟨_, rfl⟩, by decide, by decide, by decide, by decide, by decide, by decide⟩

/-- PACK's hypotheses on "aaaab" with its codes. -/
def packState : State := withCodes abCodes (loaded true aaaab)

theorem packState_holds : HoldsAt packState.inBuf 0 aaaab := HoldsAt.writeList _ _ _

theorem packState_mapped : Mapped packState.rom aaaab := by
  unfold Mapped
  decide +kernel

theorem witness_PackAndEncodeOutputFrame :
    packState.params.wellFormed = true ∧ (∃ t, exec .pack packState = .next t) ∧
    ∃ t, exec .encode (loaded true []) = .next t :=
  ⟨by decide +kernel,
    ⟨_, (eq_next packState (p := fun _ => true) (by decide +kernel)).1⟩,
    ⟨_, (eq_next packState (p := fun _ => true) (by decide +kernel)).1⟩⟩

/-- A one-byte counted container of an empty table and body. -/
def emptyBox : List Byte := [0x00, 0x00, 0x00, 0x00, 0x00]

theorem witness_WalkAndDecodeOutputFrame :
    (loaded true emptyBox).params.wellFormed = true ∧ (loaded true emptyBox).status.err = false ∧
    (∃ t, exec .decode (loaded true emptyBox) = .next t ∧ t.status.err = false) ∧
    ∃ t, exec .walk State.reset = .next t ∧ t.status.err = false := by
  have h1 := eq_next State.reset (o := exec .decode (loaded true emptyBox)) (p := fun t => !t.status.err)
    (by decide +kernel)
  have h2 := eq_next State.reset (o := exec .walk State.reset) (p := fun t => !t.status.err) (by decide +kernel)
  exact ⟨by decide +kernel, by decide +kernel, ⟨_, h1.1, by simpa using h1.2⟩, ⟨_, h2.1, by simpa using h2.2⟩⟩

theorem witness_BadLengthComesFirst :
    ({ State.reset with inLen := 65537 } : State).params.inSize <
      ({ State.reset with inLen := 65537 } : State).inLen.toNat := by decide +kernel

theorem witness_HistCountsTheMessage :
    aaaab.length = (loaded true aaaab).inLen.toNat ∧
    (loaded true aaaab).inLen.toNat ≤ (loaded true aaaab).params.inSize ∧
    Hist.total (loaded true aaaab).hist + aaaab.length ≤ 2 ^ 32 - 1 ∧ HoldsAt (loaded true aaaab).inBuf 0 aaaab :=
  ⟨by decide +kernel, by decide +kernel, by decide +kernel, HoldsAt.writeList _ _ _⟩

theorem witness_HistRefusesToOverflow :
    (withCount 0 0xFFFFFFFF (loaded true [1])).inLen.toNat ≤ (withCount 0 0xFFFFFFFF (loaded true [1])).params.inSize ∧
    Hist.total (withCount 0 0xFFFFFFFF (loaded true [1])).hist ≤ 2 ^ 32 - 1 ∧
    2 ^ 32 - 1 < Hist.total (withCount 0 0xFFFFFFFF (loaded true [1])).hist +
      (withCount 0 0xFFFFFFFF (loaded true [1])).inLen.toNat := by decide +kernel

theorem witness_HistIgnoresOrder :
    ([0x61, 0x62] : List Byte).Perm [0x62, 0x61] ∧
    ([0x61, 0x62] : List Byte).length = (loaded true [0x61, 0x62]).inLen.toNat ∧
    (loaded true [0x61, 0x62]).inLen.toNat ≤ (loaded true [0x61, 0x62]).params.inSize ∧
    Hist.total (loaded true [0x61, 0x62]).hist + ([0x61, 0x62] : List Byte).length ≤ 2 ^ 32 - 1 ∧
    HoldsAt (loaded true [0x61, 0x62]).inBuf 0 [0x61, 0x62] ∧
    HoldsAt (loaded true [0x62, 0x61]).inBuf 0 [0x62, 0x61] :=
  ⟨List.Perm.swap _ _ _, by decide +kernel, by decide +kernel, by decide +kernel, HoldsAt.writeList _ _ _,
    HoldsAt.writeList _ _ _⟩

theorem witness_BuildMakesAPrefixFreeCode : ∃ b, Hist.count (withCount 0xFF 1 State.reset).hist b ≠ 0 :=
  ⟨0xFF, by decide +kernel⟩

theorem witness_BuildOfAnEmptyHistogram : ∀ b, Hist.count State.reset.hist b = 0 := Hist.count_zero

theorem withCount_other {a b : Byte} {n : Word} {s : State} (h : b ≠ a) :
    Hist.count (withCount a n s).hist b = Hist.count s.hist b := by
  have hne : a.toNat ≠ b.toNat := fun e => h (BitVec.eq_of_toNat_eq e.symm)
  simp only [withCount, Hist.count, Vector.getElem_set]
  rw [if_neg hne]

theorem witness_BuildOfASingleSymbol :
    Hist.count (withCount 0x41 3 State.reset).hist 0x41 ≠ 0 ∧
    ∀ b, b ≠ 0x41 → Hist.count (withCount 0x41 3 State.reset).hist b = 0 :=
  ⟨by decide +kernel, fun b h => (withCount_other h).trans (Hist.count_zero b)⟩

/-- Two symbols with these counts. -/
def twoCounts (m n : Word) : State := withCount 0x62 n (withCount 0x61 m State.reset)

theorem twoCounts_other (m n : Word) {c : Byte} (h1 : c ≠ 0x61) (h2 : c ≠ 0x62) :
    Hist.count (twoCounts m n).hist c = 0 :=
  (withCount_other h2).trans ((withCount_other h1).trans (Hist.count_zero c))

/-- "abc" with the counts 1, 1 and n. -/
def threeCounts (n : Word) : State := withCount 0x63 n (twoCounts 1 1)

/-- "abcd" with the counts 1, 1, m and n. -/
def fourCounts (m n : Word) : State := withCount 0x64 n (threeCounts m)

/-- The hypotheses on the counts of "abcd". -/
def FourHyps (s : State) : Prop :=
  Hist.count s.hist 0x61 ≠ 0 ∧ PopsBefore s.hist 0x61 0x62 ∧ PopsBefore s.hist 0x62 0x63 ∧
  PopsBefore s.hist 0x63 0x64 ∧
  (Hist.count s.hist 0x64).toNat ≤ (Hist.count s.hist 0x61).toNat + (Hist.count s.hist 0x62).toNat

/-- Two symbols with equal and with falling counts; three where the leaf ties with the parent (V3.5), and where it is one
greater; four where every count is equal (V3.6), and where the last ties with the first parent. -/
theorem witness_BuildOfTwoSymbols :
    (0x61 : Byte).toNat < (0x62 : Byte).toNat ∧
    (Hist.count (twoCounts 1 1).hist 0x61 ≠ 0 ∧ Hist.count (twoCounts 1 1).hist 0x62 ≠ 0 ∧
      (Hist.count (twoCounts 1 1).hist 0x61).toNat ≤ (Hist.count (twoCounts 1 1).hist 0x62).toNat) ∧
    (Hist.count (twoCounts 2 1).hist 0x61 ≠ 0 ∧ Hist.count (twoCounts 2 1).hist 0x62 ≠ 0 ∧
      ¬(Hist.count (twoCounts 2 1).hist 0x61).toNat ≤ (Hist.count (twoCounts 2 1).hist 0x62).toNat) ∧
    (∀ m n c, c ≠ 0x61 → c ≠ 0x62 → Hist.count (twoCounts m n).hist c = 0) ∧
    (Hist.count (threeCounts 2).hist 0x61 ≠ 0 ∧ PopsBefore (threeCounts 2).hist 0x61 0x62 ∧
      PopsBefore (threeCounts 2).hist 0x62 0x63 ∧
      (Hist.count (threeCounts 2).hist 0x63).toNat ≤
        (Hist.count (threeCounts 2).hist 0x61).toNat + (Hist.count (threeCounts 2).hist 0x62).toNat) ∧
    (Hist.count (threeCounts 3).hist 0x61 ≠ 0 ∧ PopsBefore (threeCounts 3).hist 0x61 0x62 ∧
      PopsBefore (threeCounts 3).hist 0x62 0x63 ∧
      ¬(Hist.count (threeCounts 3).hist 0x63).toNat ≤
        (Hist.count (threeCounts 3).hist 0x61).toNat + (Hist.count (threeCounts 3).hist 0x62).toNat) ∧
    (∀ n c, c ≠ 0x61 → c ≠ 0x62 → c ≠ 0x63 → Hist.count (threeCounts n).hist c = 0) ∧
    FourHyps (fourCounts 1 1) ∧ FourHyps (fourCounts 1 2) ∧
    (∀ m n c, c ≠ 0x61 → c ≠ 0x62 → c ≠ 0x63 → c ≠ 0x64 → Hist.count (fourCounts m n).hist c = 0) := by
  unfold FourHyps PopsBefore
  exact ⟨by decide, by decide +kernel, by decide +kernel, fun m n _ h1 h2 => twoCounts_other m n h1 h2,
    by decide +kernel, by decide +kernel,
    fun _ _ h1 h2 h3 => (withCount_other h3).trans (twoCounts_other 1 1 h1 h2), by decide +kernel, by decide +kernel,
    fun _ _ _ h1 h2 h3 h4 => (withCount_other h4).trans ((withCount_other h3).trans (twoCounts_other 1 1 h1 h2))⟩

theorem witness_PackWritesTheContainer :
    packState.params.wellFormed = true ∧ aaaab.length = packState.inLen.toNat ∧
    packState.inLen.toNat ≤ packState.params.inSize ∧ HoldsAt packState.inBuf 0 aaaab ∧
    Mapped packState.rom aaaab ∧ Rom.tableLength packState.rom ≤ 255 ∧
    headerSize packState.ctrl.fmt (Rom.entries packState.rom) +
      ceilDiv8 (messageBits packState.rom aaaab).length ≤ packState.params.outSize :=
  ⟨by decide +kernel, by decide +kernel, by decide +kernel, packState_holds, packState_mapped, by decide +kernel,
    by decide +kernel⟩

/-- A table of 256 bytes: 254 code bits, one past the cap. -/
def longCode : State := withCodes [(0x61, List.replicate 254 true)] (loaded true aaaab)

/-- OUT_SIZE one word short of the container. -/
def shortOut : State := { packState with params := { inSize := 65536, outSize := 8 } }

theorem witness_PackErrorsChangeNoOutput :
    (longCode.inLen.toNat ≤ longCode.params.inSize ∧ 255 < Rom.tableLength longCode.rom) ∧
    ((loaded true [0x00]).inLen.toNat ≤ (loaded true [0x00]).params.inSize ∧
      Rom.tableLength (loaded true [0x00]).rom ≤ 255 ∧ HoldsAt (loaded true [0x00]).inBuf 0 ([] ++ [0x00]) ∧
      ([] : List Byte).length < (loaded true [0x00]).inLen.toNat ∧ Mapped (loaded true [0x00]).rom [] ∧
      Rom.code (loaded true [0x00]).rom 0x00 = []) ∧
    (shortOut.inLen.toNat ≤ shortOut.params.inSize ∧ Rom.tableLength shortOut.rom ≤ 255 ∧
      HoldsAt shortOut.inBuf 0 aaaab ∧ aaaab.length = shortOut.inLen.toNat ∧ Mapped shortOut.rom aaaab ∧
      shortOut.params.outSize < headerSize shortOut.ctrl.fmt (Rom.entries shortOut.rom) +
        ceilDiv8 (messageBits shortOut.rom aaaab).length) :=
  ⟨⟨by decide +kernel, by decide +kernel⟩,
    ⟨by decide +kernel, by decide +kernel, HoldsAt.writeList _ _ _, by decide +kernel, by simp [Mapped],
      by decide +kernel⟩,
    ⟨by decide +kernel, by decide +kernel, packState_holds, by decide +kernel, packState_mapped, by decide +kernel⟩⟩

theorem abCodes_good : GoodEntries abCodes := by
  unfold GoodEntries
  decide

theorem witness_LoadtabLoadsTheTable :
    GoodEntries abCodes ∧ entriesLength abCodes ≤ 255 ∧ 5 < 2 ^ 32 ∧
    HoldsAt (loaded true (headerBytes true abCodes 5)).inBuf 0 (headerBytes true abCodes 5) ∧
    headerSize true abCodes ≤ (loaded true (headerBytes true abCodes 5)).inLen.toNat ∧
    (loaded true (headerBytes true abCodes 5)).inLen.toNat ≤
      (loaded true (headerBytes true abCodes 5)).params.inSize :=
  ⟨abCodes_good, by decide, by decide, HoldsAt.writeList _ _ _, by decide +kernel, by decide +kernel⟩

/-- M2: the table overruns the container. -/
def overrunBox : State := loaded true [0x05, 0x61, 0x01, 0x30]

theorem witness_LoadtabErrorChangesNothing :
    overrunBox.status.err = false ∧ ∃ t, exec .loadtab overrunBox = .next t ∧ t.status.err = true := by
  have h := eq_next State.reset (o := exec .loadtab overrunBox) (p := fun t => t.status.err) (by decide +kernel)
  exact ⟨by decide +kernel, _, h⟩

/-- M10: no room for N. -/
def shortBox : State := loaded true (tableBytes [(0x41, [false])] ++ [0x00, 0x00])

theorem witness_LoadtabContainerErrors :
    (State.reset.inLen.toNat ≤ State.reset.params.inSize ∧ State.reset.inLen.toNat = 0) ∧
    (overrunBox.inLen.toNat ≤ overrunBox.params.inSize ∧ Memory.read overrunBox.inBuf 0 = some 0x05 ∧
      1 ≤ overrunBox.inLen.toNat ∧ overrunBox.inLen.toNat < 1 + (0x05 : Byte).toNat) ∧
    (shortBox.inLen.toNat ≤ shortBox.params.inSize ∧ GoodEntries [(0x41, [false])] ∧
      entriesLength [(0x41, [false])] ≤ 255 ∧ HoldsAt shortBox.inBuf 0 (tableBytes [(0x41, [false])]) ∧
      1 + entriesLength [(0x41, [false])] ≤ shortBox.inLen.toNat ∧ shortBox.ctrl.fmt = true ∧
      shortBox.inLen.toNat < 1 + entriesLength [(0x41, [false])] + 4) :=
  ⟨⟨by decide +kernel, by decide +kernel⟩,
    ⟨by decide +kernel, by decide +kernel, by decide +kernel, by decide +kernel⟩,
    ⟨by decide +kernel, by unfold GoodEntries; decide, by decide, (HoldsAt.append.1 (HoldsAt.writeList _ _ _)).1,
      by decide +kernel, by decide +kernel, by decide +kernel⟩⟩

/-- The common hypotheses of LoadtabEntryErrors, of the container loaded whole. -/
def EntryHyps (T : Byte) (entries : List (Byte × Code)) (tail : List Byte) : Prop :=
  (loaded true (T :: serializeEntries entries ++ tail)).inLen.toNat ≤ 65536 ∧
  1 + T.toNat ≤ (loaded true (T :: serializeEntries entries ++ tail)).inLen.toNat ∧ GoodEntries entries ∧
  entriesLength entries < T.toNat ∧
  HoldsAt (loaded true (T :: serializeEntries entries ++ tail)).inBuf 0 (T :: serializeEntries entries ++ tail)

/-- M3 to M9, one for each clause. -/
theorem witness_LoadtabEntryErrors :
    (EntryHyps 1 [] [0x61] ∧ (1 : Byte).toNat < entriesLength [] + 2) ∧
    (EntryHyps 2 [] [0x61, 0x00] ∧ entriesLength [] + 2 ≤ (2 : Byte).toNat) ∧
    (EntryHyps 3 [] [0x61, 0x02, 0x30] ∧ (3 : Byte).toNat < entriesLength [] + 2 + (0x02 : Byte).toNat) ∧
    (EntryHyps 3 [] ([0x61, 0x01] ++ ([].map bitByte ++ 0x01 :: [])) ∧
      entriesLength [] + 2 + (0x01 : Byte).toNat ≤ (3 : Byte).toNat ∧ ([] : Code).length < (0x01 : Byte).toNat ∧
      (0x01 : Byte) ≠ 0x30 ∧ (0x01 : Byte) ≠ 0x31) ∧
    (EntryHyps 6 [(0x61, [false])] ([0x61, 0x01] ++ ([true].map bitByte ++ [])) ∧
      entriesLength [(0x61, [false])] + 2 + (0x01 : Byte).toNat ≤ (6 : Byte).toNat ∧
      (0x61 : Byte) ∈ [((0x61 : Byte), [false])].map Prod.fst) ∧
    (EntryHyps 7 [(0x61, [false])] ([0x62, 0x02] ++ ([false, true].map bitByte ++ [])) ∧
      entriesLength [(0x61, [false])] + 2 + (0x02 : Byte).toNat ≤ (7 : Byte).toNat ∧
      (0x62 : Byte) ∉ [((0x61 : Byte), [false])].map Prod.fst ∧ ([false] : Code) <+: [false, true]) := by
  have hyps : ∀ (T : Byte) (entries : List (Byte × Code)) (tail : List Byte),
      (loaded true (T :: serializeEntries entries ++ tail)).inLen.toNat ≤ 65536 ∧
        1 + T.toNat ≤ (loaded true (T :: serializeEntries entries ++ tail)).inLen.toNat ∧
        entriesLength entries < T.toNat → GoodEntries entries → EntryHyps T entries tail :=
    fun T entries tail h hg => ⟨h.1, h.2.1, hg, h.2.2, HoldsAt.writeList _ _ _⟩
  have g0 : GoodEntries [] := by unfold GoodEntries; decide
  have g1 : GoodEntries [(0x61, [false])] := by unfold GoodEntries; decide
  exact ⟨⟨hyps _ _ _ (by decide +kernel) g0, by decide⟩, ⟨hyps _ _ _ (by decide +kernel) g0, by decide⟩,
    ⟨hyps _ _ _ (by decide +kernel) g0, by decide⟩,
    ⟨hyps _ _ _ (by decide +kernel) g0, by decide, by decide, by decide, by decide⟩,
    ⟨hyps _ _ _ (by decide +kernel) g1, by decide, by decide⟩,
    ⟨hyps _ _ _ (by decide +kernel) g1, by decide, by decide, by decide⟩⟩

/-- A body of these bits at offset 0, a ROM, and OUT_SIZE. -/
def bodyState (fmt : Bool) (entries : List (Byte × Code)) (bits : List Bool) (outSize : Nat) : State :=
  { withBody 0 bits.length (withCodes entries (loaded fmt (packBits 0 0 bits))) with
    params := { inSize := 65536, outSize := outSize } }

theorem bodyState_holds (fmt : Bool) (entries : List (Byte × Code)) (bits : List Bool) (outSize : Nat) :
    BodyHolds (bodyState fmt entries bits outSize).inBuf 0 bits := BodyHolds.of_packBits (HoldsAt.writeList _ _ _)

theorem ab_prefixFree : PrefixFree (Rom.ofEntries abCodes) := PrefixFree.ofEntries abCodes_good

theorem witness_WalkDecodesTheMessage :
    let s := bodyState true abCodes (messageBits (Rom.ofEntries abCodes) aaaab) 65536
    s.ctrl.fmt = true ∧ s.params.wellFormed = true ∧ PrefixFree s.rom ∧ Mapped s.rom aaaab ∧
    BodyHolds s.inBuf s.bodyOff.toNat (messageBits s.rom aaaab) ∧
    s.bitCnt.toNat = (messageBits s.rom aaaab).length ∧
    s.inLen.toNat = s.bodyOff.toNat + ceilDiv8 (messageBits s.rom aaaab).length ∧
    s.inLen.toNat ≤ s.params.inSize ∧ aaaab.length ≤ s.params.outSize :=
  ⟨by decide +kernel, by decide +kernel, ab_prefixFree, packState_mapped, bodyState_holds _ _ _ _, by decide +kernel,
    by decide +kernel, by decide +kernel, by decide +kernel⟩

/-- The one symbol that has a code in a table of one entry. -/
theorem only_code {a b : Byte} {c : Code} (h : Rom.code (Rom.ofEntries [(a, c)]) b ≠ []) : b = a := by
  by_contra hn
  exact h (Rom.code_ofEntries_of_not_mem (by simp) (by simpa using hn))

/-- The hypotheses the clauses on a legacy body share. -/
def LegacyHyps (s : State) (msg : List Byte) : Prop :=
  s.ctrl.fmt = false ∧ s.params.wellFormed = true ∧ PrefixFree s.rom ∧ Mapped s.rom msg ∧
  s.inLen.toNat ≤ s.params.inSize

/-- The hypotheses the clauses on a legacy body of `msg` and more bits share. -/
def TailHyps (s : State) (msg : List Byte) (bits tail : List Bool) : Prop :=
  LegacyHyps s msg ∧ bits = messageBits s.rom msg ++ tail ∧ bits.length % 8 = 0 ∧
  BodyHolds s.inBuf s.bodyOff.toNat bits ∧ s.inLen.toNat = s.bodyOff.toNat + bits.length / 8 ∧
  msg.length ≤ s.params.outSize

/-- S4, legacy: three padding bits decode as three b's; two bits of the code "000" are dropped; D9: a dead path at the
second bit, then six bits more; D12: at the first bit, with an empty ROM. -/
theorem witness_WalkLegacyOverDecodes :
    (let s := bodyState false abCodes (messageBits (Rom.ofEntries abCodes) aaaab) 8;
      LegacyHyps s aaaab ∧ Rom.code s.rom 0x62 = List.replicate 1 false ∧
      BodyHolds s.inBuf s.bodyOff.toNat (messageBits s.rom aaaab) ∧
      3 = 8 * ceilDiv8 (messageBits s.rom aaaab).length - (messageBits s.rom aaaab).length ∧
      s.inLen.toNat = s.bodyOff.toNat + ceilDiv8 (messageBits s.rom aaaab).length ∧
      aaaab.length + 3 / 1 ≤ s.params.outSize) ∧
    (let s := bodyState false [(0x61, [false, false, false])] (List.replicate 8 false) 4;
      TailHyps s [0x61, 0x61] (List.replicate 8 false) [false, false] ∧ InsideACode s.rom [false, false]) ∧
    (let s := bodyState false [(0x41, [true])] (true :: List.replicate 7 false) 4;
      TailHyps s [0x41] (true :: List.replicate 7 false) ([] ++ [false] ++ List.replicate 6 false) ∧
      InsideACode s.rom [] ∧ ∀ b, Rom.code s.rom b ≠ [] → ¬([] ++ [false]) <+: Rom.code s.rom b) ∧
    (let s := bodyState false [] (List.replicate 8 true) 4;
      TailHyps s [] (List.replicate 8 true) ([] ++ [true] ++ List.replicate 7 true) ∧ InsideACode s.rom [] ∧
      ∀ b, Rom.code s.rom b ≠ [] → ¬([] ++ [true]) <+: Rom.code s.rom b) := by
  have g1 : GoodEntries [(0x61, [false, false, false])] := by unfold GoodEntries; decide
  have g2 : GoodEntries [(0x41, [true])] := by unfold GoodEntries; decide
  have g3 : GoodEntries [] := by unfold GoodEntries; decide
  refine ⟨⟨⟨by decide +kernel, by decide +kernel, ab_prefixFree, packState_mapped, by decide +kernel⟩,
      by decide +kernel, bodyState_holds _ _ _ _, by decide +kernel, by decide +kernel, by decide +kernel⟩,
    ⟨⟨⟨by decide +kernel, by decide +kernel, PrefixFree.ofEntries g1, by unfold Mapped; decide +kernel,
        by decide +kernel⟩, by decide +kernel, by decide, bodyState_holds _ _ _ _, by decide +kernel,
        by decide +kernel⟩, .inr ⟨0x61, by decide +kernel, by decide +kernel⟩⟩,
    ⟨⟨⟨by decide +kernel, by decide +kernel, PrefixFree.ofEntries g2, by unfold Mapped; decide +kernel,
        by decide +kernel⟩, by decide +kernel, by decide, bodyState_holds _ _ _ _, by decide +kernel,
        by decide +kernel⟩, .inl rfl, fun b hb => ?_⟩,
    ⟨⟨⟨by decide +kernel, by decide +kernel, PrefixFree.ofEntries g3, by unfold Mapped; decide +kernel,
        by decide +kernel⟩, by decide +kernel, by decide, bodyState_holds _ _ _ _, by decide +kernel,
        by decide +kernel⟩, .inl rfl, fun b hb => absurd (Rom.code_empty b) hb⟩⟩
  rw [only_code hb]
  decide +kernel

/-- BODY_OFF past IN_LEN; a body a byte too long (M11); a padding bit of 1 (M12). -/
theorem witness_WalkStructuralErrors :
    (let s := withBody 1 0 State.reset;
      s.inLen.toNat ≤ s.params.inSize ∧ s.inLen.toNat < s.bodyOff.toNat) ∧
    (let s := withBody 0 8 (loaded true [0x00, 0x00]);
      s.inLen.toNat ≤ s.params.inSize ∧ s.bodyOff.toNat ≤ s.inLen.toNat ∧ s.ctrl.fmt = true ∧
        s.inLen.toNat - s.bodyOff.toNat ≠ ceilDiv8 s.bitCnt.toNat) ∧
    (let s := withBody 0 7 (loaded true [0x01]);
      s.inLen.toNat ≤ s.params.inSize ∧ s.bodyOff.toNat ≤ s.inLen.toNat ∧ s.ctrl.fmt = true ∧
        s.inLen.toNat - s.bodyOff.toNat = ceilDiv8 s.bitCnt.toNat ∧ s.bitCnt.toNat % 8 ≠ 0 ∧
        Memory.read s.inBuf (s.inLen.toNat - 1) = some 0x01 ∧
        (0x01 : Byte).toNat % 2 ^ (8 - s.bitCnt.toNat % 8) ≠ 0) := by decide +kernel

/-- M15: a code cut short; M13: a dead path at the second bit. -/
theorem witness_WalkPathErrors :
    (let s := bodyState true [(0x61, [false, false])] [false] 65536;
      s.ctrl.fmt = true ∧ PrefixFree s.rom ∧ Mapped s.rom [] ∧ BodyHolds s.inBuf s.bodyOff.toNat [false] ∧
      s.bitCnt.toNat = ([false] : List Bool).length ∧
      s.inLen.toNat = s.bodyOff.toNat + ceilDiv8 ([false] : List Bool).length ∧ s.inLen.toNat ≤ s.params.inSize ∧
      [false] = messageBits s.rom [] ++ [false] ∧ [false] <+: Rom.code s.rom 0x61 ∧
      ([false] : Code).length < Rom.clen s.rom 0x61) ∧
    (let s := bodyState true [(0x41, [true])] [true, false] 65536;
      s.ctrl.fmt = true ∧ PrefixFree s.rom ∧ Mapped s.rom [0x41] ∧ BodyHolds s.inBuf s.bodyOff.toNat [true, false] ∧
      s.bitCnt.toNat = ([true, false] : List Bool).length ∧
      s.inLen.toNat = s.bodyOff.toNat + ceilDiv8 ([true, false] : List Bool).length ∧
      s.inLen.toNat ≤ s.params.inSize ∧ ([0x41] : List Byte).length ≤ s.params.outSize ∧
      [true, false] = messageBits s.rom [0x41] ++ [] ++ [false] ++ [] ∧
      ∀ b, Rom.code s.rom b ≠ [] → ¬([] ++ [false]) <+: Rom.code s.rom b) := by
  have g1 : GoodEntries [(0x61, [false, false])] := by unfold GoodEntries; decide
  have g2 : GoodEntries [(0x41, [true])] := by unfold GoodEntries; decide
  refine ⟨⟨by decide +kernel, PrefixFree.ofEntries g1, by simp [Mapped], bodyState_holds _ _ _ _, by decide +kernel,
    by decide +kernel, by decide +kernel, by decide +kernel, by decide +kernel, by decide +kernel⟩,
    ⟨by decide +kernel, PrefixFree.ofEntries g2, by unfold Mapped; decide +kernel, bodyState_holds _ _ _ _,
      by decide +kernel, by decide +kernel, by decide +kernel, by decide +kernel, by decide +kernel, ?_⟩⟩
  intro b hb
  rw [only_code hb]
  decide +kernel

/-- OUT_SIZE = 4 (M19): the fifth symbol does not fit; in the legacy format with a body of whole bytes (M20). -/
theorem witness_WalkOutputOverflow :
    (let s := bodyState true [(0x41, [false])] [false, false, false, false, false] 4;
      PrefixFree s.rom ∧ Mapped s.rom ([0x41, 0x41, 0x41, 0x41] ++ [0x41]) ∧
      ([0x41, 0x41, 0x41, 0x41] : List Byte).length = s.params.outSize ∧
      BodyHolds s.inBuf s.bodyOff.toNat (messageBits s.rom ([0x41, 0x41, 0x41, 0x41] ++ [0x41]) ++ []) ∧
      s.inLen.toNat = s.bodyOff.toNat +
        ceilDiv8 (messageBits s.rom ([0x41, 0x41, 0x41, 0x41] ++ [0x41]) ++ []).length ∧
      s.ctrl.fmt = true ∧
      s.bitCnt.toNat = (messageBits s.rom ([0x41, 0x41, 0x41, 0x41] ++ [0x41]) ++ []).length ∧
      s.inLen.toNat ≤ s.params.inSize) ∧
    (let s := bodyState false [(0x41, [false])] (List.replicate 8 false) 4;
      PrefixFree s.rom ∧ Mapped s.rom ([0x41, 0x41, 0x41, 0x41] ++ [0x41]) ∧
      ([0x41, 0x41, 0x41, 0x41] : List Byte).length = s.params.outSize ∧
      BodyHolds s.inBuf s.bodyOff.toNat
        (messageBits s.rom ([0x41, 0x41, 0x41, 0x41] ++ [0x41]) ++ [false, false, false]) ∧
      s.inLen.toNat = s.bodyOff.toNat +
        ceilDiv8 (messageBits s.rom ([0x41, 0x41, 0x41, 0x41] ++ [0x41]) ++ [false, false, false]).length ∧
      s.ctrl.fmt = false ∧
      (messageBits s.rom ([0x41, 0x41, 0x41, 0x41] ++ [0x41]) ++ [false, false, false]).length % 8 = 0 ∧
      s.inLen.toNat ≤ s.params.inSize) := by
  have g : GoodEntries [(0x41, [false])] := by unfold GoodEntries; decide
  have e1 : messageBits (Rom.ofEntries [(0x41, [false])]) ([0x41, 0x41, 0x41, 0x41] ++ [0x41]) ++ [] =
      [false, false, false, false, false] := by decide +kernel
  have e2 : messageBits (Rom.ofEntries [(0x41, [false])]) ([0x41, 0x41, 0x41, 0x41] ++ [0x41]) ++
      [false, false, false] = List.replicate 8 false := by decide +kernel
  refine ⟨⟨PrefixFree.ofEntries g, by unfold Mapped; decide +kernel, by decide +kernel, ?_, by decide +kernel,
    by decide +kernel, by decide +kernel, by decide +kernel⟩,
    ⟨PrefixFree.ofEntries g, by unfold Mapped; decide +kernel, by decide +kernel, ?_, by decide +kernel,
      by decide +kernel, by decide +kernel, by decide +kernel⟩⟩
  · exact e1 ▸ bodyState_holds true [(0x41, [false])] [false, false, false, false, false] 4
  · exact e2 ▸ bodyState_holds false [(0x41, [false])] (List.replicate 8 false) 4

theorem witness_WalkLegacyHasNoPathError :
    let s := withBody 1 0 { State.reset with ctrl := { fmt := false, ie := false } }
    s.ctrl.fmt = false ∧ s.status.err = false ∧ ∃ t, exec .walk s = .next t ∧ t.status.err = true := by
  intro s
  have h := eq_next State.reset (o := exec .walk s) (p := fun t => t.status.err) (by decide +kernel)
  exact ⟨by decide +kernel, by decide +kernel, _, h⟩

/-- One message for ENCODE: "A". -/
def msgA : List Byte := [0x41]

theorem witness_EncodeWritesTheContainer :
    (loaded true msgA).params.wellFormed = true ∧ msgA.length = (loaded true msgA).inLen.toNat ∧
    (loaded true msgA).inLen.toNat ≤ (loaded true msgA).params.inSize ∧ HoldsAt (loaded true msgA).inBuf 0 msgA ∧
    Rom.tableLength (messageTable msgA) ≤ 255 ∧
    headerSize true (Rom.entries (messageTable msgA)) + ceilDiv8 (messageBits (messageTable msgA) msgA).length ≤
      (loaded true msgA).params.outSize :=
  ⟨by decide +kernel, by decide +kernel, by decide +kernel, HoldsAt.writeList _ _ _, by decide +kernel,
    by decide +kernel⟩

theorem witness_EncodeOfTheEmptyMessage : State.reset.inLen = 0 ∧ 5 ≤ State.reset.params.outSize := by
  decide +kernel

/-- 36 distinct bytes (V5.6): a table of 260 bytes. -/
def msg36 : List Byte := (List.range 36).map (BitVec.ofNat 8)

theorem witness_EncodeErrorsKeepTheTables :
    (msg36.length = (loaded true msg36).inLen.toNat ∧
      (loaded true msg36).inLen.toNat ≤ (loaded true msg36).params.inSize ∧
      HoldsAt (loaded true msg36).inBuf 0 msg36 ∧ 255 < Rom.tableLength (messageTable msg36)) ∧
    (let s : State := { loaded true msgA with params := { inSize := 65536, outSize := 8 } };
      msgA.length = s.inLen.toNat ∧ s.inLen.toNat ≤ s.params.inSize ∧ HoldsAt s.inBuf 0 msgA ∧
      Rom.tableLength (messageTable msgA) ≤ 255 ∧
      s.params.outSize < headerSize s.ctrl.fmt (Rom.entries (messageTable msgA)) +
        ceilDiv8 (messageBits (messageTable msgA) msgA).length) :=
  ⟨⟨by decide +kernel, by decide +kernel, HoldsAt.writeList _ _ _, by decide +kernel⟩,
    ⟨by decide +kernel, by decide +kernel, HoldsAt.writeList _ _ _, by decide +kernel, by decide +kernel⟩⟩

/-- The container of "aaaab", written as header and body. -/
def boxState : State :=
  loaded true (headerBytes true abCodes 5 ++ packBits 0 0 (messageBits (Rom.ofEntries abCodes) aaaab))

theorem witness_DecodeGivesTheMessage :
    boxState.ctrl.fmt = true ∧ boxState.params.wellFormed = true ∧ GoodEntries abCodes ∧
    entriesLength abCodes ≤ 255 ∧ (∀ b ∈ aaaab, b ∈ abCodes.map Prod.fst) ∧
    HoldsAt boxState.inBuf 0 (headerBytes true abCodes (messageBits (Rom.ofEntries abCodes) aaaab).length) ∧
    BodyHolds boxState.inBuf (headerSize true abCodes) (messageBits (Rom.ofEntries abCodes) aaaab) ∧
    boxState.inLen.toNat = headerSize true abCodes + ceilDiv8 (messageBits (Rom.ofEntries abCodes) aaaab).length ∧
    boxState.inLen.toNat ≤ boxState.params.inSize ∧ aaaab.length ≤ boxState.params.outSize := by
  have h := HoldsAt.append.1 (HoldsAt.writeList [] 0
    (headerBytes true abCodes 5 ++ packBits 0 0 (messageBits (Rom.ofEntries abCodes) aaaab)))
  have e : (messageBits (Rom.ofEntries abCodes) aaaab).length = 5 := by decide +kernel
  refine ⟨by decide +kernel, by decide +kernel, abCodes_good, by decide, by decide, ?_, ?_, by decide +kernel,
    by decide +kernel, by decide +kernel⟩
  · rw [e]; exact h.1
  · have := BodyHolds.of_packBits h.2
    rwa [headerBytes_length, Nat.zero_add] at this

/-- One symbol with the code "01" and a body of the one bit 0: the table loads, and WALK ends in TRUNCATED_CODE. -/
def truncatedBox : State := loaded true [0x04, 0x41, 0x02, 0x30, 0x31, 0x00, 0x00, 0x00, 0x01, 0x00]

theorem witness_DecodeTableErrorKeepsTheRom :
    (overrunBox.status.err = false ∧ ∃ u, exec .loadtab overrunBox = .next u ∧ u.status.err = true) ∧
    (truncatedBox.status.err = false ∧ (∃ u, exec .loadtab truncatedBox = .next u ∧ u.status.err = false) ∧
      ∃ t, exec .decode truncatedBox = .next t ∧ t.status.err = true ∧ t.errCode = { cause := 4, sub := 12 }) := by
  refine ⟨witness_LoadtabErrorChangesNothing, rfl, ?_, ?_⟩
  · have h := eq_next State.reset (o := exec .loadtab truncatedBox) (p := fun t => !t.status.err) (by decide +kernel)
    exact ⟨_, h.1, by simpa using h.2⟩
  · have h := eq_next State.reset (o := exec .decode truncatedBox)
      (p := fun t => t.status.err && decide (t.errCode = { cause := 4, sub := 12 })) (by decide +kernel)
    exact ⟨_, h.1, by simpa using h.2⟩

/-! ## The round trips: a message, the state after ENCODE, and the host's copy of its output -/

/-- A message in a block whose OUT_BUF has a given size. -/
def tripFrom (fmt : Bool) (msg : List Byte) (outSize : Nat) : State :=
  { loaded fmt msg with params := { inSize := 65536, outSize := outSize } }

/-- The state after ENCODE. -/
def tripMid (fmt : Bool) (msg : List Byte) (outSize : Nat) : State :=
  nextOr State.reset (exec .encode (tripFrom fmt msg outSize))

/-- `s` with the output of `t` copied into IN_BUF. -/
def copyOutput (s t : State) : State := { s with inBuf := t.outBuf, inLen := t.outLen }

/-- The hypotheses the two round trips share (spec/45_composite.md R262, R263). -/
def TripHyps (fmt : Bool) (s t u : State) (msg : List Byte) : Prop :=
  s.params.wellFormed = true ∧ s.ctrl.fmt = fmt ∧ msg.length = s.inLen.toNat ∧ s.inLen.toNat ≤ s.params.inSize ∧
  HoldsAt s.inBuf 0 msg ∧ exec .encode s = .next t ∧ s.status.err = false ∧ t.status.err = false ∧
  u.params = s.params ∧ u.ctrl.fmt = fmt ∧ u.inLen = t.outLen ∧ t.outLen.toNat ≤ s.params.inSize ∧
  (∀ i, i < t.outLen.toNat → Memory.read u.inBuf i = Memory.read t.outBuf i)

/-- The hypotheses hold of a copied output whenever ENCODE ends without an error; `p` is what else its state shows. -/
theorem tripHyps {fmt : Bool} {msg : List Byte} {outSize : Nat} {p : State → Bool}
    (hw : (tripFrom fmt msg outSize).params.wellFormed = true) (hl : msg.length = (tripFrom fmt msg outSize).inLen.toNat)
    (hi : (tripFrom fmt msg outSize).inLen.toNat ≤ 65536)
    (he : onNext (exec .encode (tripFrom fmt msg outSize))
      (fun t => !t.status.err && decide (t.outLen.toNat ≤ 65536) && p t) = true) :
    TripHyps fmt (tripFrom fmt msg outSize) (tripMid fmt msg outSize)
        (copyOutput (tripFrom fmt msg outSize) (tripMid fmt msg outSize)) msg ∧
      p (tripMid fmt msg outSize) = true := by
  have h := eq_next State.reset he
  rw [← tripMid] at h
  generalize tripMid fmt msg outSize = t at h
  simp only [Bool.and_eq_true, Bool.not_eq_true', decide_eq_true_eq] at h
  exact ⟨⟨hw, rfl, hl, hi, HoldsAt.writeList _ _ _, h.1, rfl, h.2.1.1, rfl, rfl, rfl, h.2.1.2, fun _ _ => rfl⟩, h.2.2⟩

/-- `n` times "A": one symbol, code "0", a container of 4 bytes (8 in the counted format) and the body. -/
def manyA (n : Nat) : List Byte := List.replicate n 0x41

/-- R262 where n = OUT_SIZE, and where n > OUT_SIZE and ENCODE's container still fits. -/
theorem witness_RoundTripCounted :
    (TripHyps true (tripFrom true (manyA 12) 12) (tripMid true (manyA 12) 12)
        (copyOutput (tripFrom true (manyA 12) 12) (tripMid true (manyA 12) 12)) (manyA 12) ∧
      (manyA 12).length = (tripFrom true (manyA 12) 12).params.outSize) ∧
    (TripHyps true (tripFrom true (manyA 13) 12) (tripMid true (manyA 13) 12)
        (copyOutput (tripFrom true (manyA 13) 12) (tripMid true (manyA 13) 12)) (manyA 13) ∧
      (tripFrom true (manyA 13) 12).params.outSize < (manyA 13).length) :=
  ⟨⟨(tripHyps (p := fun _ => true) (by decide) (by decide) (by decide) (by decide +kernel)).1, rfl⟩,
    ⟨(tripHyps (p := fun _ => true) (by decide) (by decide) (by decide) (by decide +kernel)).1, by decide⟩⟩

/-- What R263's e rests on for `manyA n`: the code "0" (d = 1) and N = n. -/
def oneZero (n : Nat) (t : State) : Bool :=
  decide (Rom.code t.rom 0x41 = List.replicate 1 false) && decide (t.bitCnt.toNat = n)

/-- R263 for the empty message; where n + e = OUT_SIZE (9 + 7 = 16); and where n + e > OUT_SIZE (9 + 7 > 12). -/
theorem witness_RoundTripLegacy :
    TripHyps false (tripFrom false [] 4) (tripMid false [] 4)
      (copyOutput (tripFrom false [] 4) (tripMid false [] 4)) [] ∧
    (TripHyps false (tripFrom false (manyA 9) 16) (tripMid false (manyA 9) 16)
        (copyOutput (tripFrom false (manyA 9) 16) (tripMid false (manyA 9) 16)) (manyA 9) ∧
      oneZero 9 (tripMid false (manyA 9) 16) = true ∧ manyA 9 ≠ [] ∧
      (manyA 9).length + (8 * ceilDiv8 9 - 9) / 1 = (tripFrom false (manyA 9) 16).params.outSize) ∧
    (TripHyps false (tripFrom false (manyA 9) 12) (tripMid false (manyA 9) 12)
        (copyOutput (tripFrom false (manyA 9) 12) (tripMid false (manyA 9) 12)) (manyA 9) ∧
      oneZero 9 (tripMid false (manyA 9) 12) = true ∧ manyA 9 ≠ [] ∧
      (tripFrom false (manyA 9) 12).params.outSize < (manyA 9).length + (8 * ceilDiv8 9 - 9) / 1) := by
  have h16 := tripHyps (fmt := false) (msg := manyA 9) (outSize := 16) (p := oneZero 9) (by decide) (by decide)
    (by decide) (by decide +kernel)
  have h12 := tripHyps (fmt := false) (msg := manyA 9) (outSize := 12) (p := oneZero 9) (by decide) (by decide)
    (by decide) (by decide +kernel)
  exact ⟨(tripHyps (p := fun _ => true) (by decide) (by decide) (by decide) (by decide +kernel)).1,
    ⟨h16.1, h16.2, by decide, by decide⟩, ⟨h12.1, h12.2, by decide, by decide⟩⟩

theorem witness_BusErrorExactlyWhenIllFormed :
    (Access.read8 0x0FFFF).wellFormed = false ∧ (Access.read8 0x10000).wellFormed = true ∧
    (Access.write32 0x00003 0).wellFormed = false ∧ (Access.write32 0x3FFFC 0).wellFormed = true := by decide

theorem witness_ReadsHaveNoSideEffects :
    (Access.read32 0x3FFFC).wellFormed = true ∧ (Access.read8 0x2FFFF).wellFormed = true := by decide

theorem witness_RegisterReads : State.reset.status.busy = false ∧ busyState.status.busy = true := by decide +kernel

theorem witness_HistWindow : State.reset.status.busy = false ∧ busyState.status.busy = true := by decide +kernel

theorem witness_RomWindow :
    State.reset.status.busy = false ∧ busyState.status.busy = true ∧
    Rom.clen (withCodes [(0xFF, List.replicate 255 true)] State.reset).rom 0xFF ≤ 255 ∧
    (0 < 8 ∧ 7 < 8) ∧ (31 < 32) ∧ (0 < 9 ∧ 8 < 9) ∧ (9 ≤ 9 ∧ 15 < 16) := by decide +kernel

theorem witness_BufferWrites :
    State.reset.params.wellFormed = true ∧ State.reset.status.busy = false ∧ 4 * 16383 < State.reset.params.inSize ∧
    4 * 16383 < State.reset.params.outSize ∧ 65535 < State.reset.params.inSize ∧
    65535 < State.reset.params.outSize := by decide +kernel

/-- IN_BUF and OUT_BUF of 4 bytes, all written. -/
def smallBlock : State :=
  { State.resetWith { inSize := 4, outSize := 4 } 0 [] with
    inBuf := Memory.writeList [] 0 [1, 2, 3, 4], outBuf := Memory.writeList [] 0 [5, 6, 7, 8] }

/-- The last byte of each buffer never written. -/
def partBlock : State :=
  { smallBlock with inBuf := Memory.writeList [] 0 [1, 2, 3], outBuf := Memory.writeList [] 0 [5, 6, 7] }

/-- A command running in such a block. -/
def busyBlock : State := partBlock.accept (encode .hist)

theorem witness_BufferReads :
    (smallBlock.params.wellFormed = true ∧ 4 * 0 < smallBlock.params.inSize ∧
      HoldsAt smallBlock.inBuf (4 * 0) [1, 2, 3, 4] ∧ 3 < smallBlock.params.inSize ∧
      Memory.read smallBlock.inBuf 3 = some 4 ∧ smallBlock.status.busy = false ∧
      4 * 0 < smallBlock.params.outSize ∧ HoldsAt smallBlock.outBuf (4 * 0) [5, 6, 7, 8] ∧
      3 < smallBlock.params.outSize ∧ Memory.read smallBlock.outBuf 3 = some 8) ∧
    (partBlock.params.wellFormed = true ∧ partBlock.status.busy = false ∧ 3 < partBlock.params.inSize ∧
      Memory.read partBlock.inBuf 3 = none ∧ 3 < partBlock.params.outSize ∧ Memory.read partBlock.outBuf 3 = none ∧
      [some 1, some 2, some 3, none] = [0, 1, 2, 3].map (fun k => Memory.read partBlock.inBuf (4 * 0 + k)) ∧
      fillDraws partBlock.draws [some 1, some 2, some 3, none] = [1, 2, 3, Config.freeByte partBlock.draws] ∧
      [some 5, some 6, some 7, none] = [0, 1, 2, 3].map (fun k => Memory.read partBlock.outBuf (4 * 0 + k)) ∧
      fillDraws partBlock.draws [some 5, some 6, some 7, none] = [5, 6, 7, Config.freeByte partBlock.draws]) ∧
    (busyBlock.params.wellFormed = true ∧ busyBlock.status.busy = true ∧ 4 * 0 < busyBlock.params.outSize ∧
      3 < busyBlock.params.outSize) :=
  ⟨⟨by decide +kernel, by decide +kernel, HoldsAt.writeList _ _ _, by decide +kernel, by decide +kernel,
      by decide +kernel, by decide +kernel, HoldsAt.writeList _ _ _, by decide +kernel, by decide +kernel⟩,
    ⟨by decide +kernel, by decide +kernel, by decide +kernel, by decide +kernel, by decide +kernel, by decide +kernel,
      by decide +kernel, rfl, by decide +kernel, rfl⟩, by decide +kernel⟩

/-- The ends of each range that holds nothing, of a block whose buffers are 4 bytes. -/
theorem witness_HoldsNothing :
    (∀ off ∈ [0x034, 0xFFC, 0x1400, 0x1FFC, 0x2024, 0x203C, 0x5FFC, 0x6000, 0xFFFC, 0x10004, 0x1FFFC, 0x20004,
        0x2FFFC, 0x30000, 0x3FFFC],
      off < 0x40000 ∧ off % 4 = 0 ∧
      ((0x034 ≤ off ∧ off < 0x1000) ∨ (0x1400 ≤ off ∧ off < 0x2000) ∨
        (0x2000 ≤ off ∧ off < 0x6000 ∧ 0x24 ≤ off % 0x40) ∨ (0x6000 ≤ off ∧ off < 0x10000) ∨
        (0x10000 + smallBlock.params.inSize ≤ off ∧ off < 0x20000) ∨
        (0x20000 + smallBlock.params.outSize ≤ off ∧ off < 0x30000) ∨ 0x30000 ≤ off)) ∧
    (∀ off ∈ [0x10004, 0x1FFFF, 0x20004, 0x2FFFF],
      (0x10000 + smallBlock.params.inSize ≤ off ∧ off < 0x20000) ∨
        (0x20000 + smallBlock.params.outSize ≤ off ∧ off < 0x30000)) ∧
    (∀ off ∈ [0x000, 0x030, 0x1000, 0x13FC, 0x2000, 0x5FFC],
      off % 4 = 0 ∧
      (off ∈ [0x000, 0x010, 0x014, 0x01C, 0x020, 0x024, 0x028, 0x02C, 0x030] ∨ (0x1000 ≤ off ∧ off < 0x1400) ∨
        (0x2000 ≤ off ∧ off < 0x6000))) := by decide +kernel

theorem witness_RegisterWrites : State.reset.status.busy = false ∧ busyState.status.busy = true := by decide +kernel

theorem witness_BufferWriteWhileBusyRefused :
    busyState.params.wellFormed = true ∧ busyState.status.busy = true ∧ 65535 < busyState.params.inSize ∧
    65535 < busyState.params.outSize ∧ 4 * 16383 < busyState.params.inSize ∧
    4 * 16383 < busyState.params.outSize := by decide +kernel

theorem witness_ResetValues : ∃ t, step (busyState.withNext .reset) = .next t := ⟨_, rfl⟩

/-- A step from reset, which the invariants' premises hold at. -/
theorem witness_StepKeeps : ∃ t, step State.reset = .next t := ⟨_, rfl⟩

theorem reset_statusInv : StatusInv State.reset := by unfold StatusInv; decide +kernel

theorem reset_bufferInv : BufferInv State.reset := by unfold BufferInv; decide +kernel

theorem reset_histInv : HistInv State.reset := by unfold HistInv; decide +kernel

theorem reset_errorInv : ErrorInv State.reset := by unfold ErrorInv; decide +kernel

theorem reset_romInv : RomInv State.reset := by
  have hc : ∀ b, Rom.code State.reset.rom b = [] := Rom.code_empty
  have hl : ∀ b, Rom.clen State.reset.rom b ≤ 255 := fun b => by simp [Rom.clen, hc]
  refine ⟨fun a b _ ha => absurd (hc a) ha, hl, ?_⟩
  decide +kernel

theorem witness_StepKeepsStatusInvariant : StatusInv State.reset ∧ ∃ t, step State.reset = .next t :=
  ⟨reset_statusInv, witness_StepKeeps⟩

theorem witness_StepKeepsBuffersCanonical : BufferInv State.reset ∧ ∃ t, step State.reset = .next t :=
  ⟨reset_bufferInv, witness_StepKeeps⟩

theorem witness_StepKeepsHistTotal : HistInv State.reset ∧ ∃ t, step State.reset = .next t :=
  ⟨reset_histInv, witness_StepKeeps⟩

theorem witness_StepKeepsRomInvariant : RomInv State.reset ∧ ∃ t, step State.reset = .next t :=
  ⟨reset_romInv, witness_StepKeeps⟩

theorem witness_StepKeepsErrorRegisters :
    StatusInv State.reset ∧ ErrorInv State.reset ∧ ∃ t, step State.reset = .next t :=
  ⟨reset_statusInv, reset_errorInv, witness_StepKeeps⟩

/-- A completion with IE set, at the core's turn and with no event to come; the CTRL write that unmasks a pending DONE;
an idle core, the STATUS write 6 and the CTRL write 0. -/
theorem witness_IrqRisesOnlyAtCompletionOrUnmask :
    (let s : State := { busyState with ctrl := { fmt := true, ie := true } };
      s.irq = false ∧ s.seq ≠ .idle ∧ s.ctrl.ie = true ∧ s.events = [] ∧ onNext (step s) State.irq = true ∧
      onNext (step (s.withNext .core)) State.irq = true) ∧
    (let s : State := { State.reset with
        status := { busy := false, done := true, err := false, ovr := false }
        events := [.access (.write32 0x004 0x3)] };
      s.irq = false ∧ onNext (step s) State.irq = true ∧ s.status.busy = false ∧ s.status.done = true) ∧
    State.reset.seq = .idle ∧ State.reset.status.busy = false ∧
    ((3 : Word).getLsbD 1 = true ∧ (6 : Word).getLsbD 1 = true ∧ (6 : Word).getLsbD 2 = true ∧
      (0 : Word).getLsbD 1 = false) := by decide +kernel

end Sys2Proof.Tests
end

section
/-! PROOFS. The bus checks decide the fault (spec/20_memory.md R81, R86, R87): an access that passes them answers or is
refused, and never faults. -/

namespace Sys2Proof.Machine

/-! ## An access that passed the checks never faults -/

theorem writeBuffer_ne_fault (s : State) (off : Offset) (t : State) (f : Fault) : s.writeBuffer off t ≠ .fault f := by
  unfold State.writeBuffer
  split <;> exact nofun

theorem writeBytes_ne_fault (s : State) (off : Offset) (bytes : List Byte) (f : Fault) :
    s.writeBytes off bytes ≠ .fault f := by
  unfold State.writeBytes
  split
  case h_1 | h_2 =>
    split
    · exact writeBuffer_ne_fault s off _ f
    · exact nofun
  all_goals exact nofun

theorem write32_ne_fault (s : State) (off : Offset) (v : Word) (f : Fault) : s.write32 off v ≠ .fault f := by
  unfold State.write32
  split
  case h_1 => split <;> exact nofun
  case h_2 | h_3 => exact writeBytes_ne_fault s off _ f
  all_goals exact nofun

@[simp] theorem respondOk_eq_fault_iff {o : Host.Outcome State Fault Refusal} {f : Fault} :
    respondOk o = .fault f ↔ o = .fault f := by
  cases o <;> simp [respondOk]

/-- The only faults of the bus are those of its two checks (spec/20_memory.md R81). -/
theorem perform_ne_fault (s : State) (a : Access) (f : Fault) : s.perform a ≠ .fault f := by
  cases a with
  | read8 off => exact nofun
  | read32 off => exact nofun
  | write8 off v => exact mt respondOk_eq_fault_iff.1 (writeBytes_ne_fault s off [v] f)
  | write32 off v => exact mt respondOk_eq_fault_iff.1 (write32_ne_fault s off v f)

/-! ## The step of an access -/

theorem step_access (s : State) (a : Access) : step (s.withNext (.access a)) = hostAccess a s := rfl

end Sys2Proof.Machine

namespace Sys2Proof

open Machine

/-- Settles O43: the checks agree with `Access.wellFormed` (`hostAccess_eq`), and what passes them never faults. -/
theorem busErrorExactlyWhenIllFormed : Obligations.BusErrorExactlyWhenIllFormed := by
  intro s a
  rw [step_access, hostAccess_eq]
  constructor
  · intro hbad
    rw [if_neg (by simp [hbad])]
  · intro hok f
    rw [if_pos hok]
    exact perform_ne_fault s a f

end Sys2Proof
end

section
/-! PROOFS. The decoder and the encoder are inverse to each other: a word is the MBZ field above the OP field, and a
command's word is the one with MBZ = 0 and the command's OP value (spec/30_encoding.md R120, R121). -/

namespace Sys2Proof

/-! ## The command words -/

/-- The table of spec/30_encoding.md R121, read both ways. -/
theorem commandOf_eq_some_iff {op : Byte} {i : Instr} : commandOf op = some i ↔ op = opcode i := by
  constructor
  · intro h
    unfold commandOf at h
    split at h
    case h_10 => cases h
    all_goals
      cases h
      exact BitVec.eq_of_toNat_eq ‹_›
  · rintro rfl
    cases i <;> rfl

/-- R120: the two fields make up the word. -/
theorem mbzField_append_opField (w : Word) : mbzField w ++ opField w = w :=
  BitVec.extractLsb'_append_extractLsb' (w := 24) (len := 8)

theorem mbzField_encode (i : Instr) : mbzField (encode i) = 0 := BitVec.extractLsb'_append_eq_left

theorem opField_encode (i : Instr) : opField (encode i) = opcode i := BitVec.extractLsb'_append_eq_right

theorem decode_eq_ok_iff_fields {w : Word} {i : Instr} :
    decode w = .ok i ↔ mbzField w = 0 ∧ opField w = opcode i := by
  rw [← commandOf_eq_some_iff]
  unfold decode
  split
  next hmbz => exact ⟨nofun, fun ⟨h0, _⟩ => absurd h0 hmbz⟩
  next hmbz => cases commandOf (opField w) <;> simp [of_not_not hmbz]

/-- R121, mask 0xFFFFFFFF: every bit of the word counts. -/
theorem decode_eq_ok_iff {w : Word} {i : Instr} : decode w = .ok i ↔ w = encode i := by
  rw [decode_eq_ok_iff_fields]
  constructor
  · rintro ⟨hmbz, hop⟩
    rw [← mbzField_append_opField w, hmbz, hop, encode]
  · rintro rfl
    exact ⟨mbzField_encode i, opField_encode i⟩

theorem encode_eq_matchWord (i : Instr) : encode i = Machine.matchWord i := by cases i <;> rfl

/-- Settles O3: `decode` inverts `encode` on all 32-bit words (`decode_eq_ok_iff`), and `encode` is the table. -/
theorem encodeDecodeAgree : Obligations.EncodeDecodeAgree := by
  refine ⟨fun w i => ?_, fun i => ⟨encode_eq_matchWord i, decode_eq_ok_iff.2 rfl⟩⟩
  rw [← encode_eq_matchWord]
  exact decode_eq_ok_iff

end Sys2Proof
end

section
/-! PROOFS. ENCODE of the empty message: its table has no entry and its body no bit, so PACK writes a header alone
(spec/30_encoding.md R136, spec/45_composite.md R260). -/

namespace Sys2Proof.Machine

/-! ## The container of an empty table -/

@[simp] theorem messageTable_nil : messageTable [] = Rom.empty :=
  codeTable_of_empty ((present_message (Nat.zero_le _)).2 rfl)

@[simp] theorem messageBits_nil (r : Rom) : messageBits r [] = [] := rfl

@[simp] theorem Rom.tableLength_empty : Rom.tableLength Rom.empty = 0 := by
  simp [Rom.tableLength, entriesLength]

@[simp] theorem headerLength_empty (counted : Bool) : headerLength counted Rom.empty = if counted then 5 else 1 := by
  cases counted <;> simp [headerLength]

@[simp] theorem containerLength_empty (counted : Bool) :
    containerLength counted Rom.empty [] = if counted then 5 else 1 := by
  simp [containerLength, ceilDiv8]

theorem containerLength_empty_le (counted : Bool) : containerLength counted Rom.empty [] ≤ 5 := by
  cases counted <;> simp

/-- R136: T = 0, in the counted format N = 0, and no body. -/
@[simp] theorem container_empty (counted : Bool) :
    container counted Rom.empty [] = if counted then [0x00, 0x00, 0x00, 0x00, 0x00] else [0x00] := by
  have hs : serialize Rom.empty = [0x00] := by simp [serialize, serializeEntries]
  cases counted <;> simp [container, hs, packBits, be32Bytes]

/-! ## ENCODE of the empty message -/

/-- PACK's two size checks pass, and ENCODE completes with the container of the empty table. -/
theorem execEncode_nil {s : State} (h0 : s.inLen = 0) (ho : 5 ≤ s.params.outSize) :
    exec .encode s = .next (State.complete { encodeReady s [] with
      outBuf := Memory.writeList s.outBuf 0 (container s.ctrl.fmt Rom.empty [])
      outLen := BitVec.ofNat 17 (containerLength s.ctrl.fmt Rom.empty [])
      tableLen := 0
      bitCnt := 0
      bodyOff := BitVec.ofNat 17 (headerLength s.ctrl.fmt Rom.empty) }) := by
  have hl : ([] : List Byte).length = s.inLen.toNat := by simp [h0]
  have hi : s.inLen.toNat ≤ s.params.inSize := by simp [h0]
  have hrom : (encodeReady s []).rom = Rom.empty := messageTable_nil
  have hfit : containerLength (encodeReady s []).counted Rom.empty [] ≤ (encodeReady s []).params.outSize :=
    (containerLength_empty_le _).trans ho
  rw [execEncode_of_message hl hi (HoldsAt.nil _ _),
    packBody_of_message (s := encodeReady s []) hl hi (HoldsAt.nil _ _) (List.forall_mem_nil _), hrom,
    Rom.tableLength_empty, if_neg (by omega), if_neg (Nat.not_lt.2 hfit), Run.finish_done]
  rfl

end Sys2Proof.Machine

namespace Sys2Proof

open Machine

/-- Settles O37: ENCODE writes the container of the empty table (`execEncode_nil`), whose bytes and lengths are
`container_empty`, `containerLength_empty` and `headerLength_empty`. -/
theorem encodeOfTheEmptyMessage : Obligations.EncodeOfTheEmptyMessage := by
  intro s h0 ho
  refine ⟨_, execEncode_nil h0 ho, ?_, ?_, rfl, ?_, rfl⟩
  · rw [← container_empty]
    exact HoldsAt.writeList _ _ _
  · cases s.ctrl.fmt <;> simp
  · cases s.ctrl.fmt <;> simp

end Sys2Proof
end

section
/-! PROOFS. Command control (spec/40_command_control.md): CHECK_IN_LEN (R164), the illegal word from its write to its
completion (R160, R161), NOP and CLEAR (R162, R163). -/

namespace Sys2Proof.Machine

/-! ## CHECK_IN_LEN -/

theorem State.raise_badLength_keepingOut (s : State) (n : Nat) : s.raise false (.badLength n) = s.failed 9 0 n := rfl

theorem State.raise_badLength_clearingOut (s : State) (n : Nat) : s.raise true (.badLength n) = s.failedOut 9 0 n := rfl

/-- R164: the body of each of the six commands opens with CHECK_IN_LEN, so it raises BadLength from the state it starts
in. -/
theorem exec_of_inSize_lt {s : State} (h : s.params.inSize < s.inLen.toNat) {i : Instr}
    (hi : i ∈ [Instr.hist, .loadtab, .pack, .walk, .encode, .decode]) :
    exec i s = .next (s.raise (writesOutBuf i) (.badLength s.inLen.toNat)) := by
  have hc := State.checkInLen_of_lt h
  cases i with
  | nop | clear | build => simp at hi
  | hist => rw [exec, execHist, histBody, hc, Run.finish_raised]
  | loadtab => rw [exec, execLoadtab, loadtabBody, hc, Run.finish_raised]
  | pack => rw [exec, execPack, packBody, hc, Run.finish_raised]
  | walk => rw [exec, execWalk, walkBody, hc, Run.finish_raised]
  | encode => rw [exec, execEncode, encodeBody, hc, Run.finish_raised]
  | decode => rw [exec, execDecode, decodeBody, hc, Run.finish_raised]

/-! ## The write of CMD -/

/-- R121, R122: a word that is no command's match word is kept in SEQ. -/
theorem seqOf_of_ne_matchWord {w : Word} (h : ∀ i, w ≠ matchWord i) : seqOf w = .illegal w := by
  unfold seqOf
  split
  next i hd => exact absurd ((decode_eq_ok_iff.1 hd).trans (encode_eq_matchWord i)) (h i)
  next => rfl

theorem State.issue_of_idle {s : State} (h : s.seq = .idle) (w : Word) : s.issue w = s.accept w := by
  rw [State.issue, h]

/-- Offset 0x008 is CMD, and its write is command issue (spec/10_state.md R33). -/
theorem writesWord_cmd (s : State) (w : Word) : WritesWord s 0x008 w (s.issue w) := by
  have hwf : (Access.write32 (BitVec.ofNat 18 0x008) w).wellFormed = true := rfl
  have hreg : regionOf (BitVec.ofNat 18 0x008) = .reg := regionOf_reg (by decide)
  rw [WritesWord, step_access, hostAccess_eq, if_pos hwf, State.perform, State.write32, hreg]
  rfl

/-! ## The core's turn -/

theorem step_core (s : State) : step (s.withNext .core) = coreTurn s := rfl

theorem coreTurn_of_illegal {s : State} {w : Word} (h : s.seq = .illegal w) :
    coreTurn s = .next (s.raise false (.illegalCommand w)) := by
  rw [coreTurn, h]
  rfl

/-! ## CLEAR -/

@[simp] theorem Rom.clen_empty (b : Byte) : Rom.clen Rom.empty b = 0 := by simp [Rom.clen]

end Sys2Proof.Machine

namespace Sys2Proof

open Machine

/-- Settles O13: each of the six raises BadLength at once (`exec_of_inSize_lt`); the last four write OUT_BUF, so taking
the error clears OUT_LEN. -/
theorem badLengthComesFirst : Obligations.BadLengthComesFirst := by
  intro s h
  constructor
  · intro i hi
    have hout : ∀ i ∈ [Instr.hist, .loadtab], writesOutBuf i = false := by decide
    rw [exec_of_inSize_lt h (List.mem_append_left _ hi), hout i hi, State.raise_badLength_keepingOut]
  · intro i hi
    have hout : ∀ i ∈ [Instr.pack, .walk, .encode, .decode], writesOutBuf i = true := by decide
    rw [exec_of_inSize_lt h (List.mem_append_right [Instr.hist, .loadtab] hi), hout i hi,
      State.raise_badLength_clearingOut]

/-- Settles O6: the idle block accepts the word with SEQ = RUN(ILLEGAL) for it, and the core's turn takes the error. -/
theorem illegalCommandReportsTheWord : Obligations.IllegalCommandReportsTheWord := by
  constructor
  · intro s w hw hidle
    have hseq : (s.accept w).seq = .illegal w := seqOf_of_ne_matchWord hw
    refine ⟨s.accept w, State.issue_of_idle hidle w ▸ writesWord_cmd s w, hseq, ?_⟩
    rw [step_core, coreTurn_of_illegal hseq]
    rfl
  · intro s w hseq
    rw [step_core, coreTurn_of_illegal hseq]
    rfl

/-- Settles O14: NOP's run is done in the state it starts in. -/
theorem nopOnlyCompletes : Obligations.NopOnlyCompletes := fun s => Run.finish_done .nop s

/-- Settles O15: CLEAR's body leaves HIST and the ROM empty, and its run completes. -/
theorem clearEmptiesTheUnits : Obligations.ClearEmptiesTheUnits := fun _ =>
  ⟨_, Run.finish_done .clear _, fun b => ⟨Hist.count_zero b, Rom.code_empty b, Rom.clen_empty b⟩, rfl⟩

end Sys2Proof
end

section
/-! PROOFS. The walker at the output's capacity: the symbol past OUT_SIZE is OutOverflow at the byte of the bit that
completes its code, with the symbols before it in OUT_BUF (spec/44_decoder.md R236, R240). -/

namespace Sys2Proof.Machine

/-! ## The walk up to the capacity -/

theorem messageBits_append_singleton (r : Rom) (msg : List Byte) (b : Byte) :
    messageBits r (msg ++ [b]) = messageBits r msg ++ Rom.code r b := by
  simp [messageBits]

/-- The message fills OUT_BUF from the root, and the last bit of the next code finds it full. -/
theorem walkBits_outOverflow {counted : Bool} {r : Rom} (hp : PrefixFree r) {msg : List Byte} {b : Byte}
    (hm : Mapped r (msg ++ [b])) {m out : Memory} {base n outSize : Nat} (ho : msg.length = outSize)
    (hb : BitsAt m base 0 (messageBits r (msg ++ [b]))) :
    walkBits counted (Rom.entries r) outSize m base ((messageBits r (msg ++ [b])).length + n) 0
        { cand := [], dead := false, k := 0, out := out } =
      .raised (.outOverflow (base + ((messageBits r (msg ++ [b])).length - 1) / 8)) (Memory.writeList out 0 msg) := by
  have hmsg : Mapped r msg := fun c hc => hm c (List.mem_append_left _ hc)
  have hcode : Rom.code r b ≠ [] := hm b (by simp)
  rw [messageBits_append_singleton, BitsAt.append] at hb
  obtain ⟨hbits, hlast⟩ := hb
  rw [messageBits_append_singleton, List.length_append, Nat.add_assoc,
    walkBits_message hp msg hmsg hbits (by omega), walkBits_code hp hcode hlast, if_pos (by omega), Nat.zero_add]

/-- R235: the structural checks pass on a body of whole bytes, or of BITCNT bits in the counted format. -/
theorem walkCheck_of_bodyHolds {s : State} {bits : List Bool} (hb : BodyHolds s.inBuf s.bodyOff.toNat bits)
    (hl : s.inLen.toNat = s.bodyOff.toNat + ceilDiv8 bits.length)
    (hcounted : s.ctrl.fmt = true → s.bitCnt.toNat = bits.length)
    (hlegacy : s.ctrl.fmt = false → bits.length % 8 = 0) : walkCheck s = .ok bits.length := by
  cases hf : s.ctrl.fmt with
  | true => exact walkCheck_counted hf hb (hcounted hf) hl
  | false =>
    have h8 := hlegacy hf
    have hlen : 8 * (s.inLen.toNat - s.bodyOff.toNat) = bits.length := by rw [hl, ceilDiv8]; omega
    rw [walkCheck_legacy hf (by omega), hlen]

/-- Taking OutOverflow keeps the OUT_BUF the walk reached and clears OUT_LEN (R240, R241). -/
theorem State.raise_outOverflow_clearingOut (s : State) (out : Memory) (n : Nat) :
    { s with outBuf := out }.raise true (.outOverflow n) = { s.failedOut 6 0 n with outBuf := out } := rfl

end Sys2Proof.Machine

namespace Sys2Proof

open Machine

/-- Settles O34: the checks pass (`walkCheck_of_bodyHolds`), the walk raises OutOverflow with the message written
(`walkBits_outOverflow`), and taking the error clears OUT_LEN. -/
theorem walkOutputOverflow : Obligations.WalkOutputOverflow := by
  intro s msg b more hp hm ho hb hl hcounted hlegacy hi
  have hc := walkCheck_of_bodyHolds hb hl hcounted hlegacy
  have hbits := (BitsAt.append.1 (BitsAt.append.1 hb.bitsAt).1).1
  rw [List.length_append] at hc
  refine ⟨{ s.failedOut 6 0 (s.bodyOff.toNat + ((messageBits s.rom (msg ++ [b])).length - 1) / 8) with
      outBuf := Memory.writeList s.outBuf 0 msg }, ?_, HoldsAt.writeList s.outBuf 0 msg, ?_, rfl⟩
  · rw [exec, execWalk, walkBody_of_check hi hc, walkBits_outOverflow hp hm ho hbits, Run.finish_raised,
      ← State.raise_outOverflow_clearingOut]
    rfl
  · have h := SameFrom.writeList s.outBuf 0 msg
    rwa [Nat.zero_add] at h

end Sys2Proof
end

section
/-! PROOFS. The invariants every step keeps (spec/10_state.md R34, R45, R47 to R51, R54, spec/60_exceptions.md R270 to
R275): an induction over what a step can do, said once, and each invariant's case for each effect. -/

namespace Sys2Proof.Machine

/-! ## What a command and a register write leave -/

/-- Every command that answers ends the run of a body that kept the host's side (spec/60_exceptions.md R274, R275). -/
theorem exec_next {i : Instr} {s t : State} (h : exec i s = .next t) :
    ∃ u, BodyKeeps s u ∧ (t = u.complete ∨ ∃ e, t = u.raise (writesOutBuf i) e) := by
  obtain ⟨r, hr, hlaw⟩ := exec_eq_finish i s
  rw [hr] at h
  cases r with
  | done u => cases h; exact ⟨u, hlaw, .inl rfl⟩
  | raised e u => cases h; exact ⟨u, hlaw, .inr ⟨e, rfl⟩⟩
  | unwritten n => cases h

/-- The effects of a register write (spec/10_state.md R31 to R43, spec/40_command_control.md R160). -/
inductive RegisterEffect (s : State) (w : Word) : State → Prop
  | ignored : RegisterEffect s w s
  | lost : RegisterEffect s w s.setOvr
  | ctrl : s.status.busy = false → RegisterEffect s w { s with ctrl := Ctrl.ofWord w }
  | inLen : s.status.busy = false → RegisterEffect s w { s with inLen := w.setWidth 17 }
  | accepted : s.seq = .idle → RegisterEffect s w (s.accept w)
  | acknowledged : RegisterEffect s w (s.writeStatus w)

theorem writeReg_effect (s : State) (r : Reg) (w : Word) : RegisterEffect s w (s.writeReg r w) := by
  cases r with
  | ctrl =>
    rw [State.writeReg, State.writeCtrl]
    split
    · exact .lost
    · exact .ctrl (Bool.eq_false_of_not_eq_true ‹_›)
  | inLen =>
    rw [State.writeReg, State.writeInLen]
    split
    · exact .lost
    · exact .inLen (Bool.eq_false_of_not_eq_true ‹_›)
  | cmd =>
    rw [State.writeReg, State.issue]
    split
    · exact .accepted ‹_›
    · exact .lost
    · exact .lost
  | status => exact .acknowledged
  | _ => exact .ignored

theorem seqOf_ne_idle (w : Word) : seqOf w ≠ .idle := by
  unfold seqOf
  split <;> exact nofun

/-! ## The induction over a step -/

/-- A predicate kept by each effect of a step is kept by the step; the events to come, the response and the draw
counter are the host's side and must not matter to it. -/
theorem step_preserves {I : State → Prop}
    (host : ∀ s r d rest, I s → I { s with busResp := r, draws := d, events := rest })
    (reset : ∀ s, I s → I s.applyReset)
    (command : ∀ s t i, s.seq = .run i → exec i s = .next t → I s → I t)
    (illegal : ∀ s w, s.seq = .illegal w → I s → I (s.raise false (.illegalCommand w)))
    (register : ∀ s t w, RegisterEffect s w t → I s → I t)
    (input : ∀ s i bytes, s.status.busy = false → i < s.params.inSize →
      (bytes.length = 1 ∨ (bytes.length = 4 ∧ i % 4 = 0)) → I s →
      I { s with inBuf := Memory.writeList s.inBuf i bytes })
    (output : ∀ s i bytes, s.status.busy = false → i < s.params.outSize →
      (bytes.length = 1 ∨ (bytes.length = 4 ∧ i % 4 = 0)) → I s →
      I { s with outBuf := Memory.writeList s.outBuf i bytes })
    {s t : State} (h : step s = .next t) (hs : I s) : I t := by
  have waiting : ∀ rest, I { s with events := rest } := fun rest => host s s.busResp s.draws rest hs
  rcases step_next h with ⟨rest, rfl⟩ | ⟨rest, rfl⟩ | ⟨i, rest, hrun, hexec⟩ | ⟨w, rest, hrun, rfl⟩ | ⟨a, rest, -, ha⟩
  · exact waiting rest
  · exact reset _ (waiting rest)
  · exact command { s with events := rest } t i hrun hexec (waiting rest)
  · exact illegal { s with events := rest } w hrun (waiting rest)
  · rcases hostAccess_next ha with ⟨r, d, rfl⟩ | ⟨u, hu, rfl, -⟩
    · exact host s r d rest hs
    · have hIu : I u := by
        cases hu with
        | nothing => exact waiting rest
        | input bytes hbusy hi hl => exact input _ _ bytes hbusy hi hl (waiting rest)
        | output bytes hbusy hi hl => exact output _ _ bytes hbusy hi hl (waiting rest)
        | register r w _ => exact register _ _ w (writeReg_effect _ r w) (waiting rest)
      exact host u .ok u.draws u.events hIu

/-! ## STATUS -/

theorem StatusInv.of_reset (s : State) : StatusInv s.applyReset := by simp [StatusInv]

/-- A command's end is idle: BUSY = 0, and DONE or ERR alone when both were 0 before (R274, R275). -/
theorem StatusInv.of_run {s t u : State} (hs : StatusInv s) (hbusy : s.seq ≠ .idle) (hk : BodyKeeps s u)
    (ht : t = u.complete ∨ ∃ b e, t = u.raise b e) : StatusInv t := by
  obtain ⟨hseq, -, hflags⟩ := hs
  obtain ⟨hdone, herr⟩ := hflags (hseq.2 hbusy)
  rcases ht with rfl | ⟨b, e, rfl⟩
  · simp [StatusInv, hk.status, herr]
  · simp [StatusInv, hk.status, hdone]

theorem StatusInv.of_register {s t : State} {w : Word} (h : RegisterEffect s w t) (hs : StatusInv s) :
    StatusInv t := by
  obtain ⟨hseq, hboth, hflags⟩ := hs
  cases h with
  | ignored | lost | ctrl | inLen => exact ⟨hseq, hboth, hflags⟩
  | accepted => simp [StatusInv, seqOf_ne_idle]
  | acknowledged =>
    refine ⟨hseq, ?_, fun hb => ?_⟩
    · simp only [State.writeStatus, State.acknowledge_status, Bool.and_eq_true]
      exact fun ⟨⟨hd, _⟩, he, _⟩ => hboth ⟨hd, he⟩
    · obtain ⟨hd, he⟩ := hflags hb
      simp [State.writeStatus, hd, he]

/-! ## The buffers -/

theorem BufferInv.of_reset {s : State} (hs : BufferInv s) : BufferInv s.applyReset :=
  ⟨hs.1, .nil, nofun, .nil, nofun⟩

theorem BufferInv.of_outKept {s t : State} (hi : t.inBuf = s.inBuf) (hk : OutKept s t) (hs : BufferInv s) :
    BufferInv t := by
  obtain ⟨hp, hwf, hin⟩ := hk
  obtain ⟨hsize, hwfIn, hinIn, hwfOut, hinOut⟩ := hs
  rw [BufferInv, hp, hi]
  exact ⟨hsize, hwfIn, hinIn, hwf hwfOut, hin hinOut⟩

/-- A run may be taken from a state that meets the invariant. -/
theorem Run.Ends.of_premise {I : State → Prop} {s : State} {r : Run} (h : I s → r.Ends (fun _ t => I t) s) :
    r.Ends (fun s t => I s → I t) s := by
  cases r with
  | done t => exact h
  | raised e t => exact h
  | unwritten n => trivial

/-- OUT_BUF stays canonical and within its size where a run keeps it so; IN_BUF is no command's to write. -/
theorem BufferInv.ends {n : Nat} {s : State} {r : Run} (hs : BufferInv s) (h : r.OutFrom n s) (hl : r.Lawful s) :
    r.Ends (fun _ t => BufferInv t) s := by
  cases r with
  | done t =>
    obtain ⟨hk, -⟩ := h
    exact hs.of_outKept (BodyKeeps.inBuf hl) hk
  | raised e t =>
    obtain ⟨hk, -⟩ := h
    exact hs.of_outKept (BodyKeeps.inBuf hl) hk
  | unwritten n => trivial

theorem BufferInv.of_exec {i : Instr} {s t : State} (h : exec i s = .next t) (hs : BufferInv s) : BufferInv t := by
  obtain ⟨u, hu, ht⟩ := exec_preserves (I := BufferInv) (fun _ hs => hs)
    (fun s => (histBody_writes s).mono fun t ht hs => by rw [ht]; exact hs)
    (fun s => (buildBody_writes s).mono fun t ht hs => by rw [ht]; exact hs)
    (fun s => .of_premise fun hs => hs.ends (packBody_out s hs.1) (packBody_lawful s))
    (fun s => (loadtabBody_writes s).mono fun t ht hs => by rw [ht]; exact hs)
    (fun s => .of_premise fun hs => hs.ends (walkBody_out s hs.1) (walkBody_lawful s)) h hs
  rcases ht with rfl | ⟨e, rfl⟩ <;> exact hu

theorem BufferInv.of_register {s t : State} {w : Word} (h : RegisterEffect s w t) (hs : BufferInv s) :
    BufferInv t := by
  cases h <;> exact hs

/-- A host write inside IN_BUF (spec/20_memory.md R84, R90). -/
theorem BufferInv.writeIn {s : State} {i : Nat} {bytes : List Byte} (hs : BufferInv s) (hi : i < s.params.inSize)
    (hl : bytes.length = 1 ∨ (bytes.length = 4 ∧ i % 4 = 0)) :
    BufferInv { s with inBuf := Memory.writeList s.inBuf i bytes } := by
  obtain ⟨hsize, hwf, hin, hout⟩ := hs
  obtain ⟨h4, -⟩ := Params.sizes hsize
  exact ⟨hsize, Memory.wf_writeList hwf i bytes, Memory.within_writeList hin bytes (by omega), hout⟩

/-- A host write inside OUT_BUF (spec/20_memory.md R85, R90). -/
theorem BufferInv.writeOut {s : State} {i : Nat} {bytes : List Byte} (hs : BufferInv s) (hi : i < s.params.outSize)
    (hl : bytes.length = 1 ∨ (bytes.length = 4 ∧ i % 4 = 0)) :
    BufferInv { s with outBuf := Memory.writeList s.outBuf i bytes } := by
  obtain ⟨hsize, hwfIn, hinIn, hwf, hin⟩ := hs
  obtain ⟨-, -, h4, -⟩ := Params.sizes hsize
  exact ⟨hsize, hwfIn, hinIn, Memory.wf_writeList hwf i bytes, Memory.within_writeList hin bytes (by omega)⟩

/-! ## HIST -/

theorem HistInv.of_zero {s : State} (h : s.hist = Hist.zero) : HistInv s := by
  rw [HistInv, h, Hist.total_zero]
  exact Nat.zero_le _

/-- R181: HIST refuses to pass the cap before it counts, so the total stays within it. -/
theorem histBody_histInv (s : State) : (histBody s).Ends (fun s t => HistInv s → HistInv t) s := by
  unfold histBody
  split
  · exact id
  split
  · exact id
  next hcap =>
    rcases Memory.fetchRange_cases s.inBuf s.inLen.toNat 0 with ⟨msg, hl, -, hf⟩ | ⟨i, -, -, -, hf⟩
    · rw [hf]
      intro _
      have hsum : Hist.total s.hist + msg.length ≤ countCap := by omega
      exact (Hist.total_countBytes hsum).trans_le hsum
    · rw [hf]
      trivial

theorem HistInv.of_exec {i : Instr} {s t : State} (h : exec i s = .next t) (hs : HistInv s) : HistInv t := by
  obtain ⟨u, hu, ht⟩ := exec_preserves (I := HistInv)
    (fun s _ => .of_zero rfl) histBody_histInv
    (fun s => (buildBody_writes s).mono fun t ht hs => by rw [ht]; exact hs)
    (fun s => (packBody_writes s).mono fun t ht hs => by rw [ht]; exact hs)
    (fun s => (loadtabBody_writes s).mono fun t ht hs => by rw [ht]; exact hs)
    (fun s => (walkBody_writes s).mono fun t ht hs => by rw [ht]; exact hs) h hs
  rcases ht with rfl | ⟨e, rfl⟩ <;> exact hu

theorem HistInv.of_register {s t : State} {w : Word} (h : RegisterEffect s w t) (hs : HistInv s) : HistInv t := by
  cases h <;> exact hs

/-! ## The code ROM -/

theorem Rom.entries_length_le (r : Rom) : (Rom.entries r).length ≤ 256 := by
  have h : (Rom.entries r).length = ((Rom.entries r).map Prod.fst).length := (List.length_map _).symm
  rw [h, ← symbols_length]
  exact ((Rom.entries_keys_nodup r).subperm fun s _ => mem_symbols s).length_le

/-- A ROM that fits, with NSYM, MAXLEN and TABLE_LEN set from it, has them true of it. -/
theorem RomInv.of_table {t : State} (hp : PrefixFree t.rom) (hc : ∀ b, Rom.clen t.rom b ≤ 255)
    (hsize : Rom.tableLength t.rom < 2 ^ 16) (hn : t.nsym = BitVec.ofNat 9 (Rom.entries t.rom).length)
    (hm : t.maxLen = BitVec.ofNat 8 (Rom.longest t.rom))
    (ht : t.tableLen = BitVec.ofNat 16 (Rom.tableLength t.rom)) : RomInv t := by
  have hlong : Rom.longest t.rom ≤ 255 := Rom.longest_le_iff.2 hc
  have hlen := Rom.entries_length_le t.rom
  refine ⟨hp, hc, ?_, ?_, ?_⟩
  · rw [hn, BitVec.toNat_ofNat, Nat.mod_eq_of_lt (by omega)]
  · rw [hm, BitVec.toNat_ofNat, Nat.mod_eq_of_lt (by omega)]
  · rw [ht, BitVec.toNat_ofNat, Nat.mod_eq_of_lt hsize]

theorem PrefixFree.empty : PrefixFree Rom.empty := fun a _ _ ha => absurd (Rom.code_empty a) ha

theorem Rom.longest_empty : Rom.longest Rom.empty = 0 :=
  Nat.le_zero.1 (Rom.longest_le_iff.2 fun b => (Rom.clen_empty b).le)

/-- CLEAR and reset empty the ROM and zero its registers (spec/40_command_control.md R163, spec/10_state.md R59). -/
theorem RomInv.of_empty {s : State} (hr : s.rom = Rom.empty) (hn : s.nsym = 0) (hm : s.maxLen = 0)
    (ht : s.tableLen = 0) : RomInv s := by
  rw [RomInv, hr, hn, hm, ht]
  exact ⟨PrefixFree.empty, fun b => (Rom.clen_empty b).trans_le (Nat.zero_le _), by simp, by simp [Rom.longest_empty],
    by simp⟩

/-- R190: BUILD of an empty histogram raises InvalidInput where it stands. -/
theorem buildBody_of_empty {s : State} (h : ∀ b, Hist.count s.hist b = 0) :
    buildBody s = .raised .invalidInput s := by
  have hp : Hist.present s.hist = [] := by
    refine List.eq_nil_iff_forall_not_mem.2 fun e he => ?_
    obtain ⟨hcount, hpos⟩ := Hist.mem_present.1 he
    exact hpos (hcount.trans (h e.1))
  simp [buildBody, hp, seedLeaves, buildTree]

/-- R190, R196, R197: BUILD raises, or writes the code table of HIST as a whole. -/
theorem buildBody_romInv (s : State) : (buildBody s).Ends (fun s t => RomInv s → RomInv t) s := by
  by_cases h : ∃ b, Hist.count s.hist b ≠ 0
  · obtain ⟨hp, hc, hsize, hlen⟩ := codeTable_good s.hist
    rw [buildBody_done h]
    exact fun _ => .of_table hp hc (hsize.trans_lt (by decide)) (by rw [hlen]) rfl rfl
  · rw [buildBody_of_empty (by simpa using h)]
    exact id

/-- R210: PACK writes to TABLE_LEN the table size that it has already. -/
theorem packBody_romInv (s : State) : (packBody s).Ends (fun s t => RomInv s → RomInv t) s := by
  unfold packBody
  split
  · exact id
  split
  · exact id
  next hsize =>
    split
    next stop _ => cases stop <;> [exact id; trivial]
    split
    · exact id
    · rintro ⟨hp, hc, hn, hm, -⟩
      refine ⟨hp, hc, hn, hm, ?_⟩
      exact (BitVec.toNat_ofNat _ _).trans (Nat.mod_eq_of_lt (by omega))

/-- The codes of a table of at most 255 bytes are short (spec/44_decoder.md R232). -/
theorem clen_ofEntries_le {entries : List (Byte × Code)} (hg : GoodEntries entries) (ht : entriesLength entries ≤ 255)
    (b : Byte) : Rom.clen (Rom.ofEntries entries) b ≤ 255 := by
  refine Rom.longest_le_iff.1 ?_ b
  rw [longest_ofEntries hg.keys_nodup, foldl_max_le]
  refine ⟨Nat.zero_le _, fun x hx => ?_⟩
  obtain ⟨e, he, rfl⟩ := List.mem_map.1 hx
  exact (Nat.le_add_left _ 2).trans ((code_length_of_entriesLength he).trans ht)

/-- A ROM of good entries, its registers set from them. -/
theorem RomInv.of_entries {t : State} {entries : List (Byte × Code)} (hg : GoodEntries entries)
    (ht : entriesLength entries ≤ 255) (hr : t.rom = Rom.ofEntries entries) (hn : t.nsym = BitVec.ofNat 9 entries.length)
    (hm : t.maxLen = BitVec.ofNat 8 ((entries.map fun e => e.2.length).foldl max 0))
    (htab : t.tableLen = BitVec.ofNat 16 (entriesLength entries)) : RomInv t := by
  have hperm := Rom.entries_ofEntries_perm hg.keys_nodup hg.1
  have hsize : Rom.tableLength t.rom = entriesLength entries := by
    rw [hr]
    exact entriesLength_perm hperm
  refine .of_table (hr ▸ PrefixFree.ofEntries hg) (hr ▸ clen_ofEntries_le hg ht) (by omega) ?_ ?_ ?_
  · rw [hn, hr, hperm.length_eq]
  · rw [hm, hr, longest_ofEntries hg.keys_nodup]
  · rw [htab, hsize]

/-- R230: LOADTAB raises, or writes a table of good entries as a whole. -/
theorem loadtabBody_romInv (s : State) : (loadtabBody s).Ends (fun s t => RomInv s → RomInv t) s := by
  unfold loadtabBody
  split
  · exact id
  split
  next stop _ => cases stop <;> [exact id; trivial]
  next r hparse =>
    obtain ⟨hgood, htab, hle, -⟩ := parse_ok hparse
    exact fun _ => .of_entries hgood (htab ▸ hle) rfl rfl rfl (htab ▸ rfl)

theorem RomInv.of_exec {i : Instr} {s t : State} (h : exec i s = .next t) (hs : RomInv s) : RomInv t := by
  obtain ⟨u, hu, ht⟩ := exec_preserves (I := RomInv) (fun s _ => .of_empty rfl rfl rfl rfl)
    (fun s => (histBody_writes s).mono fun t ht hs => by rw [ht]; exact hs)
    buildBody_romInv packBody_romInv loadtabBody_romInv
    (fun s => (walkBody_writes s).mono fun t ht hs => by rw [ht]; exact hs) h hs
  rcases ht with rfl | ⟨e, rfl⟩ <;> exact hu

/-- MAXLEN is the greatest CLEN, and some symbol's. -/
theorem RomInv.maxLen_spec {s : State} (hs : RomInv s) :
    (∀ b, Rom.clen s.rom b ≤ s.maxLen.toNat) ∧ ∃ b, Rom.clen s.rom b = s.maxLen.toNat := by
  obtain ⟨-, -, -, hmax, -⟩ := hs
  rw [hmax]
  exact ⟨Rom.clen_le_longest s.rom, Rom.longest_mem s.rom⟩

theorem RomInv.of_register {s t : State} {w : Word} (h : RegisterEffect s w t) (hs : RomInv s) : RomInv t := by
  cases h <;> exact hs

/-! ## ERRCODE and ERRINFO -/

theorem ErrorInv.of_reset (s : State) : ErrorInv s.applyReset := by simp [ErrorInv]

/-- Taking an error sets legal codes; DONE was 0 (R270, R271, R275). -/
theorem ErrorInv.of_raise {s : State} (b : Bool) (e : CmdError) (hd : s.status.done = false) :
    ErrorInv (s.raise b e) := by
  obtain ⟨hne, hcause, hsub, hmal⟩ := e.codes_legal
  exact ⟨hcause, hsub, hmal, fun _ => hne, by simp [hd]⟩

/-- While a command runs the codes are 0 and ERR is 0, which a successful end keeps (R274). -/
theorem ErrorInv.of_run {s t u : State} (hs : ErrorInv s) (hst : StatusInv s) (hrun : s.seq ≠ .idle)
    (hk : BodyKeeps s u) (ht : t = u.complete ∨ ∃ b e, t = u.raise b e) : ErrorInv t := by
  obtain ⟨hseq, -, hflags⟩ := hst
  obtain ⟨hcause, hsub, hmal, herr, hzero⟩ := hs
  have hbusy := hseq.2 hrun
  rcases ht with rfl | ⟨b, e, rfl⟩
  · simp only [ErrorInv, State.complete_errCode, State.complete_errInfo, State.complete_status, hk.errCode, hk.errInfo,
      hk.status]
    exact ⟨hcause, hsub, hmal, herr, fun _ => hzero (.inl hbusy)⟩
  · exact .of_raise b e (hk.status ▸ (hflags hbusy).1)

theorem ErrorInv.of_register {s t : State} {w : Word} (h : RegisterEffect s w t) (hs : ErrorInv s) : ErrorInv t := by
  obtain ⟨hcause, hsub, hmal, herr, hzero⟩ := hs
  cases h with
  | ignored | lost | ctrl | inLen => exact ⟨hcause, hsub, hmal, herr, hzero⟩
  | accepted => exact ⟨by simp, by simp, by simp, by simp, fun _ => ⟨rfl, rfl⟩⟩
  | acknowledged =>
    refine ⟨hcause, hsub, hmal, fun he => ?_, fun hd => ?_⟩
    · simp only [State.writeStatus, State.acknowledge_status, Bool.and_eq_true] at he
      exact herr he.1
    · simp only [State.writeStatus, State.acknowledge_status, Bool.and_eq_true] at hd
      exact hzero (hd.imp_right And.left)

end Sys2Proof.Machine

namespace Sys2Proof

open Machine

/-- Settles O54: at reset every register is 0, the tables and buffers are empty, and the sizes are legal. -/
theorem invariantsHoldAtReset : Obligations.InvariantsHoldAtReset :=
  ⟨.of_reset State.reset, ⟨by decide, .nil, nofun, .nil, nofun⟩, .of_zero rfl, .of_empty rfl rfl rfl rfl,
    .of_reset State.reset⟩

/-- Settles O55: a command starts with its acceptance and ends idle with DONE or ERR alone; no other effect of a step
raises a flag. -/
theorem stepKeepsStatusInvariant : Obligations.StepKeepsStatusInvariant := by
  intro s t hs h
  refine step_preserves (I := StatusInv) (fun _ _ _ _ hs => hs) (fun s _ => .of_reset s)
    (fun s t i hrun hexec hs => ?_) (fun s w hrun hs => ?_) (fun _ _ _ => StatusInv.of_register)
    (fun _ _ _ _ _ _ hs => hs) (fun _ _ _ _ _ _ hs => hs) h hs
  · obtain ⟨u, hk, ht⟩ := exec_next hexec
    exact hs.of_run (by simp [hrun]) hk (ht.imp_right fun ⟨e, he⟩ => ⟨_, e, he⟩)
  · exact hs.of_run (by simp [hrun]) (BodyKeeps.refl s) (.inr ⟨_, _, rfl⟩)

/-- Settles O56: a host write stays inside its buffer, whose size is a multiple of 4, and PACK and WALK write OUT_BUF in
order below OUT_SIZE. -/
theorem stepKeepsBuffersCanonical : Obligations.StepKeepsBuffersCanonical := by
  intro s t hs h
  exact step_preserves (I := BufferInv) (fun _ _ _ _ hs => hs) (fun _ => BufferInv.of_reset)
    (fun _ _ _ _ => BufferInv.of_exec) (fun _ _ _ hs => hs) (fun _ _ _ => BufferInv.of_register)
    (fun _ _ _ _ hi hl hs => hs.writeIn hi hl) (fun _ _ _ _ hi hl hs => hs.writeOut hi hl) h hs

/-- Settles O57: the only counting is HIST's, which checks the cap first; CLEAR and reset empty the counters. -/
theorem stepKeepsHistTotal : Obligations.StepKeepsHistTotal := by
  intro s t hs h
  exact step_preserves (I := HistInv) (fun _ _ _ _ hs => hs) (fun _ _ => .of_zero rfl)
    (fun _ _ _ _ => HistInv.of_exec) (fun _ _ _ hs => hs) (fun _ _ _ => HistInv.of_register)
    (fun _ _ _ _ _ _ hs => hs) (fun _ _ _ _ _ _ hs => hs) h hs

/-- Settles O58: the ROM and its three registers are written together, by BUILD, LOADTAB, CLEAR and reset. -/
theorem stepKeepsRomInvariant : Obligations.StepKeepsRomInvariant := by
  intro s t hs h
  exact step_preserves (I := RomInv) (fun _ _ _ _ hs => hs) (fun s _ => .of_empty rfl rfl rfl rfl)
    (fun _ _ _ _ => RomInv.of_exec) (fun _ _ _ hs => hs) (fun _ _ _ => RomInv.of_register)
    (fun _ _ _ _ _ _ hs => hs) (fun _ _ _ _ _ _ hs => hs) h hs

/-- Settles O59: acceptance zeroes both registers, a successful end keeps them, an error sets a legal pair. The STATUS
invariant, kept beside it (O55), says that a running command found them 0. -/
theorem stepKeepsErrorRegisters : Obligations.StepKeepsErrorRegisters := by
  intro s t hst hs h
  have ended : ∀ s t u : State, s.seq ≠ .idle → BodyKeeps s u → (t = u.complete ∨ ∃ b e, t = u.raise b e) →
      StatusInv s ∧ ErrorInv s → StatusInv t ∧ ErrorInv t :=
    fun s t u hrun hk ht ⟨hst, hs⟩ => ⟨hst.of_run hrun hk ht, hs.of_run hst hrun hk ht⟩
  refine (step_preserves (I := fun s => StatusInv s ∧ ErrorInv s) (fun _ _ _ _ hs => hs)
    (fun s _ => ⟨.of_reset s, .of_reset s⟩) (fun s t i hrun hexec => ?_)
    (fun s w hrun => ended s _ s (by simp [hrun]) (.refl s) (.inr ⟨_, _, rfl⟩))
    (fun s t w hr ⟨hst, hs⟩ => ⟨hst.of_register hr, hs.of_register hr⟩)
    (fun _ _ _ _ _ _ hs => hs) (fun _ _ _ _ _ _ hs => hs) h ⟨hst, hs⟩).2
  obtain ⟨u, hk, ht⟩ := exec_next hexec
  exact ended s t u (by simp [hrun]) hk (ht.imp_right fun ⟨e, he⟩ => ⟨_, e, he⟩)

end Sys2Proof
end

section
/-! PROOFS. Command words, their acceptance, the step that runs them, and reset (spec/30_encoding.md R121, R122,
spec/40_command_control.md R160, spec/20_memory.md R94, spec/70_reset_and_hazards.md R300). -/

namespace Sys2Proof

/-! ## The illegal words -/

theorem exists_decode_error_iff {w : Word} : (∃ r, decode w = .error r) ↔ ∀ i, w ≠ encode i := by
  simp only [ne_eq, ← decode_eq_ok_iff]
  cases decode w <;> simp

/-- The nine values of a command word, as the table of spec/30_encoding.md R121 spaces them. -/
theorem exists_toNat_encode_iff {n : Nat} : (∃ i, n = (encode i).toNat) ↔ n ≤ 0x06 ∨ n = 0x10 ∨ n = 0x11 := by
  constructor
  · rintro ⟨i, rfl⟩
    cases i <;> decide
  · intro h
    have hall : ∀ n, n < 0x12 → (n ≤ 0x06 ∨ n = 0x10 ∨ n = 0x11) → ∃ i ∈ Instr.all, n = (encode i).toNat := by decide
    obtain ⟨i, -, hi⟩ := hall n (by omega) h
    exact ⟨i, hi⟩

namespace Machine

/-! ## Acceptance and the step that runs a command -/

theorem seqOf_of_decode {w : Word} {i : Instr} (h : decode w = .ok i) : seqOf w = .run i := by
  rw [seqOf, h]

theorem seqOf_matchWord (i : Instr) : seqOf (matchWord i) = .run i :=
  seqOf_of_decode (decode_eq_ok_iff.2 (encode_eq_matchWord i).symm)

theorem State.issue_of_busy {s : State} (h : s.seq ≠ .idle) (w : Word) : s.issue w = s.setOvr := by
  unfold State.issue
  cases hs : s.seq with
  | idle => exact absurd hs h
  | run i => rfl
  | illegal w => rfl

theorem step_of_no_event {s : State} (h : s.events = []) : step s = coreTurn s := by
  rw [step, h]

theorem coreTurn_of_run {s : State} {i : Instr} (h : s.seq = .run i) : coreTurn s = exec i s := by
  rw [coreTurn, h]

theorem coreTurn_of_idle {s : State} (h : s.seq = .idle) : coreTurn s = .next s := by
  rw [coreTurn, h]

theorem tableWord_toNat (w : Word) : tableWord 32 w.toNat = w := by
  rw [tableWord, Nat.mod_eq_of_lt w.isLt, BitVec.ofNat_toNat, BitVec.setWidth_eq]

/-- The core has the turn after an acceptance, whatever waits (log 2). -/
theorem step_withFetchWord (s : State) (w : Word) : step (s.withFetchWord 32 w.toNat) = coreTurn (s.accept w) := by
  have waiting : ∀ events, step (({ s with events := events } : State).withFetchWord 32 w.toNat) =
      coreTurn (State.accept w { s with events := events }) := by
    intro events
    rw [State.withFetchWord, tableWord_toNat]
    cases events <;> rfl
  exact waiting s.events

end Machine

open Machine

/-- Settles O1: the map of R121 and the illegal words of R122 are evaluated. -/
theorem commandWordsDecode : Obligations.CommandWordsDecode := by
  unfold Obligations.CommandWordsDecode
  decide

/-- Settles O2: the words that decode are the encodings, whose values are 0 to 6, 0x10 and 0x11. -/
theorem illegalWordsByField : Obligations.IllegalWordsByField := by
  intro w
  have hval : (∀ i, w ≠ encode i) ↔ ¬∃ i, w.toNat = (encode i).toNat := by simp [BitVec.toNat_inj]
  rw [exists_decode_error_iff, hval, exists_toNat_encode_iff]
  omega

/-- Settles O4: a step is the oldest event's, and the core's turn is the meaning of SEQ. -/
theorem stepRunsDecodedCommand : Obligations.StepRunsDecodedCommand := by
  refine ⟨fun s i hrun hev => ?_, fun s i hrun => ?_, fun s w i hd => ?_, fun _ _ => rfl, fun _ => rfl,
    fun s hidle => ?_, fun s hidle hev => ?_⟩
  · rw [step_of_no_event hev, coreTurn_of_run hrun]
  · rw [step_core, coreTurn_of_run hrun]
  · rw [step_withFetchWord, coreTurn_of_run (seqOf_of_decode hd)]
  · rw [step_core, coreTurn_of_idle hidle]
  · rw [step_of_no_event hev, coreTurn_of_idle hidle]

/-- Settles O5: the write of CMD is command issue (`writesWord_cmd`), which accepts while idle and sets OVR while not. -/
theorem commandIssue : Obligations.CommandIssue := by
  constructor
  · intro s w hidle
    have hw := writesWord_cmd s w
    rw [State.issue_of_idle hidle] at hw
    refine ⟨seqOf w, hw, ?_, seqOf_of_ne_matchWord⟩
    rintro i rfl
    exact seqOf_matchWord i
  · intro s w hrun
    have hw := writesWord_cmd s w
    rwa [State.issue_of_busy hrun] at hw

/-- Settles O53: the reset event answers `applyReset`, whose every field is the spec's; `State.reset` is its own reset. -/
theorem resetValues : Obligations.ResetValues := by
  refine ⟨fun s => ⟨_, rfl⟩, fun t ht => ?_⟩
  obtain ⟨s, rfl⟩ : ∃ s : State, t = s.applyReset := by
    rcases ht with rfl | ⟨s, hs⟩
    · exact ⟨State.reset, rfl⟩
    · cases hs
      exact ⟨s, rfl⟩
  exact ⟨rfl, rfl, rfl, rfl, rfl, rfl, rfl, rfl, rfl, rfl, rfl, rfl,
    fun b => ⟨Hist.count_zero b, Rom.clen_empty b, Rom.code_empty b⟩, rfl, rfl, fun _ => ⟨rfl, rfl⟩⟩

end Sys2Proof
end

section
/-! PROOFS. What every command keeps and how it ends, over all of them at once: the host's side, the frame of each
result, and the bytes of OUT_BUF beyond the output (spec/30_encoding.md R123, spec/60_exceptions.md R274, R275,
spec/10_state.md R51). -/

namespace Sys2Proof.Machine

/-! ## The end of a run -/

/-- A command raises ERR only where its body raised: a body keeps STATUS (R274, R275). -/
theorem Run.Lawful.raised_of_err {i : Instr} {r : Run} {s t : State} (hlaw : r.Lawful s)
    (h : Run.finish i r = .next t) (herr : s.status.err = false) (herr' : t.status.err = true) :
    ∃ e u, r = .raised e u ∧ t = u.raise (writesOutBuf i) e := by
  cases r with
  | done u =>
    cases h
    have hst : u.status = s.status := BodyKeeps.status hlaw
    simp [hst, herr] at herr'
  | raised e u =>
    cases h
    exact ⟨e, u, rfl, rfl⟩
  | unwritten n => cases h

/-! ## The frame of the results -/

/-- The columns of R123's table that command `i` does not write are the same in `s` and `t`. -/
def ResultFrame (i : Instr) (s t : State) : Prop :=
  (i ∉ [Instr.clear, .hist, .encode] → t.hist = s.hist) ∧
  (i ∉ [Instr.clear, .build, .loadtab, .encode, .decode] →
    t.rom = s.rom ∧ t.nsym = s.nsym ∧ t.maxLen = s.maxLen) ∧
  (i ∉ [Instr.clear, .build, .pack, .loadtab, .encode, .decode] → t.tableLen = s.tableLen) ∧
  (i ∉ [Instr.clear, .pack, .loadtab, .encode, .decode] → t.bitCnt = s.bitCnt ∧ t.bodyOff = s.bodyOff) ∧
  (i ∉ [Instr.clear, .pack, .walk, .encode, .decode] → t.outLen = s.outLen) ∧
  (i ∉ [Instr.pack, .walk, .encode, .decode] → t.outBuf = s.outBuf)

/-- Taking an error writes OUT_LEN only for a command that writes OUT_BUF (spec/60_exceptions.md R275). -/
theorem raise_outLen_of_not_mem {i : Instr} (hi : i ∉ [Instr.clear, .pack, .walk, .encode, .decode]) (s : State)
    (e : CmdError) : (s.raise (writesOutBuf i) e).outLen = s.outLen := by
  have hw : ∀ i ∉ [Instr.clear, .pack, .walk, .encode, .decode], writesOutBuf i = false := by
    intro i hi
    cases i <;> simp_all [writesOutBuf]
  rw [hw i hi, State.raise_outLen]
  rfl

theorem ResultFrame.of_finish {i : Instr} {r : Run} {s t : State} (h : r.Ends (ResultFrame i) s)
    (hn : Run.finish i r = .next t) : ResultFrame i s t := by
  obtain ⟨u, ⟨hhist, hrom, htab, hbit, hout, hbuf⟩, ⟨-, rfl⟩ | ⟨e, -, rfl⟩⟩ := h.finish hn
  · exact ⟨hhist, hrom, htab, hbit, hout, hbuf⟩
  · exact ⟨hhist, hrom, htab, hbit, fun hi => (raise_outLen_of_not_mem hi u e).trans (hout hi), hbuf⟩

/-- DECODE's steps leave HIST alone (spec/45_composite.md R261). -/
theorem decodeBody_hist (s : State) : (decodeBody s).Ends (fun s t => t.hist = s.hist) s := by
  unfold decodeBody
  split
  · rfl
  · exact .andThen (fun _ _ _ h g => g.trans h)
      ((loadtabBody_writes s).mono fun t ht => by rw [ht])
      fun t _ => (walkBody_writes t).mono fun u hu => by rw [hu]

theorem exec_resultFrame {i : Instr} {s t : State} (h : exec i s = .next t) : ResultFrame i s t := by
  cases i with
  | nop => exact .of_finish (r := .done s) (by simp [Run.Ends, ResultFrame]) h
  | clear => exact .of_finish (r := clearBody s) (by simp [clearBody, Run.Ends, ResultFrame]) h
  | hist => exact .of_finish ((histBody_writes s).mono fun t ht => by rw [ht]; simp [ResultFrame]) h
  | build => exact .of_finish ((buildBody_writes s).mono fun t ht => by rw [ht]; simp [ResultFrame]) h
  | pack => exact .of_finish ((packBody_writes s).mono fun t ht => by rw [ht]; simp [ResultFrame]) h
  | loadtab => exact .of_finish ((loadtabBody_writes s).mono fun t ht => by rw [ht]; simp [ResultFrame]) h
  | walk => exact .of_finish ((walkBody_writes s).mono fun t ht => by rw [ht]; simp [ResultFrame]) h
  | encode => simp [ResultFrame]
  | decode => exact .of_finish ((decodeBody_hist s).mono fun t ht => by simp [ResultFrame, ht]) h

/-! ## OUT_BUF beyond the output -/

theorem SameFrom.mono {n k : Nat} {a b : Memory} (h : SameFrom n a b) (hn : n ≤ k) : SameFrom k a b :=
  fun i hi => h i (hn.trans hi)

/-- The two ends of a run that keeps OUT_BUF beyond its output. -/
theorem Run.OutFrom.finish {n : Nat} {s t : State} {r : Run} {i : Instr} (h : r.OutFrom n s)
    (hn : Run.finish i r = .next t) :
    (t.outLen.toNat ≤ s.params.outSize ∧ SameFrom t.outLen.toNat s.outBuf t.outBuf) ∨
    (t.status.err = true ∧ SameFrom n s.outBuf t.outBuf) := by
  cases r with
  | done u =>
    obtain ⟨-, hle, hsame⟩ := h
    cases hn
    exact .inl ⟨hle, hsame⟩
  | raised e u =>
    obtain ⟨-, hsame⟩ := h
    cases hn
    exact .inr ⟨rfl, hsame⟩
  | unwritten i => cases hn

end Sys2Proof.Machine

namespace Sys2Proof

open Machine

/-- Settles O7: a lawful run stops only at an unwritten byte below IN_LEN, so it ends, with DONE or with a cause. -/
theorem everyCommandCompletes : Obligations.EveryCommandCompletes := by
  intro i s hw
  obtain ⟨r, hr, hlaw⟩ := exec_eq_finish i s
  rw [hr]
  cases r with
  | done u =>
    have hk : BodyKeeps s u := hlaw
    exact ⟨_, rfl, rfl, rfl, .inl ⟨by simp [doneStatus, hk.status], hk.errCode, hk.errInfo⟩⟩
  | raised e u =>
    have hk : BodyKeeps s u := hlaw
    exact ⟨_, rfl, rfl, rfl, .inr ⟨by simp [errStatus, hk.status], e.codes_legal.1⟩⟩
  | unwritten n =>
    obtain ⟨hn, hnone⟩ := hlaw
    exact absurd hnone (hw n hn)

/-- Settles O9: no body writes the host's side, nor do the two completions. -/
theorem commandKeepsHostState : Obligations.CommandKeepsHostState := by
  intro i s t h
  obtain ⟨u, hk, ht⟩ := exec_next h
  have hovr : u.status.ovr = s.status.ovr := by rw [hk.status]
  rcases ht with rfl | ⟨e, rfl⟩ <;>
    exact ⟨hk.ctrl, hk.inLen, hk.inBuf, hovr, hk.params, hk.busResp, hk.draws, hk.events⟩

/-- Settles O10: each body writes its own results (`exec_resultFrame`). -/
theorem commandWritesOnlyItsResults : Obligations.CommandWritesOnlyItsResults :=
  fun _ _ _ h => exec_resultFrame h

/-- Settles O11: PACK's body, alone or at ENCODE's end, keeps OUT_BUF from OUT_LEN on, and raises before it writes. -/
theorem packAndEncodeOutputFrame : Obligations.PackAndEncodeOutputFrame := by
  intro i s t hi hwf h
  have hout : ∀ r : Run, r.OutFrom 0 s → Run.finish i r = .next t →
      SameFrom t.outLen.toNat s.outBuf t.outBuf := by
    intro r hr hn
    rcases hr.finish hn with ⟨-, hsame⟩ | ⟨-, hsame⟩
    · exact hsame
    · exact hsame.mono (Nat.zero_le _)
  rcases List.mem_pair.1 hi with rfl | rfl
  · exact hout _ (packBody_out s hwf) h
  · exact hout _ (encodeBody_out s hwf) h

/-- Settles O12: WALK's body, alone or at DECODE's end, writes below OUT_SIZE, and below OUT_LEN when it ends well. -/
theorem walkAndDecodeOutputFrame : Obligations.WalkAndDecodeOutputFrame := by
  intro i s t hi hwf h
  have hout : ∀ r : Run, r.OutFrom s.params.outSize s → Run.finish i r = .next t →
      SameFrom s.params.outSize s.outBuf t.outBuf ∧
      (s.status.err = false → t.status.err = false → SameFrom t.outLen.toNat s.outBuf t.outBuf) := by
    intro r hr hn
    rcases hr.finish hn with ⟨hle, hsame⟩ | ⟨herr, hsame⟩
    · exact ⟨hsame.mono hle, fun _ _ => hsame⟩
    · exact ⟨hsame, fun _ hok => absurd herr (by simp [hok])⟩
  rcases List.mem_pair.1 hi with rfl | rfl
  · exact hout _ (walkBody_out s hwf) h
  · exact hout _ (decodeBody_out s hwf) h

end Sys2Proof
end

section
/-! PROOFS. HIST counts a message whatever its order, and refuses to overflow (spec/41_histogram.md R180 to R182). -/

namespace Sys2Proof.Machine

/-- R181: both checks pass, so HIST counts the message. -/
theorem histBody_of_message {s : State} {msg : List Byte} (hl : msg.length = s.inLen.toNat)
    (hi : s.inLen.toNat ≤ s.params.inSize) (hcap : Hist.total s.hist + msg.length ≤ countCap)
    (hm : HoldsAt s.inBuf 0 msg) : histBody s = .done { s with hist := Hist.countBytes s.hist msg } := by
  have hf := Memory.fetchRange_of_holds hm
  rw [hl] at hf hcap
  simp only [histBody, State.checkInLen_of_le hi, hf, if_neg (Nat.not_lt.2 hcap)]

/-- R181: past the cap HIST raises CountOverflow before it reads a byte. -/
theorem histBody_of_overflow {s : State} (hi : s.inLen.toNat ≤ s.params.inSize)
    (hcap : countCap < Hist.total s.hist + s.inLen.toNat) :
    histBody s = .raised (.countOverflow (countCap - Hist.total s.hist)) s := by
  simp only [histBody, State.checkInLen_of_le hi, if_pos hcap]

/-- R182: each counter depends on the number of its byte alone. -/
theorem Hist.countBytes_perm {h : Hist} {msg msg' : List Byte} (hp : msg.Perm msg')
    (hcap : Hist.total h + msg.length ≤ countCap) : Hist.countBytes h msg' = Hist.countBytes h msg := by
  refine Hist.ext_count fun b => BitVec.eq_of_toNat_eq ?_
  rw [Hist.count_countBytes hcap, Hist.count_countBytes (by rwa [← hp.length_eq]), hp.count_eq]

end Sys2Proof.Machine

namespace Sys2Proof

open Machine

/-- Settles O16: HIST's run is done (`histBody_of_message`), with the counts of `Hist.count_countBytes`. -/
theorem histCountsTheMessage : Obligations.HistCountsTheMessage := by
  intro s msg hl hi hcap hm
  refine ⟨_, congrArg (Run.finish .hist) (histBody_of_message hl hi hcap hm), ?_, rfl⟩
  exact fun b => Hist.count_countBytes hcap b

/-- Settles O17: the check of the capacity raises in the state HIST begins in. -/
theorem histRefusesToOverflow : Obligations.HistRefusesToOverflow := fun _ hi _ hcap =>
  congrArg (Run.finish .hist) (histBody_of_overflow hi hcap)

/-- Settles O18: both messages are counted, and permuted messages count alike (`Hist.countBytes_perm`). -/
theorem histIgnoresOrder : Obligations.HistIgnoresOrder := by
  intro s m msg msg' hp hl hi hcap hm hm'
  refine ⟨_, congrArg (Run.finish .hist) (histBody_of_message hl hi hcap hm), ?_⟩
  have h := histBody_of_message (s := { s with inBuf := m }) (hp.length_eq ▸ hl) hi (hp.length_eq ▸ hcap) hm'
  refine (congrArg (Run.finish .hist) h).trans ?_
  rw [Hist.countBytes_perm hp hcap]
  rfl

end Sys2Proof
end

section
/-! PROOFS. BUILD: the pops and rounds of the merge loop, the code table as a whole, and the codes of up to four
present symbols (spec/42_tree_builder.md R190 to R197). -/

namespace Sys2Proof.Machine

/-! ## The order of the priority structure -/

@[simp] theorem Node.count_internal (c n : Nat) (a b : Node) : (Node.internal c n a b).count = c := rfl

@[simp] theorem Node.seq_internal (c n : Nat) (a b : Node) : (Node.internal c n a b).seq = n := rfl

theorem Node.before_eq_false_iff {a b : Node} :
    Node.before a b = false ↔ ¬(a.count < b.count ∨ (a.count = b.count ∧ a.seq < b.seq)) := by
  rw [← Node.before_iff, Bool.not_eq_true]

theorem Node.before_asymm {a b : Node} (h : Node.before a b = true) : Node.before b a = false := by
  rw [Node.before_iff] at h
  rw [Node.before_eq_false_iff]
  omega

theorem Node.before_trans {a b c : Node} (hab : Node.before a b = true) (hbc : Node.before b c = true) :
    Node.before a c = true := by
  rw [Node.before_iff] at *
  omega

/-- R192: no node left comes before the one popped. -/
theorem popLeast_least (a : Node) (rest : List Node) :
    ∀ n ∈ (popLeast a rest).2, Node.before n (popLeast a rest).1 = false := by
  induction rest generalizing a with
  | nil => exact fun n hn => absurd hn List.not_mem_nil
  | cons b rest ih =>
    rw [popLeast]
    split
    next hfirst =>
      intro n hn
      rcases List.mem_cons.1 ((popLeast_perm b rest).mem_iff.2 hn) with rfl | hn
      · exact Node.before_asymm hfirst
      · by_contra hna
        have hle := ih b n hn
        rw [Node.before_trans (Bool.eq_true_of_not_eq_false hna) hfirst] at hle
        cases hle
    next hlater =>
      intro n hn
      rcases List.mem_cons.1 hn with rfl | hn
      · exact Bool.eq_false_of_not_eq_true hlater
      · exact ih b n hn

/-- R192: a round pops two nodes in their order and goes on with their parent. -/
theorem mergeLoop_succ (rounds next : Nat) (a b : Node) (rest : List Node) :
    ∃ x y left, (x :: y :: left).Perm (a :: b :: rest) ∧
      (∀ n ∈ y :: left, Node.before n x = false) ∧ (∀ n ∈ left, Node.before n y = false) ∧
      mergeLoop (rounds + 1) next a (b :: rest) =
        mergeLoop rounds (next + 1) (.internal (x.count + y.count) next x y) left := by
  have hperm := popLeast_perm a (b :: rest)
  have hleast := popLeast_least a (b :: rest)
  have hlen := popLeast_length a (b :: rest)
  rw [mergeLoop]
  generalize popLeast a (b :: rest) = popped at *
  obtain ⟨x, others⟩ := popped
  obtain ⟨c, others, rfl⟩ : ∃ c more, others = c :: more := List.exists_cons_of_length_eq_add_one hlen
  exact ⟨x, (popLeast c others).1, (popLeast c others).2, ((popLeast_perm c others).cons x).trans hperm,
    fun n hn => hleast n ((popLeast_perm c others).mem_iff.1 hn), popLeast_least c others, rfl⟩

/-- The two nodes that come strictly first are the ones a round pops. -/
theorem mergeLoop_of_first {rounds next : Nat} {a b x y : Node} {rest left : List Node}
    (hp : (a :: b :: rest).Perm (x :: y :: left)) (hx : ∀ n ∈ y :: left, Node.before x n = true)
    (hy : ∀ n ∈ left, Node.before y n = true) :
    ∃ left', left'.Perm left ∧ mergeLoop (rounds + 1) next a (b :: rest) =
      mergeLoop rounds (next + 1) (.internal (x.count + y.count) next x y) left' := by
  obtain ⟨x', y', left', hperm, hleast, hleast', hround⟩ := mergeLoop_succ rounds next a b rest
  have hall := hperm.trans hp
  have first : ∀ {u v : Node} {l k : List Node}, (u :: l).Perm (v :: k) → (∀ n ∈ l, Node.before n u = false) →
      (∀ n ∈ k, Node.before v n = true) → u = v := by
    intro u v l k hperm hu hv
    by_contra hne
    have hvl : v ∈ l := List.mem_of_ne_of_mem (Ne.symm hne) (hperm.mem_iff.2 List.mem_cons_self)
    have huk : u ∈ k := List.mem_of_ne_of_mem hne (hperm.mem_iff.1 List.mem_cons_self)
    have hvu := hu v hvl
    rw [hv u huk] at hvu
    cases hvu
  obtain rfl := first hall hleast hx
  have htail := hall.cons_inv
  obtain rfl := first htail hleast' hy
  exact ⟨left', htail.cons_inv, hround⟩

/-- The last round makes the root. -/
theorem mergeLoop_pair (next : Nat) (a b : Node) :
    mergeLoop 1 next a [b] =
      if Node.before a b then .internal (a.count + b.count) next a b else .internal (b.count + a.count) next b a := by
  cases hab : Node.before a b <;> simp [mergeLoop, popLeast, hab]

/-! ## The leaves of a histogram -/

/-- The present symbols, ascending. -/
def presentSymbols (h : Hist) : List Byte := (Hist.present h).map Prod.fst

/-- The leaf of a present symbol: its insertion number is its place among them (R191). -/
def seedLeaf (h : Hist) (s : Byte) : Node := .leaf (Hist.count h s).toNat ((presentSymbols h).idxOf s) s

@[simp] theorem seedLeaf_count (h : Hist) (s : Byte) : (seedLeaf h s).count = (Hist.count h s).toNat := rfl

@[simp] theorem codesOf_seedLeaf (h : Hist) (s : Byte) (p : Code) : codesOf (seedLeaf h s) p = [(s, p)] := rfl

theorem presentSymbols_ascending (h : Hist) : (presentSymbols h).Pairwise fun a b => a.toNat < b.toNat :=
  List.pairwise_map.2 (Hist.present_pairwise h)

theorem mem_presentSymbols {h : Hist} {s : Byte} : s ∈ presentSymbols h ↔ Hist.count h s ≠ 0 := by
  rw [presentSymbols, List.mem_map]
  constructor
  · rintro ⟨e, he, rfl⟩
    obtain ⟨hcount, hpos⟩ := Hist.mem_present.1 he
    exact hcount ▸ hpos
  · exact fun hs => ⟨(s, Hist.count h s), Hist.mem_present.2 ⟨rfl, hs⟩, rfl⟩

theorem seedLeaves_map (h : Hist) (next : Nat) {l : List Byte} (hn : l.Nodup) :
    seedLeaves next (l.map fun s => (s, Hist.count h s)) =
      l.map fun s => .leaf (Hist.count h s).toNat (next + l.idxOf s) s := by
  induction l generalizing next with
  | nil => rfl
  | cons a l ih =>
    obtain ⟨ha, hl⟩ := List.nodup_cons.1 hn
    rw [List.map_cons, seedLeaves, ih (next + 1) hl, List.map_cons, List.idxOf_cons_self, Nat.add_zero]
    congr 1
    refine List.map_congr_left fun s hs => ?_
    rw [List.idxOf_cons_ne _ (by rintro rfl; exact ha hs), Nat.succ_eq_add_one, Nat.add_assoc, Nat.add_comm 1]

/-- R191: the seeds are the present symbols' leaves. -/
theorem seedLeaves_present (h : Hist) : seedLeaves 0 (Hist.present h) = (presentSymbols h).map (seedLeaf h) := by
  have hnodup : (presentSymbols h).Nodup := Hist.present_keys_nodup h
  rw [Hist.present_eq_map (presentSymbols_ascending h) fun s => mem_presentSymbols, seedLeaves_map h 0 hnodup]
  simp only [Nat.zero_add]
  rfl

theorem idxOf_lt_idxOf {l : List Byte} (hl : l.Pairwise fun a b => a.toNat < b.toNat) {a b : Byte} (ha : a ∈ l)
    (hb : b ∈ l) (hab : a.toNat < b.toNat) : l.idxOf a < l.idxOf b := by
  have ha' := List.idxOf_lt_length_iff.2 ha
  have hb' := List.idxOf_lt_length_iff.2 hb
  by_contra hge
  rcases Nat.eq_or_lt_of_le (Nat.not_lt.1 hge) with heq | hlt
  · rw [(List.idxOf_inj hb).1 heq] at hab
    omega
  · have := List.pairwise_iff_getElem.1 hl _ _ hb' ha' hlt
    rw [List.getElem_idxOf, List.getElem_idxOf] at this
    omega

/-- R191, R192: leaves pop in the order of their counts, equal counts in the order of their symbols. -/
theorem seedLeaf_before {h : Hist} {a b : Byte} (ha : Hist.count h a ≠ 0) (hb : Hist.count h b ≠ 0)
    (hab : PopsBefore h a b) : Node.before (seedLeaf h a) (seedLeaf h b) = true := by
  rw [Node.before_iff]
  rcases hab with hlt | ⟨heq, hlt⟩
  · exact .inl hlt
  · exact .inr ⟨congrArg BitVec.toNat heq, idxOf_lt_idxOf (presentSymbols_ascending h) (mem_presentSymbols.2 ha)
      (mem_presentSymbols.2 hb) hlt⟩

/-- The symbols of `l`, in any order, are those with a positive counter. -/
def IsPresent (h : Hist) (l : List Byte) : Prop := l.Nodup ∧ ∀ s, s ∈ l ↔ Hist.count h s ≠ 0

theorem IsPresent.of_support {h : Hist} {l : List Byte} (hn : l.Nodup) (hpos : ∀ s ∈ l, Hist.count h s ≠ 0)
    (hzero : ∀ s, s ∉ l → Hist.count h s = 0) : IsPresent h l :=
  ⟨hn, fun s => ⟨hpos s, fun hs => by_contra fun hl => hs (hzero s hl)⟩⟩

theorem IsPresent.perm {h : Hist} {l : List Byte} (hl : IsPresent h l) : (presentSymbols h).Perm l :=
  (List.perm_ext_iff_of_nodup (Hist.present_keys_nodup h) hl.1).2 fun s => mem_presentSymbols.trans (hl.2 s).symm

theorem IsPresent.seeds_perm {h : Hist} {l : List Byte} (hl : IsPresent h l) :
    (seedLeaves 0 (Hist.present h)).Perm (l.map (seedLeaf h)) := by
  rw [seedLeaves_present]
  exact hl.perm.map _

/-- The leaves are numbered below their number, and so before every parent. -/
theorem IsPresent.seq_lt {h : Hist} {l : List Byte} (hl : IsPresent h l) {s : Byte} (hs : s ∈ l) :
    (seedLeaf h s).seq < l.length := by
  rw [← hl.perm.length_eq]
  exact List.idxOf_lt_length_iff.2 (hl.perm.mem_iff.2 hs)

theorem PopsBefore.trans {h : Hist} {a b c : Byte} (hab : PopsBefore h a b) (hbc : PopsBefore h b c) :
    PopsBefore h a c := by
  simp only [PopsBefore, ← BitVec.toNat_inj] at *
  omega

theorem PopsBefore.count_le {h : Hist} {a b : Byte} (hab : PopsBefore h a b) :
    (Hist.count h a).toNat ≤ (Hist.count h b).toNat := by
  simp only [PopsBefore, ← BitVec.toNat_inj] at hab
  omega

theorem PopsBefore.ne {h : Hist} {a b : Byte} (hab : PopsBefore h a b) : a ≠ b := by
  rintro rfl
  simp [PopsBefore] at hab

theorem PopsBefore.count_ne_zero {h : Hist} {a b : Byte} (hab : PopsBefore h a b) (ha : Hist.count h a ≠ 0) :
    Hist.count h b ≠ 0 := by
  intro hb
  have hle := hab.count_le
  rw [hb] at hle
  exact ha (BitVec.eq_of_toNat_eq (Nat.le_zero.1 hle))

/-! ## The trees of few symbols -/

/-- The first round of the merge loop, from the leaves in any order (R192). -/
theorem buildTree_of_first {leaves : List Node} {x y : Node} {left : List Node} (hp : leaves.Perm (x :: y :: left))
    (hx : ∀ n ∈ y :: left, Node.before x n = true) (hy : ∀ n ∈ left, Node.before y n = true) :
    ∃ left', left'.Perm left ∧ buildTree leaves =
      some (mergeLoop left.length (left.length + 3) (.internal (x.count + y.count) (left.length + 2) x y) left') := by
  obtain ⟨a, b, rest, rfl⟩ : ∃ a b rest, leaves = a :: b :: rest := by
    match leaves, hp.length_eq with
    | a :: b :: rest, _ => exact ⟨a, b, rest, rfl⟩
  have hlen : rest.length = left.length := by simpa using hp.length_eq
  obtain ⟨left', hleft, hround⟩ := mergeLoop_of_first (rounds := left.length) (next := left.length + 2) hp hx hy
  exact ⟨left', hleft, by rw [buildTree, hlen, hround]⟩

/-- BUILD of a histogram whose tree is known: the ROM holds the tree's codes, and the registers describe them. -/
theorem execBuild_of_root {s : State} {root : Node}
    (h : buildTree (seedLeaves 0 (Hist.present s.hist)) = some root) :
    ∃ t, exec .build s = .next t ∧ t.nsym = BitVec.ofNat 9 (codesOf root []).length ∧
      t.maxLen = BitVec.ofNat 8 (((codesOf root []).map fun e => e.2.length).foldl max 0) ∧
      t.tableLen = BitVec.ofNat 16 (entriesLength (codesOf root [])) ∧
      (∀ e ∈ codesOf root [], Rom.code t.rom e.1 = e.2) ∧
      ∀ b, b ∉ (codesOf root []).map Prod.fst → Rom.code t.rom b = [] := by
  have hp : Hist.present s.hist ≠ [] := by
    intro hnil
    rw [hnil] at h
    cases h
  obtain ⟨e, he⟩ := List.exists_mem_of_ne_nil _ hp
  obtain ⟨hcount, hpos⟩ := Hist.mem_present.1 he
  obtain ⟨root', hroot, htable, hgood⟩ := codeTable_spec s.hist hp
  obtain rfl : root = root' := Option.some.inj (h.symm.trans hroot)
  have hnodup := hgood.good.keys_nodup
  have hperm := Rom.entries_ofEntries_perm hnodup hgood.good.1
  refine ⟨_, congrArg (Run.finish .build) (buildBody_done ⟨e.1, hcount ▸ hpos⟩), ?_, ?_, ?_, ?_, ?_⟩
  · have hlen : (Hist.present s.hist).length = (codesOf root []).length := by simpa using hgood.keys.length_eq.symm
    exact congrArg (BitVec.ofNat 9) hlen
  · rw [← longest_ofEntries hnodup, ← htable]
    rfl
  · rw [← entriesLength_perm hperm, ← htable]
    rfl
  · exact fun e he => (congrArg (Rom.code · e.1) htable).trans (Rom.code_ofEntries_of_mem hnodup he)
  · exact fun b hb => (congrArg (Rom.code · b) htable).trans (Rom.code_ofEntries_of_not_mem hnodup hb)

/-- R194: the one present symbol is child0 of a root without child1. -/
theorem buildTree_single {h : Hist} {a : Byte} (hl : IsPresent h [a]) :
    buildTree (seedLeaves 0 (Hist.present h)) = some (.solo (Hist.count h a).toNat 1 (seedLeaf h a)) := by
  rw [List.perm_singleton.1 hl.seeds_perm]
  rfl

section
variable {h : Hist} {x y z w : Byte}

/-- Of two symbols the first to pop is child0. -/
theorem buildTree_pair (hl : IsPresent h [x, y]) (hxy : PopsBefore h x y) :
    ∃ c n, buildTree (seedLeaves 0 (Hist.present h)) = some (.internal c n (seedLeaf h x) (seedLeaf h y)) := by
  have hx := (hl.2 x).1 (by simp)
  have hy := (hl.2 y).1 (by simp)
  obtain ⟨left, hleft, htree⟩ := buildTree_of_first hl.seeds_perm (by simp [seedLeaf_before hx hy hxy]) (by simp)
  rw [htree, hleft.eq_nil]
  exact ⟨_, _, rfl⟩

/-- R192: the parent of the first two counts their sum, and the third leaf pops before it among equal counts. -/
theorem buildTree_triple (hl : IsPresent h [x, y, z]) (hxy : PopsBefore h x y) (hyz : PopsBefore h y z) :
    ∃ c n p q, buildTree (seedLeaves 0 (Hist.present h)) = some
      (if (Hist.count h z).toNat ≤ (Hist.count h x).toNat + (Hist.count h y).toNat then
        .internal c n (seedLeaf h z) (.internal p q (seedLeaf h x) (seedLeaf h y))
      else .internal c n (.internal p q (seedLeaf h x) (seedLeaf h y)) (seedLeaf h z)) := by
  have hx := (hl.2 x).1 (by simp)
  have hy := (hl.2 y).1 (by simp)
  have hz := (hl.2 z).1 (by simp)
  have hseq : (seedLeaf h z).seq < 3 := hl.seq_lt (by simp)
  obtain ⟨left, hleft, htree⟩ := buildTree_of_first (left := [seedLeaf h z]) hl.seeds_perm
    (by simp [seedLeaf_before hx hy hxy, seedLeaf_before hx hz (hxy.trans hyz)]) (by simp [seedLeaf_before hy hz hyz])
  have hparent : Node.before (.internal ((seedLeaf h x).count + (seedLeaf h y).count) 3 (seedLeaf h x) (seedLeaf h y))
      (seedLeaf h z) = decide (¬(Hist.count h z).toNat ≤ (Hist.count h x).toNat + (Hist.count h y).toNat) := by
    rw [Bool.eq_iff_iff, Node.before_iff, decide_eq_true_iff]
    simp only [Node.count_internal, Node.seq_internal, seedLeaf_count]
    omega
  rw [htree, List.perm_singleton.1 hleft]
  simp only [List.length_singleton, Nat.reduceAdd, mergeLoop_pair, hparent]
  by_cases hle : (Hist.count h z).toNat ≤ (Hist.count h x).toNat + (Hist.count h y).toNat <;> simp [hle]

/-- R192: with the fourth leaf at or below the sum of the first two, the last two leaves pop next, and then the two
parents in the order they were made. -/
theorem buildTree_quadruple (hl : IsPresent h [x, y, z, w]) (hxy : PopsBefore h x y) (hyz : PopsBefore h y z)
    (hzw : PopsBefore h z w)
    (hsum : (Hist.count h w).toNat ≤ (Hist.count h x).toNat + (Hist.count h y).toNat) :
    ∃ c n p q p' q', buildTree (seedLeaves 0 (Hist.present h)) = some (.internal c n
      (.internal p q (seedLeaf h x) (seedLeaf h y)) (.internal p' q' (seedLeaf h z) (seedLeaf h w))) := by
  have hx := (hl.2 x).1 (by simp)
  have hy := (hl.2 y).1 (by simp)
  have hz := (hl.2 z).1 (by simp)
  have hw := (hl.2 w).1 (by simp)
  have hqz : (seedLeaf h z).seq < 4 := hl.seq_lt (by simp)
  have hqw : (seedLeaf h w).seq < 4 := hl.seq_lt (by simp)
  have hcxz := (hxy.trans hyz).count_le
  have hcyw := (hyz.trans hzw).count_le
  have hczw := hzw.count_le
  obtain ⟨left, hleft, htree⟩ := buildTree_of_first (left := [seedLeaf h z, seedLeaf h w]) hl.seeds_perm
    (by simp [seedLeaf_before hx hy hxy, seedLeaf_before hx hz (hxy.trans hyz),
      seedLeaf_before hx hw ((hxy.trans hyz).trans hzw)])
    (by simp [seedLeaf_before hy hz hyz, seedLeaf_before hy hw (hyz.trans hzw)])
  rw [htree]
  simp only [List.length_cons, List.length_nil, Nat.reduceAdd]
  generalize hparent : Node.internal ((seedLeaf h x).count + (seedLeaf h y).count) 4 (seedLeaf h x) (seedLeaf h y) =
    parent
  have hcount : parent.count = (Hist.count h x).toNat + (Hist.count h y).toNat := by rw [← hparent]; rfl
  have hseq : parent.seq = 4 := by rw [← hparent]; rfl
  have hzp : Node.before (seedLeaf h z) parent = true := by
    rw [Node.before_iff, hcount, hseq, seedLeaf_count]
    omega
  have hwp : Node.before (seedLeaf h w) parent = true := by
    rw [Node.before_iff, hcount, hseq, seedLeaf_count]
    omega
  obtain ⟨b, rest, rfl⟩ := List.exists_cons_of_length_eq_add_one hleft.length_eq
  obtain ⟨last, hlast, hround⟩ := mergeLoop_of_first (rounds := 1) (next := 5) (a := parent) (left := [parent])
    ((hleft.cons parent).trans (List.perm_append_comm (l₁ := [parent]) (l₂ := [seedLeaf h z, seedLeaf h w])))
    (by simp [seedLeaf_before hz hw hzw, hzp]) (by simp [hwp])
  have hpq : Node.before parent
      (.internal ((seedLeaf h z).count + (seedLeaf h w).count) 5 (seedLeaf h z) (seedLeaf h w)) = true := by
    rw [Node.before_iff]
    simp only [hcount, hseq, Node.count_internal, Node.seq_internal, seedLeaf_count]
    omega
  rw [hround, List.perm_singleton.1 hlast, mergeLoop_pair, Node.before_asymm hpq, ← hparent]
  exact ⟨_, _, _, _, _, _, rfl⟩

end

/-- Two symbols get one bit each, the first to pop the 0. -/
theorem execBuild_pair {s : State} {x y : Byte} (hl : IsPresent s.hist [x, y]) (hxy : PopsBefore s.hist x y) :
    ∃ t, exec .build s = .next t ∧ t.nsym = 2 ∧ t.maxLen = 1 ∧ t.tableLen = 6 ∧
      Rom.code t.rom x = [false] ∧ Rom.code t.rom y = [true] := by
  obtain ⟨c, n, hroot⟩ := buildTree_pair hl hxy
  obtain ⟨t, ht, hn, hm, htab, hcode, -⟩ := execBuild_of_root hroot
  exact ⟨t, ht, hn, hm, htab, hcode (x, [false]) (by simp [codesOf]), hcode (y, [true]) (by simp [codesOf])⟩

end Sys2Proof.Machine

namespace Sys2Proof

open Machine

/-- Settles O19: BUILD writes `codeTable` of HIST as a whole, which is PrefixFree with short codes (`codeTable_good`)
for exactly the present symbols (`codeTable_code_ne_nil`). -/
theorem buildMakesAPrefixFreeCode : Obligations.BuildMakesAPrefixFreeCode := by
  intro s hpos
  obtain ⟨hfree, hclen, hsize, -⟩ := codeTable_good s.hist
  have hlong : Rom.longest (codeTable s.hist) ≤ 255 := Rom.longest_le_iff.2 hclen
  have hmax : (BitVec.ofNat 8 (Rom.longest (codeTable s.hist))).toNat = Rom.longest (codeTable s.hist) := by
    rw [BitVec.toNat_ofNat, Nat.mod_eq_of_lt (by omega)]
  have htab : (BitVec.ofNat 16 (Rom.tableLength (codeTable s.hist))).toNat = Rom.tableLength (codeTable s.hist) := by
    rw [BitVec.toNat_ofNat, Nat.mod_eq_of_lt (by omega)]
  refine ⟨_, congrArg (Run.finish .build) (buildBody_done hpos), fun b => ?_, hclen, hfree, ?_, fun b => ?_, ?_, ?_, ?_, rfl⟩
  · exact List.length_pos_iff.trans (codeTable_code_ne_nil s.hist b)
  · rw [← Hist.present_length]
    exact (BitVec.toNat_ofNat _ _).trans (Nat.mod_eq_of_lt (Nat.lt_of_le_of_lt (Hist.present_length_le _) (by decide)))
  · exact (Rom.clen_le_longest _ b).trans_eq hmax.symm
  · obtain ⟨b, hb⟩ := Rom.longest_mem (codeTable s.hist)
    exact ⟨b, hb.trans hmax.symm⟩
  · exact htab.trans (Rom.tableLength_eq_sum _)
  · exact htab.trans_le hsize

/-- Settles O20: without a present symbol there is no tree, and BUILD raises in the state it begins in. -/
theorem buildOfAnEmptyHistogram : Obligations.BuildOfAnEmptyHistogram := fun _ h =>
  congrArg (Run.finish .build) (buildBody_of_empty h)

/-- Settles O21: the tree of one symbol gives it the code "0" (`buildTree_single`). -/
theorem buildOfASingleSymbol : Obligations.BuildOfASingleSymbol := by
  intro s a ha hall
  have hl : IsPresent s.hist [a] := .of_support (List.nodup_singleton a) (by simpa using ha)
    fun b hb => hall b (by simpa using hb)
  obtain ⟨t, ht, hn, hm, htab, hcode, hrest⟩ := execBuild_of_root (buildTree_single hl)
  refine ⟨t, ht, ?_, fun b hb => ?_, hn, hm, htab⟩
  · exact hcode (a, [false]) (by simp [codesOf])
  · exact hrest b (by simpa [codesOf] using hb)

/-- Settles O22: the trees of two, three and four symbols (`buildTree_pair`, `buildTree_triple`,
`buildTree_quadruple`), and the codes read off them. -/
theorem buildOfTwoSymbols : Obligations.BuildOfTwoSymbols := by
  refine ⟨fun s a b hab ha hb hall => ?_, fun s x y z hx hxy hyz hall => ?_,
    fun s x y z w hx hxy' hyz' hzw' hxy hyz hzw hsum hall => ?_⟩
  · have hne : a ≠ b := by rintro rfl; exact Nat.lt_irrefl _ hab
    split
    next hle =>
      have hpops : PopsBefore s.hist a b := by
        simp only [PopsBefore, ← BitVec.toNat_inj]
        omega
      have hl : IsPresent s.hist [a, b] := .of_support (by simp [hne]) (by simpa using ⟨ha, hb⟩)
        fun c hc => hall c (by simp_all) (by simp_all)
      exact execBuild_pair hl hpops
    next hgt =>
      have hl : IsPresent s.hist [b, a] := .of_support (by simp [hne.symm]) (by simpa using ⟨hb, ha⟩)
        fun c hc => hall c (by simp_all) (by simp_all)
      obtain ⟨t, ht, hn, hm, htab, hcb, hca⟩ := execBuild_pair hl (.inl (Nat.not_le.1 hgt))
      exact ⟨t, ht, hn, hm, htab, hca, hcb⟩
  · have hy := hxy.count_ne_zero hx
    have hl : IsPresent s.hist [x, y, z] := .of_support (by simp [hxy.ne, hyz.ne, (hxy.trans hyz).ne])
      (by simpa using ⟨hx, hy, hyz.count_ne_zero hy⟩) fun c hc => hall c (by simp_all) (by simp_all) (by simp_all)
    obtain ⟨c, n, p, q, hroot⟩ := buildTree_triple hl hxy hyz
    by_cases hle : (Hist.count s.hist z).toNat ≤ (Hist.count s.hist x).toNat + (Hist.count s.hist y).toNat
    · rw [if_pos hle] at hroot
      obtain ⟨t, ht, hn, hm, htab, hcode, -⟩ := execBuild_of_root hroot
      refine ⟨t, ht, hn, hm, htab, ?_⟩
      rw [if_pos hle]
      exact ⟨hcode (z, [false]) (by simp [codesOf]), hcode (x, [true, false]) (by simp [codesOf]),
        hcode (y, [true, true]) (by simp [codesOf])⟩
    · rw [if_neg hle] at hroot
      obtain ⟨t, ht, hn, hm, htab, hcode, -⟩ := execBuild_of_root hroot
      refine ⟨t, ht, hn, hm, htab, ?_⟩
      rw [if_neg hle]
      exact ⟨hcode (x, [false, false]) (by simp [codesOf]), hcode (y, [false, true]) (by simp [codesOf]),
        hcode (z, [true]) (by simp [codesOf])⟩
  · have hy := hxy.count_ne_zero hx
    have hz := hyz.count_ne_zero hy
    have hl : IsPresent s.hist [x, y, z, w] := .of_support
      (by simp [hxy.ne, hyz.ne, hzw.ne, (hxy.trans hyz).ne, (hyz.trans hzw).ne, ((hxy.trans hyz).trans hzw).ne])
      (by simpa using ⟨hx, hy, hz, hzw.count_ne_zero hz⟩)
      fun c hc => hall c (by simp_all) (by simp_all) (by simp_all) (by simp_all)
    obtain ⟨c, n, p, q, p', q', hroot⟩ := buildTree_quadruple hl hxy hyz hzw hsum
    obtain ⟨t, ht, hn, hm, htab, hcode, -⟩ := execBuild_of_root hroot
    exact ⟨t, ht, hn, hm, htab, hcode (x, [false, false]) (by simp [codesOf]),
      hcode (y, [false, true]) (by simp [codesOf]), hcode (z, [true, false]) (by simp [codesOf]),
      hcode (w, [true, true]) (by simp [codesOf])⟩

/-- Settles O23: `popLeast` permutes the list and leaves no earlier node, and the round is `mergeLoop_succ`. -/
theorem popTakesTheLeastNode : Obligations.PopTakesTheLeastNode := by
  constructor
  · exact fun a rest => ⟨popLeast_perm a rest, fun n hn => Node.before_eq_false_iff.1 (popLeast_least a rest n hn)⟩
  · intro rounds next a b rest
    obtain ⟨x, y, left, hperm, hx, hy, hround⟩ := mergeLoop_succ rounds next a b rest
    exact ⟨x, y, left, hperm, fun n hn => Node.before_eq_false_iff.1 (hx n hn),
      fun n hn => Node.before_eq_false_iff.1 (hy n hn), hround⟩

end Sys2Proof
end

section
/-! PROOFS. PACK: the container of a message, or an error before anything is written (spec/43_bit_packer.md R210 to
R214). -/

namespace Sys2Proof.Machine

/-- A number that fits a register reads back from it. -/
theorem toNat_ofNat_of_lt {k n : Nat} (h : n < 2 ^ k) : (BitVec.ofNat k n).toNat = n :=
  (BitVec.toNat_ofNat n k).trans (Nat.mod_eq_of_lt h)

theorem le_eight_mul_ceilDiv8 (n : Nat) : n ≤ 8 * ceilDiv8 n := by
  unfold ceilDiv8
  omega

/-- The lengths of a container that fits OUT_BUF fit their registers. -/
theorem container_lengths_fit {counted : Bool} {r : Rom} {msg : List Byte} {p : Params} (hp : p.wellFormed = true)
    (hfit : containerLength counted r msg ≤ p.outSize) :
    containerLength counted r msg < 2 ^ 17 ∧ headerLength counted r < 2 ^ 17 ∧
      (messageBits r msg).length < 2 ^ 32 := by
  obtain ⟨-, -, -, hmax⟩ := Params.sizes hp
  have hbits := le_eight_mul_ceilDiv8 (messageBits r msg).length
  rw [containerLength] at hfit ⊢
  omega

/-- R210: PACK's check of the message stops at its first byte without a code. -/
theorem Memory.fetchMapped_of_unmapped {r : Rom} {m : Memory} {n p : Nat} {msg : List Byte} {b : Byte}
    (h : HoldsAt m p (msg ++ [b])) (hn : msg.length < n) (hm : Mapped r msg) (hb : Rom.code r b = []) :
    Memory.fetchMapped r m n p = .error (.raised (.unmappedSymbol (p + msg.length))) := by
  induction msg generalizing n p with
  | nil =>
    obtain ⟨n, rfl⟩ := Nat.exists_eq_add_of_lt hn
    have hread := (HoldsAt.cons.1 h).1
    simp [Memory.fetchMapped, Memory.fetch_of_read hread, Rom.clen, hb]
  | cons c msg ih =>
    obtain ⟨n, rfl⟩ : ∃ k, n = k + 1 := ⟨n - 1, by omega⟩
    obtain ⟨hread, hrest⟩ := HoldsAt.cons.1 h
    have hc : Rom.clen r c ≠ 0 := fun h0 => hm c List.mem_cons_self (List.length_eq_zero_iff.1 h0)
    have hih := ih hrest (Nat.lt_of_succ_lt_succ hn) fun x hx => hm x (List.mem_cons_of_mem c hx)
    simp [Memory.fetchMapped, Memory.fetch_of_read hread, hc, hih, Nat.add_assoc, Nat.add_comm 1]

end Sys2Proof.Machine

namespace Sys2Proof

open Machine

/-- Settles O24: both checks pass (`packBody_of_message`), the container stands in OUT_BUF (`holds_container`), and its
lengths fit their registers. -/
theorem packWritesTheContainer : Obligations.PackWritesTheContainer := by
  intro s msg hwf hl hi hm hmap htab hfit
  have hpack := packBody_of_message hl hi hm hmap
  have hcap : containerLength s.counted s.rom msg ≤ s.params.outSize := hfit
  rw [if_neg (Nat.not_lt.2 htab), if_neg (Nat.not_lt.2 hcap)] at hpack
  obtain ⟨hlen, hoff, hbits⟩ := container_lengths_fit hwf hcap
  obtain ⟨hheader, hbody, hrest⟩ := holds_container s.outBuf s.counted s.rom msg
  exact ⟨_, congrArg (Run.finish .pack) hpack, hheader, hbody, hrest, toNat_ofNat_of_lt hlen,
    toNat_ofNat_of_lt (htab.trans_lt (by decide)), toNat_ofNat_of_lt hbits, toNat_ofNat_of_lt hoff, rfl⟩

/-- Settles O25: the checks come in this order, all before the first write, so the state raised in is the first one. -/
theorem packErrorsChangeNoOutput : Obligations.PackErrorsChangeNoOutput := by
  intro s hi
  refine ⟨fun hbig => ?_, fun msg b htab hm hlt hmap hb => ?_, fun msg htab hm hl hmap hbig => ?_⟩
  · have hpack : packBody s = .raised (.tableTooLarge (Rom.tableLength s.rom)) s := by
      simp only [packBody, State.checkInLen_of_le hi, if_pos hbig]
    exact congrArg (Run.finish .pack) hpack
  · have hpack : packBody s = .raised (.unmappedSymbol (0 + msg.length)) s := by
      simp only [packBody, State.checkInLen_of_le hi, if_neg (Nat.not_lt.2 htab),
        Memory.fetchMapped_of_unmapped hm hlt hmap hb, Stop.at]
    rw [Nat.zero_add] at hpack
    exact congrArg (Run.finish .pack) hpack
  · have hpack := packBody_of_message hl hi hm hmap
    have hcap : s.params.outSize < containerLength s.counted s.rom msg := hbig
    rw [if_neg (Nat.not_lt.2 htab), if_pos hcap] at hpack
    exact congrArg (Run.finish .pack) hpack

end Sys2Proof
end

section
/-! PROOFS. LOADTAB: the table of a header, and PARSE's conditions in their order (spec/44_decoder.md R230 to R232). -/

namespace Sys2Proof.Machine

/-! ## The state LOADTAB leaves -/

/-- LOADTAB's result on a header with these entries and, in the counted format, the bit count `n`. -/
def loadedState (s : State) (entries : List (Byte × Code)) (n : Nat) : State :=
  { s with
    rom := Rom.ofEntries entries
    nsym := BitVec.ofNat 9 entries.length
    maxLen := BitVec.ofNat 8 ((entries.map fun e => e.2.length).foldl max 0)
    tableLen := BitVec.ofNat 16 (entriesLength entries)
    bodyOff := BitVec.ofNat 17 (headerSize s.ctrl.fmt entries)
    bitCnt :=
      if s.ctrl.fmt then BitVec.ofNat 32 n
      else BitVec.ofNat 32 (8 * (s.inLen.toNat - headerSize s.ctrl.fmt entries)) }

section
variable {s : State} {entries : List (Byte × Code)} {n : Nat}

theorem loadtabBody_eq_loadedState (hg : GoodEntries entries) (ht : entriesLength entries ≤ 255)
    (h : HoldsAt s.inBuf 0 (headerBytes s.ctrl.fmt entries n)) (hl : headerSize s.ctrl.fmt entries ≤ s.inLen.toNat)
    (hi : s.inLen.toNat ≤ s.params.inSize) : loadtabBody s = .done (loadedState s entries n) :=
  loadtabBody_of_header hg ht h hl hi

theorem loadedState_romInv (hg : GoodEntries entries) (ht : entriesLength entries ≤ 255) :
    RomInv (loadedState s entries n) := .of_entries hg ht rfl rfl rfl rfl

theorem loadedState_nsym (ht : entriesLength entries ≤ 255) : (loadedState s entries n).nsym.toNat = entries.length :=
  toNat_ofNat_of_lt ((length_le_entriesLength entries).trans_lt (ht.trans_lt (by decide)))

theorem loadedState_tableLen (ht : entriesLength entries ≤ 255) :
    (loadedState s entries n).tableLen.toNat = entriesLength entries :=
  toNat_ofNat_of_lt (ht.trans_lt (by decide))

theorem loadedState_bodyOff (hl : headerSize s.ctrl.fmt entries ≤ s.inLen.toNat) :
    (loadedState s entries n).bodyOff.toNat = headerSize s.ctrl.fmt entries :=
  toNat_ofNat_of_lt (hl.trans_lt s.inLen.isLt)

theorem loadedState_bitCnt (hn : n < 2 ^ 32) : (loadedState s entries n).bitCnt.toNat =
    if s.ctrl.fmt then n else 8 * (s.inLen.toNat - headerSize s.ctrl.fmt entries) := by
  have hin := s.inLen.isLt
  show BitVec.toNat (if s.ctrl.fmt then _ else _) = _
  split
  · exact toNat_ofNat_of_lt hn
  · exact toNat_ofNat_of_lt (by omega)

end

/-! ## The errors of a parse -/

/-- R230: LOADTAB raises what PARSE does, in the state it begins in. -/
theorem execLoadtab_of_malformed {s : State} {sub : SubCause} {info : Nat} (hi : s.inLen.toNat ≤ s.params.inSize)
    (hp : parse s.counted s.inBuf s.inLen.toNat = .error (malformedAt sub info)) :
    exec .loadtab s = .next (s.failed 4 sub.code info) := by
  have hload : loadtabBody s = .raised (.malformed sub info) s := by
    simp only [loadtabBody, State.checkInLen_of_le hi, hp, malformedAt, Stop.at]
  exact congrArg (Run.finish .loadtab) hload

/-- R231: after a good table PARSE stops as the reading of the bit count does. -/
theorem parse_of_bitCount_error {counted : Bool} {m : Memory} {inLen : Nat} {entries : List (Byte × Code)}
    {stop : Stop} (hg : GoodEntries entries) (ht : entriesLength entries ≤ 255) (h : HoldsAt m 0 (tableBytes entries))
    (hl : 1 + entriesLength entries ≤ inLen)
    (hb : parseBitCount counted m inLen (1 + entriesLength entries) = .error stop) :
    parse counted m inLen = .error stop := by
  obtain ⟨hT, hentries⟩ := HoldsAt.cons.1 h
  have hsize : (BitVec.ofNat 8 (entriesLength entries)).toNat = entriesLength entries :=
    toNat_ofNat_of_lt (Nat.lt_succ_of_le ht)
  have hlen : ∀ e ∈ entries, e.2.length ≤ 255 := fun e he =>
    (Nat.le_add_left _ 2).trans ((code_length_of_entriesLength he).trans ht)
  have hparse := parseEntries_of_holds entries (seen := []) (tableEnd := 1 + entriesLength entries) hentries hg hlen
    rfl (length_le_entriesLength entries)
  rw [parse, if_neg (by omega), Memory.fetch_of_read hT]
  simp only [hsize, if_neg (Nat.not_lt.2 hl), hparse, hb]

/-! ## The errors of an entry -/

section
variable {m : Memory} {tableEnd p : Nat} {seen : List (Byte × Code)} {sym len : Byte}

theorem parseEntry_of_header_crossing (h : tableEnd < p + 2) :
    parseEntry m tableEnd seen p = .error (malformedAt .entryOverrun p) := by
  rw [parseEntry, if_pos h]

variable (hfit : p + 2 ≤ tableEnd) (hsym : Memory.read m p = some sym) (hlen : Memory.read m (p + 1) = some len)
include hfit hsym hlen

theorem parseEntry_of_zero_length (h0 : len = 0) :
    parseEntry m tableEnd seen p = .error (malformedAt .zeroCodeLength (p + 1)) := by
  simp only [parseEntry, if_neg (Nat.not_lt.2 hfit), Memory.fetch_of_read hsym, Memory.fetch_of_read hlen, if_pos h0]

theorem parseEntry_of_bits_crossing (h0 : len ≠ 0) (h : tableEnd < p + 2 + len.toNat) :
    parseEntry m tableEnd seen p = .error (malformedAt .entryOverrun p) := by
  simp only [parseEntry, if_neg (Nat.not_lt.2 hfit), Memory.fetch_of_read hsym, Memory.fetch_of_read hlen, if_neg h0,
    if_pos h]

theorem parseEntry_of_code_error {stop : Stop} (h0 : len ≠ 0) (hend : p + 2 + len.toNat ≤ tableEnd)
    (hcode : parseCode m len.toNat (p + 2) = .error stop) : parseEntry m tableEnd seen p = .error stop := by
  simp only [parseEntry, if_neg (Nat.not_lt.2 hfit), Memory.fetch_of_read hsym, Memory.fetch_of_read hlen, if_neg h0,
    if_neg (Nat.not_lt.2 hend), hcode]

variable {code : Code} (h0 : len ≠ 0) (hend : p + 2 + len.toNat ≤ tableEnd)
  (hcode : parseCode m len.toNat (p + 2) = .ok code)
include h0 hend hcode

theorem parseEntry_of_duplicate (hdup : sym ∈ seen.map Prod.fst) :
    parseEntry m tableEnd seen p = .error (malformedAt .duplicateSymbol p) := by
  have hany : (seen.any fun e => e.1 == sym) = true := by simpa [List.any_eq_true] using hdup
  simp only [parseEntry, if_neg (Nat.not_lt.2 hfit), Memory.fetch_of_read hsym, Memory.fetch_of_read hlen, if_neg h0,
    if_neg (Nat.not_lt.2 hend), hcode, if_pos hany]

theorem parseEntry_of_related (hnew : sym ∉ seen.map Prod.fst) (hrel : ∃ e ∈ seen, e.2 <+: code ∨ code <+: e.2) :
    parseEntry m tableEnd seen p = .error (malformedAt .notPrefixFree p) := by
  have hany : (seen.any fun e => e.1 == sym) = false :=
    List.any_eq_false.2 fun e he => by simpa using fun h : e.1 = sym => hnew (h ▸ List.mem_map_of_mem he)
  have hany' : (seen.any fun e => isPrefix e.2 code || isPrefix code e.2) = true := by
    simpa [List.any_eq_true, isPrefix_iff] using hrel
  simp only [parseEntry, if_neg (Nat.not_lt.2 hfit), Memory.fetch_of_read hsym, Memory.fetch_of_read hlen, if_neg h0,
    if_neg (Nat.not_lt.2 hend), hcode, hany, if_pos hany']
  rfl

end

end Sys2Proof.Machine

namespace Sys2Proof

open Machine

/-- Settles O26: the header parses to its entries (`loadtabBody_eq_loadedState`), and what LOADTAB stores
fits its registers. -/
theorem loadtabLoadsTheTable : Obligations.LoadtabLoadsTheTable := by
  intro s entries n hg ht hn hm hl hi
  have hnodup := hg.keys_nodup
  obtain ⟨hmax, hlongest⟩ := (loadedState_romInv (s := s) (n := n) hg ht).maxLen_spec
  exact ⟨_, congrArg (Run.finish .loadtab) (loadtabBody_eq_loadedState hg ht hm hl hi),
    fun e he => Rom.code_ofEntries_of_mem hnodup he, fun b hb => Rom.code_ofEntries_of_not_mem hnodup hb,
    loadedState_nsym (s := s) (n := n) ht, hmax, hlongest, loadedState_tableLen (s := s) (n := n) ht,
    loadedState_bodyOff (n := n) hl, loadedState_bitCnt hn, rfl⟩

/-- Settles O27: LOADTAB's body raises in the state it begins in (`loadtabBody_raised`), and a run that is done leaves
ERR as it was. -/
theorem loadtabErrorChangesNothing : Obligations.LoadtabErrorChangesNothing := by
  intro s t h herr herr'
  obtain ⟨e, u, hr, rfl⟩ := (loadtabBody_lawful s).raised_of_err h herr herr'
  rw [loadtabBody_raised hr]
  rfl

/-- Settles O28: without a byte, with a table past IN_LEN, or without room for N, PARSE stops there. -/
theorem loadtabContainerErrors : Obligations.LoadtabContainerErrors := by
  intro s hi
  refine ⟨fun h0 => execLoadtab_of_malformed (sub := .noLengthByte) hi ?_,
    fun T hT hpos hover => execLoadtab_of_malformed (sub := .tableOverrun) hi ?_,
    fun entries hg ht hm hl hf hshort => execLoadtab_of_malformed (sub := .noBitCount) hi ?_⟩
  · rw [parse, if_pos (by omega)]
  · rw [parse, if_neg (by omega), Memory.fetch_of_read hT]
    exact if_pos hover
  · refine parse_of_bitCount_error hg ht hm hl ?_
    rw [parseBitCount, if_pos (by exact hf), if_pos hshort]

/-- Settles O29: the entry after the good ones stops PARSE (`parse_of_entry_error`); its checks come in this order. -/
theorem loadtabEntryErrors : Obligations.LoadtabEntryErrors := by
  intro s T entries tail hi hl hg ht hm
  obtain ⟨hentries, htail⟩ := HoldsAt.append.1 hm
  have hp : 0 + (T :: serializeEntries entries).length = 1 + entriesLength entries := by
    rw [List.length_cons, serializeEntries_length]
    omega
  rw [hp] at htail
  have stops : ∀ sub info, parseEntry s.inBuf (1 + T.toNat) entries (1 + entriesLength entries) =
      .error (malformedAt sub info) → exec .loadtab s = .next (s.failed 4 sub.code info) := fun sub info he =>
    execLoadtab_of_malformed hi (parse_of_entry_error hl hg ht hentries he)
  refine ⟨fun hcross => stops .entryOverrun _ (parseEntry_of_header_crossing (by omega)), ?_⟩
  rintro sym L more rfl hfit
  obtain ⟨hsym, htail⟩ := HoldsAt.cons.1 htail
  obtain ⟨hL, hmore⟩ := HoldsAt.cons.1 htail
  have hfit' : 1 + entriesLength entries + 2 ≤ 1 + T.toNat := by omega
  refine ⟨fun h0 => ?_, fun h0 hcross => ?_, ?_, ?_⟩
  · exact stops .zeroCodeLength _ (parseEntry_of_zero_length hfit' hsym hL h0)
  · exact stops .entryOverrun _ (parseEntry_of_bits_crossing hfit' hsym hL h0 (by omega))
  · rintro c x rest hend rfl hlt hx0 hx1
    have h0 : L ≠ 0 := by
      rintro rfl
      exact Nat.not_lt_zero _ hlt
    exact stops .badBitByte _
      (parseEntry_of_code_error hfit' hsym hL h0 (by omega) (parseCode_bad hmore hlt hx0 hx1))
  · rintro c rest hend h0 rfl hc
    have hcode : parseCode s.inBuf L.toNat (1 + entriesLength entries + 2) = .ok c :=
      hc ▸ parseCode_of_holds (HoldsAt.append.1 hmore).1
    exact ⟨fun hdup => stops .duplicateSymbol _
        (parseEntry_of_duplicate hfit' hsym hL h0 (by omega) hcode hdup),
      fun hnew hrel => stops .notPrefixFree _
        (parseEntry_of_related hfit' hsym hL h0 (by omega) hcode hnew hrel)⟩

end Sys2Proof
end

section
/-! PROOFS. WALK: the message of a body in both formats, the structural checks, and the errors of a path
(spec/44_decoder.md R235 to R242). -/

namespace Sys2Proof.Machine

/-! ## What the walker leaves in OUT_BUF -/

theorem Memory.writeList_append (m : Memory) (p : Nat) (xs ys : List Byte) :
    Memory.writeList m p (xs ++ ys) = Memory.writeList (Memory.writeList m p xs) (p + xs.length) ys := by
  induction xs generalizing m p with
  | nil => rfl
  | cons x xs ih =>
    rw [List.cons_append, Memory.writeList, ih, Memory.writeList, List.length_cons, Nat.add_assoc, Nat.add_comm 1]

/-- Bytes written from 0 and the bytes after them. -/
theorem Memory.writeList_zero_append (m : Memory) (xs ys : List Byte) :
    Memory.writeList (Memory.writeList m 0 xs) xs.length ys = Memory.writeList m 0 (xs ++ ys) := by
  rw [Memory.writeList_append, Nat.zero_add]

theorem SameFrom.writeList_zero (m : Memory) (bytes : List Byte) :
    SameFrom bytes.length m (Memory.writeList m 0 bytes) := by
  have h := SameFrom.writeList m 0 bytes
  rwa [Nat.zero_add] at h

/-! ## The structural checks -/

/-- R235: a failed check raises before any bit is walked. -/
theorem execWalk_of_malformed {s : State} {sub : SubCause} {info : Nat} (hi : s.inLen.toNat ≤ s.params.inSize)
    (hc : walkCheck s = .error (malformedAt sub info)) : exec .walk s = .next (s.failedOut 4 sub.code info) := by
  have hwalk : walkBody s = .raised (.malformed sub info) s := by
    simp only [walkBody, State.checkInLen_of_le hi, hc, malformedAt, Stop.at]
  exact congrArg (Run.finish .walk) hwalk

/-! ## The walk after a message -/

/-- A candidate that stays inside a code is only lengthened, from the root. -/
theorem walkBits_insideACode {counted : Bool} {r : Rom} (hp : PrefixFree r) {outSize base n t k : Nat} {m out : Memory}
    {c : Code} (hc : InsideACode r c) (hb : BitsAt m base t c) :
    walkBits counted (Rom.entries r) outSize m base (c.length + n) t { cand := [], dead := false, k := k, out := out } =
      walkBits counted (Rom.entries r) outSize m base n (t + c.length)
        { cand := c, dead := false, k := k, out := out } := by
  rcases hc with rfl | ⟨s, hpre, hlt⟩
  · rw [List.length_nil, Nat.zero_add, Nat.add_zero]
  · exact walkBits_inside hp c rfl hb hpre hlt

/-- R236: in the counted format the bit that leaves every code raises DEAD_PATH at its byte. -/
theorem walkBits_deadPath {r : Rom} (hp : PrefixFree r) {outSize base n t k : Nat} {m out : Memory} {c : Code} {x : Bool}
    (hc : InsideACode r c) (hx : ∀ b, Rom.code r b ≠ [] → ¬(c ++ [x]) <+: Rom.code r b)
    (hb : BitsAt m base t (c ++ [x])) :
    walkBits true (Rom.entries r) outSize m base (c.length + (n + 1)) t
        { cand := [], dead := false, k := k, out := out } =
      .raised (.malformed .deadPath (base + (t + c.length) / 8)) out := by
  obtain ⟨hbits, hlast⟩ := BitsAt.append.1 hb
  rw [walkBits_insideACode hp hc hbits, walkBits_on (BitsAt.cons.1 hlast).1, stepBit_dead rfl hx]
  rfl

/-- The walk of a message from the start of a body writes the message and goes on at the root. -/
theorem walkBits_message_start {counted : Bool} {r : Rom} (hp : PrefixFree r) {outSize base n : Nat} {m out : Memory}
    {msg : List Byte} (hm : Mapped r msg) (hb : BitsAt m base 0 (messageBits r msg)) (ho : msg.length ≤ outSize) :
    walkBits counted (Rom.entries r) outSize m base ((messageBits r msg).length + n) 0
        { cand := [], dead := false, k := 0, out := out } =
      walkBits counted (Rom.entries r) outSize m base n (messageBits r msg).length
        { cand := [], dead := false, k := msg.length, out := Memory.writeList out 0 msg } := by
  rw [walkBits_message hp msg hm hb (by rwa [Nat.zero_add]), Nat.zero_add, Nat.zero_add]

/-! ## The legacy format's errors -/

theorem Memory.fetchBit_error {m : Memory} {base t : Nat} {stop : Stop} (h : Memory.fetchBit m base t = .error stop) :
    stop = .unwritten (base + t / 8) := by
  rcases Memory.fetch_cases m (base + t / 8) with ⟨b, hb, -⟩ | ⟨hn, -⟩
  · rw [Memory.fetchBit_of_read hb] at h
    cases h
  · rw [Memory.fetchBit, Memory.fetch_of_unwritten hn] at h
    cases h
    rfl

/-- R236, R240: a step of the legacy format raises only at the output's capacity. -/
theorem stepBit_legacy_raised {entries : List (Byte × Code)} {outSize pos : Nat} {b : Bool} {w : Walker} {e : CmdError}
    {out : Memory} (h : stepBit false entries outSize pos b w = .raised e out) : e = .outOverflow pos := by
  unfold stepBit at h
  split at h
  · cases h
  split at h
  · split at h
    · cases h
      rfl
    · cases h
  split at h
  · cases h
  · cases h

theorem walkBits_legacy_raised {entries : List (Byte × Code)} {outSize base n t : Nat} {m : Memory} {w : Walker}
    {e : CmdError} {out : Memory} (h : walkBits false entries outSize m base n t w = .raised e out) :
    ∃ pos, e = .outOverflow pos := by
  induction n generalizing t w with
  | zero => cases h
  | succ n ih =>
    cases hb : Memory.fetchBit m base t with
    | error stop =>
      rw [walkBits, hb, Memory.fetchBit_error hb] at h
      cases h
    | ok b =>
      rw [walkBits_on hb] at h
      cases hs : stepBit false entries outSize (base + t / 8) b w with
      | on w' =>
        rw [hs] at h
        exact ih h
      | raised e' out' =>
        rw [hs] at h
        cases h
        exact ⟨_, stepBit_legacy_raised hs⟩
      | unwritten i =>
        rw [hs] at h
        cases h

theorem walkCheck_legacy_error {s : State} {stop : Stop} (hf : s.ctrl.fmt = false) (h : walkCheck s = .error stop) :
    stop = malformedAt .bodyLength s.inLen.toNat := by
  by_cases hl : s.bodyOff.toNat ≤ s.inLen.toNat
  · rw [walkCheck_legacy hf hl] at h
    cases h
  · rw [walkCheck, if_pos (by omega)] at h
    cases h
    rfl

/-- R238: in the legacy format WALK raises BadLength, BODY_LENGTH or OutOverflow. -/
theorem walkBody_legacy_raised {s t : State} {e : CmdError} (hf : s.ctrl.fmt = false)
    (h : walkBody s = .raised e t) :
    (∃ n, e = .badLength n) ∨ (∃ n, e = .malformed .bodyLength n) ∨ ∃ n, e = .outOverflow n := by
  rcases s.checkInLen_cases with ⟨-, hi⟩ | ⟨hlen, -⟩
  · cases hc : walkCheck s with
    | error stop =>
      have hstop := walkCheck_legacy_error hf hc
      simp only [walkBody, State.checkInLen_of_le hi, hc, hstop, malformedAt, Stop.at] at h
      cases h
      exact .inr (.inl ⟨_, rfl⟩)
    | ok n =>
      have hf' : s.counted = false := hf
      rw [walkBody_of_check hi hc, hf'] at h
      generalize hw : walkBits false (Rom.entries s.rom) s.params.outSize s.inBuf s.bodyOff.toNat n 0
        { cand := [], dead := false, k := 0, out := s.outBuf } = walked at h
      cases walked with
      | on w =>
        simp only [walkEnd, hf', Bool.false_and, Bool.false_eq_true, if_false] at h
        cases h
      | raised e' out =>
        obtain ⟨pos, rfl⟩ := walkBits_legacy_raised hw
        cases h
        exact .inr (.inr ⟨pos, rfl⟩)
      | unwritten i => cases h
  · rw [walkBody, hlen] at h
    cases h
    exact .inl ⟨_, rfl⟩

end Sys2Proof.Machine

namespace Sys2Proof

open Machine

/-- Settles O30: the checks pass and the walk writes the message (`walkBody_of_message`). -/
theorem walkDecodesTheMessage : Obligations.WalkDecodesTheMessage := by
  intro s msg hf hwf hp hm hb hn hl hi ho
  obtain ⟨-, -, -, hmax⟩ := Params.sizes hwf
  exact ⟨_, congrArg (Run.finish .walk) (walkBody_of_message hf hp hm hb hn hl hi ho), HoldsAt.writeList _ 0 msg,
    SameFrom.writeList_zero _ msg, toNat_ofNat_of_lt (by omega), rfl⟩

/-- Settles O31: after the message the padding decodes as more symbols (`walkBody_of_padded`), and bits that complete
no code emit nothing (`walkBits_legacy_tail`). -/
theorem walkLegacyOverDecodes : Obligations.WalkLegacyOverDecodes := by
  intro s msg hf hwf hp hm hi
  obtain ⟨-, -, -, hmax⟩ := Params.sizes hwf
  constructor
  · intro z d zero hd hz hb hpad hl ho
    have hwalk := walkBody_of_padded hf hp hm hd hz hb hpad hl hi ho
    rw [Memory.writeList_zero_append] at hwalk
    refine ⟨_, congrArg (Run.finish .walk) hwalk, HoldsAt.writeList _ 0 _, ?_, toNat_ofNat_of_lt (by omega), rfl⟩
    have hlen : (msg ++ List.replicate (z / d) zero).length = msg.length + z / d := by simp
    exact hlen ▸ SameFrom.writeList_zero _ _
  · rintro bits tail rfl h8 hb hl ho htail
    have hceil : ceilDiv8 (messageBits s.rom msg ++ tail).length = (messageBits s.rom msg ++ tail).length / 8 := by
      unfold ceilDiv8
      omega
    have hc := walkCheck_of_bodyHolds hb (by rw [hceil, hl]) (by simp [hf]) fun _ => h8
    obtain ⟨hmsg, hrest⟩ := BitsAt.append.1 (BitsAt.append.1 hb.bitsAt).1
    rw [Nat.zero_add] at hrest
    obtain ⟨cand, dead, hwalk⟩ := walkBits_legacy_tail (outSize := s.params.outSize) (k := msg.length)
      (out := Memory.writeList s.outBuf 0 msg) hp hrest htail
    have hcounted : s.counted = false := hf
    have hbody : walkBody s = .done { s with
        outBuf := Memory.writeList s.outBuf 0 msg, outLen := BitVec.ofNat 17 msg.length } := by
      rw [walkBody_of_check hi hc, List.length_append, hcounted, walkBits_message_start hp hm hmsg ho, hwalk]
      simp only [walkEnd, hcounted, Bool.false_and, Bool.false_eq_true, if_false]
    exact ⟨_, congrArg (Run.finish .walk) hbody, HoldsAt.writeList _ 0 msg, SameFrom.writeList_zero _ msg,
      toNat_ofNat_of_lt (by omega), rfl⟩

/-- Settles O32: each check raises in the state WALK begins in (`execWalk_of_malformed`). -/
theorem walkStructuralErrors : Obligations.WalkStructuralErrors := by
  intro s hi
  refine ⟨fun hoff => execWalk_of_malformed (sub := .bodyLength) hi ?_,
    fun hoff hf hlen => execWalk_of_malformed (sub := .bodyLength) hi ?_,
    fun last hoff hf hlen h8 hlast hpad => execWalk_of_malformed (sub := .nonzeroPadding) hi ?_⟩
  · rw [walkCheck, if_pos hoff]
  · rw [walkCheck, if_neg (Nat.not_lt.2 hoff), if_pos (by exact hf), if_pos hlen]
  · have hpos : s.bodyOff.toNat + ceilDiv8 s.bitCnt.toNat - 1 = s.inLen.toNat - 1 := by omega
    have hmask : last &&& (((1 : Byte) <<< (8 - s.bitCnt.toNat % 8)) - 1) ≠ 0 :=
      mt (and_lowMask_eq_zero (by omega)).1 hpad
    rw [walkCheck, if_neg (Nat.not_lt.2 hoff), if_pos (by exact hf), if_neg (not_not.2 hlen), if_pos h8, hpos,
      Memory.fetch_of_read hlast]
    exact if_pos hmask

/-- Settles O33: after the message the walk ends inside a code (END raises), or leaves every code
(`walkBits_deadPath`); OUT_BUF holds the message. -/
theorem walkPathErrors : Obligations.WalkPathErrors := by
  intro s msg bits hf hp hm hb hn hl hi ho
  have hc := walkCheck_counted hf hb hn hl
  have hcounted : s.counted = true := hf
  have hbits := (BitsAt.append.1 hb.bitsAt).1
  constructor
  · rintro tail b rfl hne hpre hlt
    obtain ⟨hmsg, htail⟩ := BitsAt.append.1 hbits
    rw [Nat.zero_add] at htail
    have hwalk := walkBits_insideACode (counted := true) (outSize := s.params.outSize) (n := 0) (k := msg.length)
      (out := Memory.writeList s.outBuf 0 msg) hp (.inr ⟨b, hpre, hlt⟩) htail
    have hbody : walkBody s = .raised (.malformed .truncatedCode s.inLen.toNat)
        { s with outBuf := Memory.writeList s.outBuf 0 msg } := by
      rw [walkBody_of_check hi hc, List.length_append, hcounted, walkBits_message_start hp hm hmsg ho, ← Nat.add_zero tail.length, hwalk]
      simp [walkBits, walkEnd, hcounted, hne]
    exact ⟨_, congrArg (Run.finish .walk) hbody, HoldsAt.writeList _ 0 msg, SameFrom.writeList_zero _ msg, rfl⟩
  · rintro c x more rfl hc' hx
    rw [List.append_assoc, List.append_assoc] at hbits
    obtain ⟨hmsg, hrest⟩ := BitsAt.append.1 hbits
    rw [Nat.zero_add, ← List.append_assoc] at hrest
    have hwalk := walkBits_deadPath (outSize := s.params.outSize) (n := more.length) (k := msg.length)
      (out := Memory.writeList s.outBuf 0 msg) hp hc' hx (BitsAt.append.1 hrest).1
    have hlen : (messageBits s.rom msg ++ c ++ [x] ++ more).length =
        (messageBits s.rom msg).length + (c.length + (more.length + 1)) := by
      simp only [List.length_append, List.length_singleton]
      omega
    have hbody : walkBody s = .raised
        (.malformed .deadPath (s.bodyOff.toNat + ((messageBits s.rom msg).length + c.length) / 8))
        { s with outBuf := Memory.writeList s.outBuf 0 msg } := by
      rw [walkBody_of_check hi hc, hlen, hcounted, walkBits_message_start hp hm hmsg ho, hwalk]
    exact ⟨_, congrArg (Run.finish .walk) hbody, HoldsAt.writeList _ 0 msg, SameFrom.writeList_zero _ msg, rfl⟩

/-- Settles O35: the codes of the three errors a legacy run can raise (`walkBody_legacy_raised`). -/
theorem walkLegacyHasNoPathError : Obligations.WalkLegacyHasNoPathError := by
  intro s t hf h herr herr'
  obtain ⟨e, u, hr, rfl⟩ := (walkBody_lawful s).raised_of_err h herr herr'
  rcases walkBody_legacy_raised hf hr with ⟨n, rfl⟩ | ⟨n, rfl⟩ | ⟨n, rfl⟩
  · exact .inl rfl
  · exact .inr (.inl rfl)
  · exact .inr (.inr rfl)

end Sys2Proof
end

section
/-! PROOFS. ENCODE's container and its errors (spec/45_composite.md R260). -/

namespace Sys2Proof.Machine

theorem length_le_countCap {s : State} {msg : List Byte} (hl : msg.length = s.inLen.toNat) : msg.length ≤ countCap := by
  have hin := s.inLen.isLt
  rw [countCap]
  omega

/-- The registers of ENCODE's table are true of it when PACK begins. -/
theorem encodeReady_romInv (s : State) (msg : List Byte) : RomInv (encodeReady s msg) := by
  obtain ⟨hp, hc, hsize, -⟩ := codeTable_good (Hist.countBytes Hist.zero msg)
  exact .of_table hp hc (hsize.trans_lt (by decide)) rfl rfl rfl

/-- ENCODE's state at a PACK that is done (spec/43_bit_packer.md R210). -/
def encodedState (s : State) (msg : List Byte) : State :=
  { encodeReady s msg with
    outBuf := Memory.writeList s.outBuf 0 (container s.ctrl.fmt (messageTable msg) msg)
    outLen := BitVec.ofNat 17 (containerLength s.ctrl.fmt (messageTable msg) msg)
    tableLen := BitVec.ofNat 16 (Rom.tableLength (messageTable msg))
    bitCnt := BitVec.ofNat 32 (messageBits (messageTable msg) msg).length
    bodyOff := BitVec.ofNat 17 (headerLength s.ctrl.fmt (messageTable msg)) }

section
variable {s : State} {msg : List Byte} (hl : msg.length = s.inLen.toNat) (hi : s.inLen.toNat ≤ s.params.inSize)
  (hm : HoldsAt s.inBuf 0 msg)
include hl hi hm

/-- R260: the three ways ENCODE of a message ends: PACK's two size checks, and the container. -/
theorem execEncode_eq : exec .encode s = Run.finish .encode
    (if 255 < Rom.tableLength (messageTable msg) then
      .raised (.tableTooLarge (Rom.tableLength (messageTable msg))) (encodeReady s msg)
    else if s.params.outSize < containerLength s.ctrl.fmt (messageTable msg) msg then
      .raised (.outOverflow (containerLength s.ctrl.fmt (messageTable msg) msg)) (encodeReady s msg)
    else .done (encodedState s msg)) := by
  have hmap : Mapped (encodeReady s msg).rom msg := mapped_messageTable (length_le_countCap hl)
  rw [execEncode_of_message hl hi hm, packBody_of_message (s := encodeReady s msg) hl hi hm hmap]
  rfl

theorem execEncode_done (ht : Rom.tableLength (messageTable msg) ≤ 255)
    (ho : containerLength s.ctrl.fmt (messageTable msg) msg ≤ s.params.outSize) :
    exec .encode s = .next (encodedState s msg).complete := by
  rw [execEncode_eq hl hi hm, if_neg (Nat.not_lt.2 ht), if_neg (Nat.not_lt.2 ho), Run.finish_done]

/-- An ENCODE that ends without an error passed both checks and wrote the container. -/
theorem execEncode_of_no_error {t : State} (h : exec .encode s = .next t) (ht : t.status.err = false) :
    Rom.tableLength (messageTable msg) ≤ 255 ∧
      containerLength s.ctrl.fmt (messageTable msg) msg ≤ s.params.outSize ∧ t = (encodedState s msg).complete := by
  rw [execEncode_eq hl hi hm] at h
  split at h
  · cases h
    cases ht
  next htab =>
    split at h
    · cases h
      cases ht
    next hcap =>
      cases h
      exact ⟨Nat.not_lt.1 htab, Nat.not_lt.1 hcap, rfl⟩

end

end Sys2Proof.Machine

namespace Sys2Proof

open Machine

/-- Settles O36: ENCODE's steps before PACK leave the message's counts and code table (`execEncode_eq`), and PACK writes
the container. -/
theorem encodeWritesTheContainer : Obligations.EncodeWritesTheContainer := by
  intro s msg hwf hl hi hm htab hfit
  have hcap : containerLength s.ctrl.fmt (messageTable msg) msg ≤ s.params.outSize := hfit
  obtain ⟨hlen, hoff, hbits⟩ := container_lengths_fit hwf hcap
  obtain ⟨hheader, hbody, hrest⟩ := holds_container s.outBuf s.ctrl.fmt (messageTable msg) msg
  obtain ⟨-, -, hn, hmax, htl⟩ := encodeReady_romInv s msg
  have hout : (BitVec.ofNat 17 (containerLength s.ctrl.fmt (messageTable msg) msg)).toNat = _ := toNat_ofNat_of_lt hlen
  exact ⟨_, execEncode_done hl hi hm htab hcap, count_message (length_le_countCap hl), rfl, hn, hmax, htl,
    toNat_ofNat_of_lt hbits, toNat_ofNat_of_lt hoff, hout, hheader, hbody, hout.symm ▸ hrest, rfl⟩

/-- Settles O38: both of PACK's size checks raise in the state the steps before it leave (`encodeReady`). -/
theorem encodeErrorsKeepTheTables : Obligations.EncodeErrorsKeepTheTables := by
  intro s msg hl hi hm
  have hexec := execEncode_eq hl hi hm
  have hcount := count_message (length_le_countCap hl)
  obtain ⟨-, -, hn, hmax, htl⟩ := encodeReady_romInv s msg
  constructor
  · intro hbig
    rw [if_pos hbig] at hexec
    exact ⟨_, hexec, hcount, rfl, hn, hmax, htl, rfl⟩
  · intro htab hbig
    have hcap : s.params.outSize < containerLength s.ctrl.fmt (messageTable msg) msg := hbig
    rw [if_neg (Nat.not_lt.2 htab), if_pos hcap] at hexec
    exact ⟨_, hexec, hcount, rfl, hn, hmax, htl, rfl⟩

end Sys2Proof
end

section
/-! PROOFS. DECODE is LOADTAB's body, then WALK's (spec/45_composite.md R261); and the round trip of ENCODE's output in
both formats (R262, R263). -/

namespace Sys2Proof.Machine

/-! ## DECODE -/

/-- R261: DECODE of a header goes on with WALK from the state LOADTAB leaves. -/
theorem execDecode_of_header {s : State} {entries : List (Byte × Code)} {n : Nat} (hg : GoodEntries entries)
    (ht : entriesLength entries ≤ 255) (h : HoldsAt s.inBuf 0 (headerBytes s.ctrl.fmt entries n))
    (hl : headerSize s.ctrl.fmt entries ≤ s.inLen.toNat) (hi : s.inLen.toNat ≤ s.params.inSize) :
    exec .decode s = Run.finish .decode (walkBody (loadedState s entries n)) := by
  rw [execDecode_of_le hi, loadtabBody_eq_loadedState hg ht h hl hi, Run.andThen_done]

/-- LOADTAB's result on the container of a message. -/
def containerLoaded (s : State) (entries : List (Byte × Code)) (msg : List Byte) : State :=
  loadedState s entries (messageBits (Rom.ofEntries entries) msg).length

theorem containerLoaded_romInv {s : State} {entries : List (Byte × Code)} {msg : List Byte} (hg : GoodEntries entries)
    (ht : entriesLength entries ≤ 255) : RomInv (containerLoaded s entries msg) := loadedState_romInv hg ht

/-- R261: what WALK finds when LOADTAB has read a whole container. -/
theorem execDecode_of_container {s : State} {entries : List (Byte × Code)} {msg : List Byte} (hg : GoodEntries entries)
    (ht : entriesLength entries ≤ 255)
    (h : HoldsAt s.inBuf 0 (headerBytes s.ctrl.fmt entries (messageBits (Rom.ofEntries entries) msg).length))
    (hb : BodyHolds s.inBuf (headerSize s.ctrl.fmt entries) (messageBits (Rom.ofEntries entries) msg))
    (hl : s.inLen.toNat =
      headerSize s.ctrl.fmt entries + ceilDiv8 (messageBits (Rom.ofEntries entries) msg).length)
    (hi : s.inLen.toNat ≤ s.params.inSize) :
    exec .decode s = Run.finish .decode (walkBody (containerLoaded s entries msg)) ∧
      BodyHolds s.inBuf (containerLoaded s entries msg).bodyOff.toNat (messageBits (Rom.ofEntries entries) msg) ∧
      s.inLen.toNat = (containerLoaded s entries msg).bodyOff.toNat +
        ceilDiv8 (messageBits (Rom.ofEntries entries) msg).length ∧
      (s.ctrl.fmt = true →
        (containerLoaded s entries msg).bitCnt.toNat = (messageBits (Rom.ofEntries entries) msg).length) ∧
      (containerLoaded s entries msg).bodyOff.toNat = headerSize s.ctrl.fmt entries := by
  have hle : headerSize s.ctrl.fmt entries ≤ s.inLen.toNat := hl ▸ Nat.le_add_right _ _
  have hoff : (containerLoaded s entries msg).bodyOff.toNat = headerSize s.ctrl.fmt entries := loadedState_bodyOff hle
  have hin := s.inLen.isLt
  have hbits := le_eight_mul_ceilDiv8 (messageBits (Rom.ofEntries entries) msg).length
  refine ⟨execDecode_of_header hg ht h hle hi, hoff.symm ▸ hb, hoff.symm ▸ hl, fun hf => ?_, hoff⟩
  exact (loadedState_bitCnt (by omega)).trans (if_pos hf)

/-- A symbol of the table has a code. -/
theorem mapped_ofEntries {entries : List (Byte × Code)} {msg : List Byte} (hg : GoodEntries entries)
    (h : ∀ b ∈ msg, b ∈ entries.map Prod.fst) : Mapped (Rom.ofEntries entries) msg := by
  intro b hb
  obtain ⟨e, he, rfl⟩ := List.mem_map.1 (h b hb)
  rw [Rom.code_ofEntries_of_mem hg.keys_nodup he]
  exact hg.1 e he

/-- WALK and DECODE both write OUT_BUF, so their runs end alike (R275). -/
theorem finish_decode_eq_walk (r : Run) : Run.finish .decode r = Run.finish .walk r := by cases r <;> rfl

/-- The two commands check IN_LEN alike, so an error of LOADTAB's is DECODE's (R261). -/
theorem decodeBody_of_loadtab_raised {s t : State} {e : CmdError} (h : loadtabBody s = .raised e t) :
    decodeBody s = .raised e t := by
  rcases s.checkInLen_cases with ⟨hc, -⟩ | ⟨hc, -⟩
  · simp only [decodeBody, hc, h, Run.andThen_raised]
  · simpa only [decodeBody, loadtabBody, hc] using h

theorem decodeBody_of_loadtab_done {s t : State} (h : loadtabBody s = .done t) : decodeBody s = walkBody t := by
  rcases s.checkInLen_cases with ⟨hc, -⟩ | ⟨hc, -⟩
  · simp only [decodeBody, hc, h, Run.andThen_done]
  · simp only [loadtabBody, hc] at h
    cases h

end Sys2Proof.Machine

namespace Sys2Proof

open Machine

/-- Settles O39: the header loads (`execDecode_of_header`), and the body of the message decodes to it
(`walkBody_of_message`). -/
theorem decodeGivesTheMessage : Obligations.DecodeGivesTheMessage := by
  intro s entries msg hf hwf hg ht hkeys hm hb hl hi ho
  obtain ⟨-, -, -, hmax⟩ := Params.sizes hwf
  obtain ⟨hexec, hbody, hlen, hcnt, hoff⟩ := execDecode_of_container hg ht (hf.symm ▸ hm) (hf.symm ▸ hb) (hf.symm ▸ hl) hi
  have hwalk := walkBody_of_message (s := containerLoaded s entries msg) hf (PrefixFree.ofEntries hg)
    (mapped_ofEntries hg hkeys) hbody (hcnt hf) hlen hi ho
  obtain ⟨hclen, hlongest⟩ := (containerLoaded_romInv (s := s) (msg := msg) hg ht).maxLen_spec
  have hnsym : (containerLoaded s entries msg).nsym.toNat = entries.length := loadedState_nsym ht
  have htab : (containerLoaded s entries msg).tableLen.toNat = entriesLength entries := loadedState_tableLen ht
  rw [hf] at hoff
  exact ⟨_, hexec.trans (congrArg (Run.finish .decode) hwalk), HoldsAt.writeList _ 0 msg,
    SameFrom.writeList_zero _ msg, toNat_ofNat_of_lt (by omega), rfl, hnsym, hclen, hlongest, htab, hoff, hcnt hf, rfl⟩

/-- Settles O40: an error of LOADTAB's body is DECODE's, with OUT_LEN cleared; otherwise DECODE goes on as WALK from the
state LOADTAB leaves, and WALK writes OUT_BUF and OUT_LEN alone. -/
theorem decodeTableErrorKeepsTheRom : Obligations.DecodeTableErrorKeepsTheRom := by
  intro s u hload herr
  rw [exec, execLoadtab] at hload
  cases hr : loadtabBody s with
  | unwritten n =>
    rw [hr] at hload
    cases hload
  | raised e v =>
    rw [hr, loadtabBody_raised hr] at hload
    cases hload
    refine ⟨fun _ => ⟨?_, rfl, rfl, rfl, rfl, rfl, rfl, rfl⟩, fun h => by cases h⟩
    rw [exec, execDecode, decodeBody_of_loadtab_raised hr, loadtabBody_raised hr]
    rfl
  | done v =>
    have hlaw := loadtabBody_lawful s
    rw [hr] at hload hlaw
    cases hload
    have hk : BodyKeeps s v := hlaw
    have hv : { v.complete with status := s.status, seq := s.seq } = v := by
      rw [← hk.status, ← hk.seq]
      rfl
    have hexec : exec .decode s = exec .walk v := by
      show Run.finish .decode (decodeBody s) = Run.finish .walk (walkBody v)
      rw [decodeBody_of_loadtab_done hr, finish_decode_eq_walk]
    refine ⟨fun h => ?_, fun _ => ⟨hv.symm ▸ hexec, fun t ht herr' => ?_⟩⟩
    · rw [State.complete_status, hk.status, herr] at h
      cases h
    · rw [hexec] at ht
      obtain ⟨e, w, hw, rfl⟩ := (walkBody_lawful v).raised_of_err ht (hk.status ▸ herr) herr'
      have hwrites := walkBody_writes v
      rw [hw] at hwrites
      have hw' : w = { v with outBuf := w.outBuf, outLen := w.outLen } := hwrites
      rw [hw', errStatus, ← hk.status]
      rfl

end Sys2Proof

namespace Sys2Proof.Machine

/-! ## The round trip -/

theorem HoldsAt.of_agree {m m' : Memory} {p n : Nat} {bytes : List Byte} (h : HoldsAt m p bytes)
    (hle : p + bytes.length ≤ n) (hagree : ∀ i, i < n → Memory.read m' i = Memory.read m i) : HoldsAt m' p bytes :=
  fun i hi => (hagree (p + i) (by omega)).trans (h i hi)

theorem BodyHolds.of_agree {m m' : Memory} {base n : Nat} {bits : List Bool} (h : BodyHolds m base bits)
    (hle : base + ceilDiv8 bits.length ≤ n) (hagree : ∀ i, i < n → Memory.read m' i = Memory.read m i) :
    BodyHolds m' base bits := by
  intro t ht
  obtain ⟨b, hb, hbit⟩ := h t ht
  exact ⟨b, (hagree (base + t / 8) (by omega)).trans hb, hbit⟩

/-- IN_BUF of `u` holds the container ENCODE writes of `msg`, in the format of `u`. -/
structure Copied (u : State) (msg : List Byte) : Prop where
  tableFits : Rom.tableLength (messageTable msg) ≤ 255
  inLen : u.inLen.toNat = containerLength u.ctrl.fmt (messageTable msg) msg
  inputFits : u.inLen.toNat ≤ u.params.inSize
  header : HoldsAt u.inBuf 0
    (headerBytes u.ctrl.fmt (Rom.entries (messageTable msg)) (messageBits (messageTable msg) msg).length)
  body : BodyHolds u.inBuf (headerSize u.ctrl.fmt (Rom.entries (messageTable msg))) (messageBits (messageTable msg) msg)

/-- The host's copy of ENCODE's output below OUT_LEN is the container. -/
theorem Copied.of_encode {s t u : State} {msg : List Byte} (hwf : s.params.wellFormed = true)
    (hl : msg.length = s.inLen.toNat) (hi : s.inLen.toNat ≤ s.params.inSize) (hm : HoldsAt s.inBuf 0 msg)
    (h : exec .encode s = .next t) (ht : t.status.err = false) (hp : u.params = s.params)
    (hf : u.ctrl.fmt = s.ctrl.fmt) (hlen : u.inLen = t.outLen) (hin : t.outLen.toNat ≤ s.params.inSize)
    (hcopy : ∀ i, i < t.outLen.toNat → Memory.read u.inBuf i = Memory.read t.outBuf i) :
    Copied u msg ∧ t = (encodedState s msg).complete := by
  obtain ⟨htab, hcap, rfl⟩ := execEncode_of_no_error hl hi hm h ht
  obtain ⟨hlt, -, -⟩ := container_lengths_fit hwf hcap
  obtain ⟨hheader, hbody, -⟩ := holds_container s.outBuf s.ctrl.fmt (messageTable msg) msg
  have hout : (encodedState s msg).complete.outLen.toNat = containerLength s.ctrl.fmt (messageTable msg) msg :=
    toNat_ofNat_of_lt hlt
  rw [hout] at hcopy
  refine ⟨⟨htab, by rw [hlen, hf, hout], by rwa [hlen, hp], ?_, ?_⟩, rfl⟩
  · rw [hf]
    refine hheader.of_agree ?_ hcopy
    rw [headerBytes_length, containerLength_eq]
    omega
  · rw [hf]
    exact hbody.of_agree (Nat.le_refl _) hcopy

/-- The state `v` in which DECODE of the container in `u` begins its WALK. -/
structure ReadyToWalk (u v : State) (msg : List Byte) : Prop where
  ctrl : v.ctrl = u.ctrl
  status : v.status = u.status
  params : v.params = u.params
  rom : v.rom = messageTable msg
  inputFits : v.inLen.toNat ≤ v.params.inSize
  freeCode : PrefixFree v.rom
  mapped : Mapped v.rom msg
  body : BodyHolds v.inBuf v.bodyOff.toNat (messageBits v.rom msg)
  inLen : v.inLen.toNat = v.bodyOff.toNat + ceilDiv8 (messageBits v.rom msg).length
  bitCnt : v.ctrl.fmt = true → v.bitCnt.toNat = (messageBits v.rom msg).length

/-- R262, R263: DECODE of the copied container loads the message's table and goes on as WALK. -/
theorem Copied.execDecode {u : State} {msg : List Byte} (h : Copied u msg) (hcap : msg.length ≤ countCap) :
    ∃ v, exec .decode u = Run.finish .decode (walkBody v) ∧ ReadyToWalk u v msg := by
  have hfree : PrefixFree (messageTable msg) := (codeTable_good _).1
  have hmap : Mapped (messageTable msg) msg := mapped_messageTable hcap
  have hrom := Rom.ofEntries_entries (messageTable msg)
  obtain ⟨hexec, hbody, hlen, hcnt, -⟩ := execDecode_of_container (s := u) (msg := msg) hfree.goodEntries h.tableFits
    (by rw [hrom]; exact h.header) (by rw [hrom]; exact h.body) (by rw [hrom]; exact h.inLen) h.inputFits
  refine ⟨containerLoaded u (Rom.entries (messageTable msg)) msg, hexec, rfl, rfl, rfl, hrom, h.inputFits, ?_, ?_, hbody,
    hlen, hcnt⟩
  · exact (congrArg PrefixFree hrom).mpr hfree
  · exact (congrArg (Mapped · msg) hrom).mpr hmap

/-- R262: a DECODE whose WALK runs out of OUT_BUF fails with OUT_LEN = 0. -/
theorem ReadyToWalk.finish_overflow {u v : State} {msg : List Byte} (h : ReadyToWalk u v msg) {pos : Nat} {out : Memory}
    (hw : walkBody v = .raised (.outOverflow pos) { v with outBuf := out }) :
    ∃ t, Run.finish .decode (walkBody v) = .next t ∧ t.status = errStatus u ∧
      t.errCode = { cause := 6, sub := 0 } ∧ t.outLen = 0 := by
  rw [hw, Run.finish_raised]
  exact ⟨_, rfl, by rw [errStatus, ← h.status]; rfl, rfl, rfl⟩

/-- R262: a DECODE whose WALK is done completes with DONE. -/
theorem ReadyToWalk.finish_done {u v : State} {msg out : List Byte} {n : Nat} (h : ReadyToWalk u v msg)
    (hw : walkBody v = .done { v with outBuf := Memory.writeList v.outBuf 0 out, outLen := BitVec.ofNat 17 n })
    (hn : n < 2 ^ 17) :
    ∃ t, Run.finish .decode (walkBody v) = .next t ∧ t.status = doneStatus u ∧ t.outLen.toNat = n ∧
      HoldsAt t.outBuf 0 out := by
  rw [hw, Run.finish_done]
  exact ⟨_, rfl, by rw [doneStatus, ← h.status]; rfl, toNat_ofNat_of_lt hn, HoldsAt.writeList _ 0 out⟩

/-- R263: symbols whose code is `d` 0 bits read as 0 bits. -/
theorem messageBits_replicate {r : Rom} {zero : Byte} {d : Nat} (hz : Rom.code r zero = List.replicate d false) (e : Nat) :
    messageBits r (List.replicate e zero) = List.replicate (d * e) false := by
  rw [messageBits, List.flatMap_replicate, hz, List.flatten_replicate_replicate, Nat.mul_comm]

/-- R263, R240: padding that decodes to more symbols than OUT_BUF holds is OutOverflow. -/
theorem walkBody_of_padded_overflow {s : State} {msg : List Byte} {z d : Nat} {zero : Byte} (hf : s.ctrl.fmt = false)
    (hp : PrefixFree s.rom) (hm : Mapped s.rom msg) (hd : 0 < d) (hz : Rom.code s.rom zero = List.replicate d false)
    (hb : BodyHolds s.inBuf s.bodyOff.toNat (messageBits s.rom msg))
    (hpad : z = 8 * ceilDiv8 (messageBits s.rom msg).length - (messageBits s.rom msg).length)
    (hl : s.inLen.toNat = s.bodyOff.toNat + ceilDiv8 (messageBits s.rom msg).length)
    (hi : s.inLen.toNat ≤ s.params.inSize) (ho : s.params.outSize < msg.length + z / d) :
    ∃ pos out, walkBody s = .raised (.outOverflow pos) { s with outBuf := out } := by
  have hbits : messageBits s.rom (msg ++ List.replicate (z / d) zero) =
      messageBits s.rom msg ++ List.replicate (d * (z / d)) false := by
    rw [← messageBits_replicate hz]
    exact List.flatMap_append
  have hmod : d * (z / d) + z % d = z := Nat.div_add_mod z d
  have hall := hb.bitsAt
  rw [← hpad, ← hmod, ← List.replicate_append_replicate, ← List.append_assoc, ← hbits] at hall
  have hmap : Mapped s.rom (msg ++ List.replicate (z / d) zero) := by
    intro b hmem
    rcases List.mem_append.1 hmem with hmem | hmem
    · exact hm b hmem
    · rw [List.eq_of_mem_replicate hmem, hz]
      exact List.ne_nil_of_length_pos (by simpa using hd)
  have hceil := le_eight_mul_ceilDiv8 (messageBits s.rom msg).length
  refine walkBody_of_overflow (n := z % d) hp hmap (BitsAt.append.1 hall).1 hi ?_ (by simpa using ho)
  rw [walkCheck_legacy hf (by omega), hbits, List.length_append, List.length_replicate]
  congr 1
  omega

/-- A legacy body without a byte decodes to nothing. -/
theorem walkBody_of_no_body {s : State} (hf : s.ctrl.fmt = false) (hl : s.inLen.toNat = s.bodyOff.toNat)
    (hi : s.inLen.toNat ≤ s.params.inSize) :
    walkBody s = .done { s with outBuf := Memory.writeList s.outBuf 0 [], outLen := BitVec.ofNat 17 0 } := by
  have hcounted : s.counted = false := hf
  rw [walkBody_of_check hi (walkCheck_legacy hf hl.ge), hl, Nat.sub_self, Nat.mul_zero]
  simp [walkBits, walkEnd, hcounted, Memory.writeList]

end Sys2Proof.Machine

namespace Sys2Proof

open Machine

/-- Settles O41: the copied container loads the message's table, and WALK gives the message (`walkBody_of_message`) or
runs out of OUT_BUF (`walkBody_of_overflow`). -/
theorem roundTripCounted : Obligations.RoundTripCounted := by
  intro s t u msg hwf hf hl hi hm h hs ht hp hf' hlen hin hcopy
  obtain ⟨-, -, -, hmax⟩ := Params.sizes hwf
  obtain ⟨hcopied, -⟩ := Copied.of_encode hwf hl hi hm h ht hp (hf'.trans hf.symm) hlen hin hcopy
  obtain ⟨v, hexec, hv⟩ := hcopied.execDecode (length_le_countCap hl)
  have hvf : v.ctrl.fmt = true := by rw [hv.ctrl, hf']
  have hvp : v.params = s.params := hv.params.trans hp
  have hcnt := hv.bitCnt hvf
  rw [hexec]
  constructor
  · intro ho
    exact hv.finish_done (walkBody_of_message hvf hv.freeCode hv.mapped hv.body hcnt hv.inLen hv.inputFits
      (hvp ▸ ho)) (by omega)
  · intro ho
    obtain ⟨pos, out, hw⟩ := walkBody_of_overflow (n := 0) hv.freeCode hv.mapped
      (BitsAt.append.1 hv.body.bitsAt).1 hv.inputFits (walkCheck_counted hvf hv.body hcnt hv.inLen) (hvp ▸ ho)
    exact hv.finish_overflow hw

/-- Settles O42: in the legacy format WALK decodes the padding too, as the symbol of the code of 0 bits that every
nonempty table has (`codeTable_zero`). -/
theorem roundTripLegacy : Obligations.RoundTripLegacy := by
  intro s t u msg hwf hf hl hi hm h hs ht hp hf' hlen hin hcopy
  obtain ⟨-, -, -, hmax⟩ := Params.sizes hwf
  obtain ⟨hcopied, ht'⟩ := Copied.of_encode hwf hl hi hm h ht hp (hf'.trans hf.symm) hlen hin hcopy
  obtain ⟨htab, hcap, -⟩ := execEncode_of_no_error hl hi hm h ht
  obtain ⟨-, -, hbits⟩ := container_lengths_fit hwf hcap
  have hcount := length_le_countCap hl
  obtain ⟨v, hexec, hv⟩ := hcopied.execDecode hcount
  have hvf : v.ctrl.fmt = false := by rw [hv.ctrl, hf']
  have hvp : v.params = s.params := hv.params.trans hp
  rw [hexec]
  constructor
  · rintro rfl
    have hvlen : v.inLen.toNat = v.bodyOff.toNat := by simpa [ceilDiv8] using hv.inLen
    obtain ⟨w, hw, hst, hout, -⟩ := hv.finish_done (walkBody_of_no_body hvf hvlen hv.inputFits) (by omega)
    exact ⟨w, hw, hst, BitVec.eq_of_toNat_eq hout⟩
  · intro hne
    obtain ⟨zero, d, hd, hz⟩ := codeTable_zero (mt (present_message hcount).1 hne)
    have hcnt : t.bitCnt.toNat = (messageBits v.rom msg).length := by
      rw [ht', hv.rom]
      exact toNat_ofNat_of_lt hbits
    have hvz : Rom.code v.rom zero = List.replicate d false := hv.rom ▸ hz
    refine ⟨zero, d, _, hd, by rw [ht']; exact hz, rfl, fun ho => ?_, fun ho => ?_⟩
    · rw [hcnt] at ho ⊢
      have hw := walkBody_of_padded hvf hv.freeCode hv.mapped hd hvz hv.body rfl hv.inLen hv.inputFits (hvp ▸ ho)
      rw [Memory.writeList_zero_append] at hw
      exact hv.finish_done hw (by omega)
    · rw [hcnt] at ho
      obtain ⟨pos, out, hw⟩ := walkBody_of_padded_overflow hvf hv.freeCode hv.mapped hd hvz hv.body rfl hv.inLen
        hv.inputFits (hvp ▸ ho)
      exact hv.finish_overflow hw

end Sys2Proof
end

section
/-! PROOFS. Which reads of an unwritten byte of IN_BUF stop a command (spec/70_reset_and_hazards.md R304). -/

namespace Sys2Proof.Machine

section
variable {s : State} {n : Nat} (hi : s.inLen.toNat ≤ s.params.inSize)
include hi

/-! ## The message -/

section
variable (hn : n < s.inLen.toNat) (hnone : Memory.read s.inBuf n = none) (hw : WrittenBelow s.inBuf n)
include hn hnone hw

/-- HIST reads the message in ascending order, once the counts fit. -/
theorem histBody_of_unwritten (hcap : Hist.total s.hist + s.inLen.toNat ≤ countCap) : histBody s = .unwritten n := by
  have hf : Memory.fetchRange s.inBuf s.inLen.toNat 0 = .error (.unwritten n) :=
    Memory.fetchRange_of_unwritten (Nat.zero_le n) (by omega) hnone fun j _ => hw j
  simp only [histBody, State.checkInLen_of_le hi, if_neg (Nat.not_lt.2 hcap), hf, Stop.at]

/-- ENCODE's HIST step begins with an empty histogram, so the counts fit. -/
theorem encodeBody_of_unwritten : encodeBody s = .unwritten n := by
  have hin := s.inLen.isLt
  have hcap : Hist.total Hist.zero + s.inLen.toNat ≤ countCap := by
    rw [Hist.total_zero, countCap]
    omega
  have hhist : (clearBody s).andThen histBody = .unwritten n :=
    histBody_of_unwritten (s := { s with
      hist := Hist.zero, rom := Rom.empty, nsym := 0, maxLen := 0, tableLen := 0, bitCnt := 0, bodyOff := 0
      outLen := 0 }) hi hn hnone hw hcap
  rw [encodeBody, State.checkInLen_of_le hi, hhist]
  rfl

/-- PACK reads the message as long as its bytes have codes. -/
theorem packBody_of_unwritten (htab : Rom.tableLength s.rom ≤ 255)
    (hmap : ∀ i b, i < n → Memory.read s.inBuf i = some b → Rom.code s.rom b ≠ []) : packBody s = .unwritten n := by
  have hf : Memory.fetchMapped s.rom s.inBuf s.inLen.toNat 0 = .error (.unwritten n) := by
    refine Memory.fetchMapped_of_unwritten (Nat.zero_le n) (by omega) hnone fun j _ hj => ?_
    obtain ⟨b, hb⟩ := Option.ne_none_iff_exists'.1 (hw j hj)
    exact ⟨b, hb, hmap j b hj hb⟩
  simp only [packBody, State.checkInLen_of_le hi, if_neg (Nat.not_lt.2 htab), hf, Stop.at]

end

/-! ## The container -/

/-- LOADTAB and DECODE stop where PARSE does. -/
theorem exec_of_parse_unwritten (hp : parse s.counted s.inBuf s.inLen.toNat = .error (.unwritten n)) :
    exec .loadtab s = .fault (.unwrittenInput n) ∧ exec .decode s = .fault (.unwrittenInput n) := by
  have hload : loadtabBody s = .unwritten n := by
    simp only [loadtabBody, State.checkInLen_of_le hi, hp, Stop.at]
  refine ⟨congrArg (Run.finish .loadtab) hload, ?_⟩
  rw [execDecode_of_le hi, hload]
  rfl

end

theorem parse_of_unwritten_length {counted : Bool} {m : Memory} {inLen : Nat} (hl : 0 < inLen)
    (h : Memory.read m 0 = none) : parse counted m inLen = .error (.unwritten 0) := by
  rw [parse, if_neg (by omega), Memory.fetch_of_unwritten h]

theorem parseEntry_of_unwritten {m : Memory} {tableEnd p : Nat} {seen : List (Byte × Code)} (hfit : p + 2 ≤ tableEnd)
    (h : Memory.read m p = none) : parseEntry m tableEnd seen p = .error (.unwritten p) := by
  rw [parseEntry, if_neg (Nat.not_lt.2 hfit), Memory.fetch_of_unwritten h]

theorem parseBitCount_of_unwritten {m : Memory} {inLen p : Nat} (hfit : p + 4 ≤ inLen) (h : Memory.read m p = none) :
    parseBitCount true m inLen p = .error (.unwritten p) := by
  rw [parseBitCount, if_pos rfl, if_neg (Nat.not_lt.2 hfit), Memory.fetchBE32, Memory.fetch_of_unwritten h]

/-! ## The body -/

section
variable {s : State} {n : Nat} (hi : s.inLen.toNat ≤ s.params.inSize) (hn : n < s.inLen.toNat)
  (hnone : Memory.read s.inBuf n = none) (hoff : s.bodyOff.toNat ≤ n)
include hi hn hnone hoff

/-- The legacy walk reaches the first unwritten byte when the bits before it cannot overflow OUT_BUF. -/
theorem walkBody_legacy_of_unwritten (hf : s.ctrl.fmt = false)
    (hw : ∀ i, s.bodyOff.toNat ≤ i → i < n → Memory.read s.inBuf i ≠ none)
    (ho : 8 * (n - s.bodyOff.toNat) ≤ s.params.outSize) : walkBody s = .unwritten n := by
  have hcounted : s.counted = false := hf
  rw [walkBody_of_check hi (walkCheck_legacy hf (by omega)), hcounted,
    walkBits_legacy_unwritten hoff hnone hw (Nat.zero_le _) (by omega) (by simpa using ho)]

/-- The counted format reads the padded last byte first, and the first byte when there is no padding. -/
theorem walkBody_counted_of_unwritten (hf : s.ctrl.fmt = true)
    (hlen : s.inLen.toNat - s.bodyOff.toNat = ceilDiv8 s.bitCnt.toNat)
    (hfirst : if s.bitCnt.toNat % 8 = 0 then n = s.bodyOff.toNat else n = s.inLen.toNat - 1) :
    walkBody s = .unwritten n := by
  have hcounted : s.counted = true := hf
  have hcheck : ¬s.bodyOff.toNat > s.inLen.toNat := by omega
  split at hfirst
  next h8 =>
    have hc : walkCheck s = .ok s.bitCnt.toNat := by
      rw [walkCheck, if_neg hcheck, if_pos hcounted, if_neg (not_not.2 hlen), if_neg (not_not.2 h8)]
    obtain ⟨k, hk⟩ : ∃ k, s.bitCnt.toNat = k + 1 := by
      refine ⟨s.bitCnt.toNat - 1, ?_⟩
      rw [ceilDiv8] at hlen
      omega
    have hbit : Memory.fetchBit s.inBuf s.bodyOff.toNat 0 = .error (.unwritten n) := by
      rw [Memory.fetchBit, Nat.zero_div, Nat.add_zero, ← hfirst, Memory.fetch_of_unwritten hnone]
    rw [walkBody_of_check hi hc, hk, walkBits, hbit]
  next h8 =>
    have hlast : s.bodyOff.toNat + ceilDiv8 s.bitCnt.toNat - 1 = n := by omega
    have hc : walkCheck s = .error (.unwritten n) := by
      rw [walkCheck, if_neg hcheck, if_pos hcounted, if_neg (not_not.2 hlen), if_pos h8, hlast,
        Memory.fetch_of_unwritten hnone]
    simp only [walkBody, State.checkInLen_of_le hi, hc, Stop.at]

end

end Sys2Proof.Machine

namespace Sys2Proof

open Machine

/-- Settles O8: a lawful run stops only at such a byte, and each command that reads one does stop there. -/
theorem commandStopsOnlyAtUnwrittenInput : Obligations.CommandStopsOnlyAtUnwrittenInput := by
  constructor
  · intro i s
    obtain ⟨r, hr, hlaw⟩ := exec_eq_finish i s
    rw [hr]
    cases r with
    | done t => exact ⟨nofun, nofun⟩
    | raised e t => exact ⟨nofun, nofun⟩
    | unwritten n =>
      refine ⟨fun f hf => ?_, nofun⟩
      cases hf
      exact ⟨n, hlaw.1, hlaw.2, rfl⟩
  · intro s n hi hn hnone
    refine ⟨fun hw => ⟨fun hcap => ?_, ?_, fun htab hmap => ?_⟩, ?_, ?_, ?_, fun hf hoff hw ho => ?_,
      fun hf hoff hlen hfirst => ?_⟩
    · exact congrArg (Run.finish .hist) (histBody_of_unwritten hi hn hnone hw hcap)
    · exact congrArg (Run.finish .encode) (encodeBody_of_unwritten hi hn hnone hw)
    · exact congrArg (Run.finish .pack) (packBody_of_unwritten hi hn hnone hw htab hmap)
    · rintro rfl
      exact exec_of_parse_unwritten hi (parse_of_unwritten_length hn hnone)
    · rintro T entries hg hT hl hm rfl
      exact exec_of_parse_unwritten hi
        (parse_of_entry_error hl hg (by omega) hm (parseEntry_of_unwritten (by omega) hnone))
    · rintro entries hf hg ht hm hl rfl
      have hcounted : s.counted = true := hf
      exact exec_of_parse_unwritten hi
        (parse_of_bitCount_error hg ht hm (by omega) (hcounted ▸ parseBitCount_of_unwritten hl hnone))
    · exact congrArg (Run.finish .walk) (walkBody_legacy_of_unwritten hi hn hnone hoff hf hw ho)
    · exact congrArg (Run.finish .walk) (walkBody_counted_of_unwritten hi hn hnone hoff hf hlen hfirst)

end Sys2Proof
end

section
/-! PROOFS. The host's accesses: what a well-formed access answers in each region of the map, and what it changes
(spec/20_memory.md R80 to R92, spec/60_exceptions.md R279, spec/10_state.md R31 to R52). -/

namespace Sys2Proof.Machine

/-! ## The step of a well-formed access -/

theorem step_access_of_wellFormed (s : State) {a : Access} (h : a.wellFormed = true) :
    step (s.withNext (.access a)) = s.perform a := by
  rw [step_access, hostAccess_eq, if_pos h]

section
variable {s t : State} {off : Nat}

theorem offset_mod_four : (BitVec.ofNat 18 off : Offset).toNat % 4 = off % 4 := by
  rw [BitVec.toNat_ofNat]
  omega

theorem wellFormed_word (h : off % 4 = 0) : (Access.read32 (BitVec.ofNat 18 off)).wellFormed = true ∧
    ∀ v, (Access.write32 (BitVec.ofNat 18 off) v).wellFormed = true := by
  have h' : decide ((BitVec.ofNat 18 off : Offset).toNat % 4 = 0) = true := decide_eq_true (offset_mod_four.trans h)
  exact ⟨h', fun _ => h'⟩

theorem wellFormed_byte (hlo : 0x10000 ≤ off) (hhi : off < 0x30000) :
    (Access.read8 (BitVec.ofNat 18 off)).wellFormed = true ∧
    ∀ v, (Access.write8 (BitVec.ofNat 18 off) v).wellFormed = true := by
  have h : decide (0x10000 ≤ (BitVec.ofNat 18 off : Offset).toNat ∧ (BitVec.ofNat 18 off : Offset).toNat ≤ 0x2FFFF) =
      true := by
    rw [toNat_offset (by omega)]
    exact decide_eq_true (by omega)
  exact ⟨h, fun _ => h⟩

theorem step_read32 (h : off % 4 = 0) {w : Word} {d : Nat} (hr : s.read32 (BitVec.ofNat 18 off) = (w, d)) :
    step (s.withNext (.access (.read32 (BitVec.ofNat 18 off)))) = .next { s with busResp := .data32 w, draws := d } := by
  rw [step_access_of_wellFormed s (wellFormed_word h).1, State.perform, hr]

theorem step_read8 (hlo : 0x10000 ≤ off) (hhi : off < 0x30000) {b : Byte} {d : Nat}
    (hr : s.read8 (BitVec.ofNat 18 off) = (b, d)) :
    step (s.withNext (.access (.read8 (BitVec.ofNat 18 off)))) = .next { s with busResp := .data8 b, draws := d } := by
  rw [step_access_of_wellFormed s (wellFormed_byte hlo hhi).1, State.perform, hr]

theorem writesWord_of_write32 (h : off % 4 = 0) {v : Word} (hw : s.write32 (BitVec.ofNat 18 off) v = .next t) :
    WritesWord s off v t := by
  rw [WritesWord, step_access_of_wellFormed s ((wellFormed_word h).2 v), State.perform, hw]
  rfl

theorem writesByte_of_writeBytes (hlo : 0x10000 ≤ off) (hhi : off < 0x30000) {v : Byte}
    (hw : s.writeBytes (BitVec.ofNat 18 off) [v] = .next t) : WritesByte s off v t := by
  rw [WritesByte, step_access_of_wellFormed s ((wellFormed_byte hlo hhi).2 v), State.perform, hw]
  rfl

/-! ## A read that holds a value, one that is a draw, and one of an output -/

theorem readsWord_of_read32 (h : off % 4 = 0) {v : Word} (hr : s.read32 (BitVec.ofNat 18 off) = (v, s.draws)) :
    ReadsWord s off v := step_read32 h hr

theorem readsWord_of_output (h : off % 4 = 0) {v : Word} (hr : s.read32 (BitVec.ofNat 18 off) = s.output v)
    (hb : s.status.busy = false) : ReadsWord s off v :=
  step_read32 h (hr.trans (by rw [State.output, hb]; rfl))

theorem drawsWord_of_output (h : off % 4 = 0) {v : Word} (hr : s.read32 (BitVec.ofNat 18 off) = s.output v)
    (hb : s.status.busy = true) : DrawsWord s off :=
  step_read32 h (hr.trans (by rw [State.output, hb]; rfl))

/-! ## The registers -/

theorem regAt_lt {o : Offset} {r : Reg} (h : regAt o = some r) : o.toNat < 0x1000 := by
  unfold regAt at h
  split at h
  case h_14 => cases h
  all_goals omega

theorem read32_register {o : Offset} {r : Reg} (h : regAt o = some r) :
    s.read32 o = if regIsResult r then s.output (s.regWord r) else (s.regWord r, s.draws) := by
  rw [State.read32, regionOf_reg (regAt_lt h), h]

theorem write32_register {o : Offset} {r : Reg} (h : regAt o = some r) (v : Word) :
    s.write32 o v = .next (s.writeReg r v) := by
  rw [State.write32, regionOf_reg (regAt_lt h), h]

theorem readsWord_register (h : off % 4 = 0) {r : Reg} (hr : regAt (BitVec.ofNat 18 off) = some r)
    (hres : regIsResult r = false) : ReadsWord s off (s.regWord r) :=
  readsWord_of_read32 h (by rw [read32_register hr, hres]; rfl)

theorem read32_result {o : Offset} {r : Reg} (hr : regAt o = some r) (hres : regIsResult r = true) :
    s.read32 o = s.output (s.regWord r) := by
  rw [read32_register hr, hres]
  rfl

theorem writesWord_register (h : off % 4 = 0) {r : Reg} (hr : regAt (BitVec.ofNat 18 off) = some r) (v : Word) :
    WritesWord s off v (s.writeReg r v) :=
  writesWord_of_write32 h (write32_register hr v)

end

/-! ## The register words -/

theorem Ctrl.word_eq (c : Ctrl) : c.word = BitVec.ofNat 32 (c.fmt.toNat + 2 * c.ie.toNat) := by
  obtain ⟨fmt, ie⟩ := c
  cases fmt <;> cases ie <;> rfl

theorem Status.word_eq (st : Status) : st.word =
    BitVec.ofNat 32 (st.busy.toNat + 2 * st.done.toNat + 4 * st.err.toNat + 8 * st.ovr.toNat) := by
  obtain ⟨busy, done, err, ovr⟩ := st
  cases busy <;> cases done <;> cases err <;> cases ovr <;> rfl

theorem ErrCode.word_eq (e : ErrCode) : e.word = BitVec.ofNat 32 (e.cause.toNat + 256 * e.sub.toNat) := by
  have hc := e.cause.isLt
  have hs := e.sub.isLt
  apply BitVec.eq_of_toNat_eq
  rw [ErrCode.word, BitVec.toNat_append, BitVec.toNat_append, BitVec.toNat_ofNat, ← Nat.shiftLeft_add_eq_or_of_lt hc,
    Nat.shiftLeft_eq]
  simp
  omega

/-! ## The windows of HIST and of the ROM -/

section
variable {s : State} {o : Offset}

theorem read32_histw (hlo : 0x1000 ≤ o.toNat) (hhi : o.toNat < 0x1400) :
    s.read32 o = s.output (Hist.count s.hist (histSymbol o)) := by
  rw [State.read32, regionOf_histw hlo hhi]

theorem read32_romw (hlo : 0x2000 ≤ o.toNat) (hhi : o.toNat < 0x6000) : s.read32 o =
    if romSlotWord o ≤ 8 then s.output (romSlot (Rom.code s.rom (romSymbol o)) (romSlotWord o)) else (0, s.draws) := by
  rw [State.read32, regionOf_romw hlo hhi]

theorem write32_histw (hlo : 0x1000 ≤ o.toNat) (hhi : o.toNat < 0x1400) (v : Word) : s.write32 o v = .next s := by
  rw [State.write32, regionOf_histw hlo hhi]

theorem write32_romw (hlo : 0x2000 ≤ o.toNat) (hhi : o.toNat < 0x6000) (v : Word) : s.write32 o v = .next s := by
  rw [State.write32, regionOf_romw hlo hhi]

end

theorem histSymbol_offset (b : Byte) : histSymbol (BitVec.ofNat 18 (0x1000 + 4 * b.toNat)) = b := by
  have hb := b.isLt
  apply BitVec.eq_of_toNat_eq
  rw [histSymbol, toNat_offset (by omega), BitVec.toNat_ofNat]
  omega

section
variable (b : Byte) {k : Nat} (hk : k < 16)
include hk

theorem toNat_romOffset : (BitVec.ofNat 18 (0x2000 + 0x40 * b.toNat + 4 * k) : Offset).toNat =
    0x2000 + 0x40 * b.toNat + 4 * k := toNat_offset (by have := b.isLt; omega)

theorem romSymbol_offset : romSymbol (BitVec.ofNat 18 (0x2000 + 0x40 * b.toNat + 4 * k)) = b := by
  have hb := b.isLt
  apply BitVec.eq_of_toNat_eq
  rw [romSymbol, toNat_romOffset b hk, BitVec.toNat_ofNat]
  omega

theorem romSlotWord_offset : romSlotWord (BitVec.ofNat 18 (0x2000 + 0x40 * b.toNat + 4 * k)) = k := by
  rw [romSlotWord, toNat_romOffset b hk]
  omega

/-- R48: word `k` of a symbol's slot. -/
theorem read32_romSlot (s : State) : s.read32 (BitVec.ofNat 18 (0x2000 + 0x40 * b.toNat + 4 * k)) =
    if k ≤ 8 then s.output (romSlot (Rom.code s.rom b) k) else (0, s.draws) := by
  have hb := b.isLt
  have hoff := toNat_romOffset b hk
  rw [read32_romw (by omega) (by omega), romSymbol_offset b hk, romSlotWord_offset b hk]

end

/-- A bit string read into a number, its first bit the highest. -/
theorem testBit_foldl_bits (f : Nat → Bool) (n i : Nat) (hi : i < n) :
    ((List.range n).foldl (fun acc j => 2 * acc + (f j).toNat) 0).testBit i = f (n - 1 - i) := by
  induction n generalizing i with
  | zero => omega
  | succ n ih =>
    rw [List.range_succ, List.foldl_append, List.foldl_cons, List.foldl_nil, ← Nat.bit_val]
    cases i with
    | zero => exact Nat.testBit_bit_zero _ _
    | succ i =>
      rw [Nat.testBit_bit_succ, ih i (by omega)]
      congr 1
      omega

/-- R48: bit 31 - j of CODEW[k] is bit 32 k + j of the code. -/
theorem codeWord_getLsbD (c : Code) (k : Nat) {j : Nat} (hj : j < 32) :
    (codeWord c k).getLsbD (31 - j) = c.getD (32 * k + j) false := by
  have hlt : 31 - j < 32 := by omega
  have hpos : 32 - 1 - (31 - j) = j := by omega
  rw [codeWord, BitVec.getLsbD_ofNat, testBit_foldl_bits (fun j => c.getD (32 * k + j) false) 32 _ hlt, hpos,
    decide_eq_true hlt, Bool.true_and]

/-- CLENW shows the whole length of a code of at most 255 bits. -/
theorem romSlot_zero {c : Code} (h : c.length ≤ 255) : romSlot c 0 = BitVec.ofNat 32 c.length := by
  rw [romSlot, if_pos rfl, Nat.mod_eq_of_lt (by omega)]

theorem romSlot_succ (c : Code) {k : Nat} (h : k < 8) : romSlot c (k + 1) = codeWord c k := by
  rw [romSlot, if_neg (Nat.succ_ne_zero k), if_pos (Nat.succ_le_of_lt h), Nat.add_sub_cancel]

end Sys2Proof.Machine

namespace Sys2Proof

open Machine

/-- Settles O44: every read answers data and a draw counter that does not fall (`perform_read32`, `perform_read8`). -/
theorem readsHaveNoSideEffects : Obligations.ReadsHaveNoSideEffects := by
  intro s off
  constructor
  · intro hwf
    rw [step_access_of_wellFormed s hwf]
    exact perform_read32 s off
  · intro hwf
    rw [step_access_of_wellFormed s hwf]
    exact perform_read8 s off

/-- Settles O45: a register reads as its word (`readsWord_register`); the six results are outputs, free draws while
busy. -/
theorem registerReads : Obligations.RegisterReads := by
  refine ⟨fun s => ⟨?_, ?_, ?_, ?_, ?_, ?_, ?_⟩, fun s hb => ⟨?_, ?_, ?_, ?_, ?_, ?_⟩, fun s hb off hoff => ?_⟩
  · exact readsWord_register (r := .id) rfl rfl rfl
  · exact Ctrl.word_eq s.ctrl ▸ readsWord_register (r := .ctrl) rfl rfl rfl
  · exact readsWord_register (r := .cmd) rfl rfl rfl
  · exact Status.word_eq s.status ▸ readsWord_register (r := .status) rfl rfl rfl
  · exact ErrCode.word_eq s.errCode ▸ readsWord_register (r := .errCode) rfl rfl rfl
  · exact readsWord_register (r := .errInfo) rfl rfl rfl
  · rw [BitVec.ofNat_toNat]
    exact readsWord_register (r := .inLen) rfl rfl rfl
  · rw [BitVec.ofNat_toNat]
    exact readsWord_of_output rfl (read32_result (r := .outLen) rfl rfl) hb
  · rw [BitVec.ofNat_toNat]
    exact readsWord_of_output rfl (read32_result (r := .nsym) rfl rfl) hb
  · rw [BitVec.ofNat_toNat]
    exact readsWord_of_output rfl (read32_result (r := .maxLen) rfl rfl) hb
  · rw [BitVec.ofNat_toNat]
    exact readsWord_of_output rfl (read32_result (r := .tableLen) rfl rfl) hb
  · exact readsWord_of_output rfl (read32_result (r := .bitCnt) rfl rfl) hb
  · rw [BitVec.ofNat_toNat]
    exact readsWord_of_output rfl (read32_result (r := .bodyOff) rfl rfl) hb
  · have hres : ∀ off ∈ [0x01C, 0x020, 0x024, 0x028, 0x02C, 0x030],
        off % 4 = 0 ∧ ∃ r ∈ [Reg.outLen, .nsym, .maxLen, .tableLen, .bitCnt, .bodyOff],
          regAt (BitVec.ofNat 18 off) = some r ∧ regIsResult r = true := by decide
    obtain ⟨h4, r, -, hr, hisres⟩ := hres off hoff
    exact drawsWord_of_output h4 (read32_result hr hisres) hb

/-- Settles O46: the window is HIST, an output of the core, and holds nothing to write. -/
theorem histWindow : Obligations.HistWindow := by
  intro s b
  have hb := b.isLt
  have h4 : (0x1000 + 4 * b.toNat) % 4 = 0 := by omega
  have hoff : (BitVec.ofNat 18 (0x1000 + 4 * b.toNat) : Offset).toNat = 0x1000 + 4 * b.toNat := toNat_offset (by omega)
  have hread := read32_histw (s := s) (o := BitVec.ofNat 18 (0x1000 + 4 * b.toNat)) (by omega) (by omega)
  rw [histSymbol_offset] at hread
  exact ⟨readsWord_of_output h4 hread, drawsWord_of_output h4 hread,
    fun v => writesWord_of_write32 h4 (write32_histw (by omega) (by omega) v)⟩

/-- Settles O47: the nine words of a slot are outputs of the core (`read32_romSlot`, `codeWord_getLsbD`), the others
hold nothing, and none is written. -/
theorem romWindow : Obligations.RomWindow := by
  intro s b
  have hb := b.isLt
  have h4 : ∀ k, (0x2000 + 0x40 * b.toNat + 4 * k) % 4 = 0 := by omega
  have output : ∀ k, k ≤ 8 → s.read32 (BitVec.ofNat 18 (0x2000 + 0x40 * b.toNat + 4 * k)) =
      s.output (romSlot (Rom.code s.rom b) k) := fun k hk => (read32_romSlot b (by omega) s).trans (if_pos hk)
  refine ⟨fun hbusy hlen => ?_, fun k hk hbusy => ?_, fun k hk hbusy => ?_, fun k hk hk' _ => ?_, fun k v hk => ?_⟩
  · have hread := readsWord_of_output (h4 0) (output 0 (by omega)) hbusy
    rwa [romSlot_zero hlen] at hread
  · have hread := readsWord_of_output (h4 (k + 1)) (output (k + 1) hk) hbusy
    rw [romSlot_succ _ hk, Nat.mul_succ, Nat.add_comm _ 4, ← Nat.add_assoc] at hread
    exact ⟨_, hread, fun j hj => codeWord_getLsbD _ k hj⟩
  · exact drawsWord_of_output (h4 k) (output k (by omega)) hbusy
  · exact readsWord_of_read32 (h4 k) ((read32_romSlot b hk' s).trans (if_neg (by omega)))
  · have hoff := toNat_romOffset b hk
    exact writesWord_of_write32 (h4 k) (write32_romw (by omega) (by omega) v)

end Sys2Proof
end

section
/-! PROOFS. The buffers as the host reads and writes them, the offsets that hold nothing, and the writes of the
registers (spec/20_memory.md R82 to R90, spec/10_state.md R31 to R44, spec/70_reset_and_hazards.md R304, R310). -/

namespace Sys2Proof.Machine

/-! ## The buffers' offsets -/

section
variable {s : State} {i : Nat} (hwf : s.params.wellFormed = true)
include hwf

theorem inw_offset (hi : i < s.params.inSize) : regionOf (BitVec.ofNat 18 (0x10000 + i)) = .inw ∧
    inIndex (BitVec.ofNat 18 (0x10000 + i)) = i := by
  obtain ⟨-, hmax, -⟩ := Params.sizes hwf
  have hoff : (BitVec.ofNat 18 (0x10000 + i) : Offset).toNat = 0x10000 + i := toNat_offset (by omega)
  have hidx : inIndex (BitVec.ofNat 18 (0x10000 + i)) = i := by
    unfold inIndex
    omega
  exact ⟨regionOf_inw (by omega) (by omega), hidx⟩

theorem outw_offset (hi : i < s.params.outSize) : regionOf (BitVec.ofNat 18 (0x20000 + i)) = .outw ∧
    outIndex (BitVec.ofNat 18 (0x20000 + i)) = i := by
  obtain ⟨-, -, -, hmax⟩ := Params.sizes hwf
  have hoff : (BitVec.ofNat 18 (0x20000 + i) : Offset).toNat = 0x20000 + i := toNat_offset (by omega)
  have hidx : outIndex (BitVec.ofNat 18 (0x20000 + i)) = i := by
    unfold outIndex
    omega
  exact ⟨regionOf_outw (by omega) (by omega), hidx⟩

/-! ## Writes -/

theorem writeBytes_in (hi : i < s.params.inSize) (bytes : List Byte) :
    s.writeBytes (BitVec.ofNat 18 (0x10000 + i)) bytes =
      s.writeBuffer (BitVec.ofNat 18 (0x10000 + i)) { s with inBuf := Memory.writeList s.inBuf i bytes } := by
  obtain ⟨hreg, hidx⟩ := inw_offset hwf hi
  rw [State.writeBytes, hreg]
  simp only [hidx, if_pos hi]

theorem writeBytes_out (hi : i < s.params.outSize) (bytes : List Byte) :
    s.writeBytes (BitVec.ofNat 18 (0x20000 + i)) bytes =
      s.writeBuffer (BitVec.ofNat 18 (0x20000 + i)) { s with outBuf := Memory.writeList s.outBuf i bytes } := by
  obtain ⟨hreg, hidx⟩ := outw_offset hwf hi
  rw [State.writeBytes, hreg]
  simp only [hidx, if_pos hi]

theorem write32_in (hi : i < s.params.inSize) (v : Word) : s.write32 (BitVec.ofNat 18 (0x10000 + i)) v =
    s.writeBytes (BitVec.ofNat 18 (0x10000 + i)) (wordBytes v) := by
  rw [State.write32, (inw_offset hwf hi).1]

theorem write32_out (hi : i < s.params.outSize) (v : Word) : s.write32 (BitVec.ofNat 18 (0x20000 + i)) v =
    s.writeBytes (BitVec.ofNat 18 (0x20000 + i)) (wordBytes v) := by
  rw [State.write32, (outw_offset hwf hi).1]

/-! ## Reads -/

theorem read32_in (hi : i < s.params.inSize) :
    s.read32 (BitVec.ofNat 18 (0x10000 + i)) = hostWord s.inBuf i s.draws := by
  obtain ⟨hreg, hidx⟩ := inw_offset hwf hi
  rw [State.read32, hreg]
  simp only [hidx, if_pos hi]

theorem read8_in (hi : i < s.params.inSize) :
    s.read8 (BitVec.ofNat 18 (0x10000 + i)) = hostByte s.inBuf i s.draws := by
  obtain ⟨hreg, hidx⟩ := inw_offset hwf hi
  rw [State.read8, hreg]
  simp only [hidx, if_pos hi]

theorem read32_out (hi : i < s.params.outSize) : s.read32 (BitVec.ofNat 18 (0x20000 + i)) =
    if s.status.busy then (Config.freeWord s.draws, s.draws + 1) else hostWord s.outBuf i s.draws := by
  obtain ⟨hreg, hidx⟩ := outw_offset hwf hi
  rw [State.read32, hreg]
  simp only [hidx, if_pos hi]

theorem read8_out (hi : i < s.params.outSize) : s.read8 (BitVec.ofNat 18 (0x20000 + i)) =
    if s.status.busy then (Config.freeByte s.draws, s.draws + 1) else hostByte s.outBuf i s.draws := by
  obtain ⟨hreg, hidx⟩ := outw_offset hwf hi
  rw [State.read8, hreg]
  simp only [hidx, if_pos hi]

end

theorem writeBuffer_idle {s : State} (h : s.status.busy = false) (o : Offset) (t : State) :
    s.writeBuffer o t = .next t := by
  rw [State.writeBuffer, h]
  rfl

theorem writeBuffer_busy {s : State} (h : s.status.busy = true) (o : Offset) (t : State) :
    s.writeBuffer o t = .refused (.bufferWriteWhileBusy o) := by
  rw [State.writeBuffer, h]
  rfl

/-- R90: a word's bytes in a buffer, its lowest byte first, and the bytes around them. -/
theorem read_writeWord (m : Memory) (p : Nat) (v : Word) :
    (∀ k, k < 4 → Memory.read (Memory.writeList m p (wordBytes v)) (p + k) = some (v.extractLsb' (8 * k) 8)) ∧
    ∀ i, i < p ∨ p + 4 ≤ i → Memory.read (Memory.writeList m p (wordBytes v)) i = Memory.read m i := by
  constructor
  · intro k hk
    rw [HoldsAt.writeList m p (wordBytes v) k hk]
    interval_cases k <;> rfl
  · intro i hi
    have hlen : (wordBytes v).length = 4 := rfl
    rw [Memory.read_writeList, if_neg (by omega)]

theorem read_writeByte (m : Memory) (i : Nat) (v : Byte) : Memory.read (Memory.writeList m i [v]) i = some v ∧
    ∀ k, k ≠ i → Memory.read (Memory.writeList m i [v]) k = Memory.read m k :=
  ⟨Memory.read_write_same m i v, fun _ hk => Memory.read_write_other m v hk⟩

theorem hostByte_of_read {m : Memory} {i d : Nat} {b : Byte} (h : Memory.read m i = some b) :
    hostByte m i d = (b, d) := by
  rw [hostByte, h]

theorem hostByte_of_unwritten {m : Memory} {i d : Nat} (h : Memory.read m i = none) :
    hostByte m i d = (Config.freeByte d, d + 1) := by
  rw [hostByte, h]

theorem hostWord_of_holds {m : Memory} {i d : Nat} {b0 b1 b2 b3 : Byte} (h : HoldsAt m i [b0, b1, b2, b3]) :
    hostWord m i d = (b3 ++ b2 ++ b1 ++ b0, d) := by
  obtain ⟨h0, h⟩ := HoldsAt.cons.1 h
  obtain ⟨h1, h⟩ := HoldsAt.cons.1 h
  obtain ⟨h2, h⟩ := HoldsAt.cons.1 h
  obtain ⟨h3, -⟩ := HoldsAt.cons.1 h
  simp only [hostWord, hostByte_of_read h0, hostByte_of_read h1, hostByte_of_read h2, hostByte_of_read h3]

/-! ## Offsets that hold nothing -/

/-- A word at this offset reads 0 and ignores writes (R89). -/
def State.NothingAt (s : State) (o : Offset) : Prop := s.read32 o = (0, s.draws) ∧ ∀ v, s.write32 o v = .next s

section
variable {s : State} {o : Offset}

theorem regAt_eq_none (h : 0x034 ≤ o.toNat) : regAt o = none := by
  unfold regAt
  split
  case h_14 => rfl
  all_goals omega

theorem nothingAt_noRegister (hlo : 0x034 ≤ o.toNat) (hhi : o.toNat < 0x1000) : s.NothingAt o := by
  simp [State.NothingAt, State.read32, State.write32, regionOf_reg hhi, regAt_eq_none hlo]

theorem nothingAt_gap (h : (0x1400 ≤ o.toNat ∧ o.toNat < 0x2000) ∨ (0x6000 ≤ o.toNat ∧ o.toNat < 0x10000) ∨
    0x30000 ≤ o.toNat) : s.NothingAt o := by
  simp [State.NothingAt, State.read32, State.write32, regionOf_gap h]

theorem nothingAt_romSlotEnd (hlo : 0x2000 ≤ o.toNat) (hhi : o.toNat < 0x6000) (h : 0x24 ≤ o.toNat % 0x40) :
    s.NothingAt o := by
  have hword : ¬romSlotWord o ≤ 8 := by
    rw [romSlotWord]
    omega
  exact ⟨by rw [read32_romw hlo hhi, if_neg hword], write32_romw hlo hhi⟩

/-- R89: at or above a buffer's size a byte or a word reads 0 and ignores writes, also while busy (log 16). -/
theorem above_inBuf (hlo : 0x10000 + s.params.inSize ≤ o.toNat) (hhi : o.toNat < 0x20000) :
    s.NothingAt o ∧ s.read8 o = (0, s.draws) ∧ ∀ bytes, s.writeBytes o bytes = .next s := by
  have hreg : regionOf o = .inw := regionOf_inw (by omega) hhi
  have hidx : ¬inIndex o < s.params.inSize := by
    unfold inIndex
    omega
  simp [State.NothingAt, State.read32, State.write32, State.read8, State.writeBytes, hreg, hidx]

theorem above_outBuf (hlo : 0x20000 + s.params.outSize ≤ o.toNat) (hhi : o.toNat < 0x30000) :
    s.NothingAt o ∧ s.read8 o = (0, s.draws) ∧ ∀ bytes, s.writeBytes o bytes = .next s := by
  have hreg : regionOf o = .outw := regionOf_outw (by omega) hhi
  have hidx : ¬outIndex o < s.params.outSize := by
    unfold outIndex
    omega
  simp [State.NothingAt, State.read32, State.write32, State.read8, State.writeBytes, hreg, hidx]

end

theorem State.NothingAt.word {s : State} {off : Nat} (h4 : off % 4 = 0) (h : s.NothingAt (BitVec.ofNat 18 off)) :
    ReadsWord s off 0 ∧ ∀ v, WritesWord s off v s :=
  ⟨readsWord_of_read32 h4 h.1, fun v => writesWord_of_write32 h4 (h.2 v)⟩

/-- The read-only registers ignore writes, at any time (spec/10_state.md R31 to R43). -/
theorem writesWord_readOnly {off : Nat}
    (h : off ∈ [0x000, 0x010, 0x014, 0x01C, 0x020, 0x024, 0x028, 0x02C, 0x030]) (s : State) (v : Word) :
    WritesWord s off v s := by
  have hreg : ∀ off ∈ [0x000, 0x010, 0x014, 0x01C, 0x020, 0x024, 0x028, 0x02C, 0x030], off % 4 = 0 ∧
      ∃ r ∈ [Reg.id, .errCode, .errInfo, .outLen, .nsym, .maxLen, .tableLen, .bitCnt, .bodyOff],
        regAt (BitVec.ofNat 18 off) = some r := by decide
  have hkeep : ∀ r ∈ [Reg.id, .errCode, .errInfo, .outLen, .nsym, .maxLen, .tableLen, .bitCnt, .bodyOff],
      s.writeReg r v = s := by simp [State.writeReg]
  obtain ⟨h4, r, hr, hat⟩ := hreg off h
  have hw := writesWord_register (s := s) h4 hat v
  rwa [hkeep r hr] at hw

theorem step_write32 {s : State} {off : Nat} (h4 : off % 4 = 0) (v : Word) :
    step (s.withNext (.access (.write32 (BitVec.ofNat 18 off) v))) =
      respondOk (s.write32 (BitVec.ofNat 18 off) v) := by
  rw [step_access_of_wellFormed s ((wellFormed_word h4).2 v), State.perform]

theorem step_write8 {s : State} {off : Nat} (hlo : 0x10000 ≤ off) (hhi : off < 0x30000) (v : Byte) :
    step (s.withNext (.access (.write8 (BitVec.ofNat 18 off) v))) =
      respondOk (s.writeBytes (BitVec.ofNat 18 off) [v]) := by
  rw [step_access_of_wellFormed s ((wellFormed_byte hlo hhi).2 v), State.perform]

end Sys2Proof.Machine

namespace Sys2Proof

open Machine

/-- Settles O48: inside its buffer an access writes its bytes in order (`writeBytes_in`, `writeBytes_out`), and they read
back (`read_writeWord`, `read_writeByte`). -/
theorem bufferWrites : Obligations.BufferWrites := by
  intro s hwf hbusy
  obtain ⟨-, hin, -, hout⟩ := Params.sizes hwf
  refine ⟨fun j v hj => ?_, fun j v hj => ?_, fun i v hi => ?_, fun i v hi => ?_⟩
  · refine ⟨_, writesWord_of_write32 (by omega) ?_, read_writeWord s.inBuf (4 * j) v⟩
    rw [write32_in hwf hj, writeBytes_in hwf hj, writeBuffer_idle hbusy]
  · refine ⟨_, writesWord_of_write32 (by omega) ?_, read_writeWord s.outBuf (4 * j) v⟩
    rw [write32_out hwf hj, writeBytes_out hwf hj, writeBuffer_idle hbusy]
  · refine ⟨_, writesByte_of_writeBytes (by omega) (by omega) ?_, read_writeByte s.inBuf i v⟩
    rw [writeBytes_in hwf hi, writeBuffer_idle hbusy]
  · refine ⟨_, writesByte_of_writeBytes (by omega) (by omega) ?_, read_writeByte s.outBuf i v⟩
    rw [writeBytes_out hwf hi, writeBuffer_idle hbusy]

/-- Settles O49: a buffer read is a byte or a word of the buffer (`read8_in`, `read32_in`), its unwritten bytes filled
with draws (`hostWord_of_fillDraws`); OUT_BUF reads as a draw while busy. -/
theorem bufferReads : Obligations.BufferReads := by
  intro s hwf
  obtain ⟨-, hin, -, hout⟩ := Params.sizes hwf
  refine ⟨fun j b0 b1 b2 b3 hj hm => ?_, fun i b hi hm => ?_, fun i hi hm => ?_, fun j held b0 b1 b2 b3 hj hheld hfill => ?_,
    fun hbusy => ⟨fun j b0 b1 b2 b3 hj hm => ?_, fun i b hi hm => ?_, fun i hi hm => ?_,
      fun j held b0 b1 b2 b3 hj hheld hfill => ?_⟩, fun hbusy => ⟨fun j hj => ?_, fun i hi => ?_⟩⟩
  · exact step_read32 (by omega) (by rw [read32_in hwf hj, hostWord_of_holds hm])
  · exact step_read8 (by omega) (by omega) (by rw [read8_in hwf hi, hostByte_of_read hm])
  · exact step_read8 (by omega) (by omega) (by rw [read8_in hwf hi, hostByte_of_unwritten hm])
  · subst hheld
    exact step_read32 (by omega) (by rw [read32_in hwf hj, hostWord_of_fillDraws hfill])
  · exact step_read32 (by omega) (by rw [read32_out hwf hj, hbusy, hostWord_of_holds hm]; rfl)
  · exact step_read8 (by omega) (by omega) (by rw [read8_out hwf hi, hbusy, hostByte_of_read hm]; rfl)
  · exact step_read8 (by omega) (by omega) (by rw [read8_out hwf hi, hbusy, hostByte_of_unwritten hm]; rfl)
  · subst hheld
    exact step_read32 (by omega) (by rw [read32_out hwf hj, hbusy, hostWord_of_fillDraws hfill]; rfl)
  · exact step_read32 (by omega) (by rw [read32_out hwf hj, hbusy]; rfl)
  · exact step_read8 (by omega) (by omega) (by rw [read8_out hwf hi, hbusy]; rfl)

/-- Settles O50: each range is a gap, has no register, ends a ROM slot or lies above a buffer; the read-only words
ignore writes. -/
theorem holdsNothing : Obligations.HoldsNothing := by
  refine fun s => ⟨fun off hlt h4 hrange => ?_, fun off hrange => ?_, fun off v h4 hrange => ?_⟩
  · have hoff : (BitVec.ofNat 18 off : Offset).toNat = off := toNat_offset hlt
    refine State.NothingAt.word h4 ?_
    rcases hrange with ⟨hlo, hhi⟩ | ⟨hlo, hhi⟩ | ⟨hlo, hhi, hword⟩ | ⟨hlo, hhi⟩ | ⟨hlo, hhi⟩ | ⟨hlo, hhi⟩ | hlo
    · exact nothingAt_noRegister (by omega) (by omega)
    · exact nothingAt_gap (by omega)
    · exact nothingAt_romSlotEnd (by omega) (by omega) (by omega)
    · exact nothingAt_gap (by omega)
    · exact (above_inBuf (by omega) (by omega)).1
    · exact (above_outBuf (by omega) (by omega)).1
    · exact nothingAt_gap (by omega)
  · have hoff : (BitVec.ofNat 18 off : Offset).toNat = off := toNat_offset (by omega)
    obtain ⟨-, hread, hwrite⟩ : s.NothingAt (BitVec.ofNat 18 off) ∧ s.read8 (BitVec.ofNat 18 off) = (0, s.draws) ∧
        ∀ bytes, s.writeBytes (BitVec.ofNat 18 off) bytes = .next s := by
      rcases hrange with ⟨hlo, hhi⟩ | ⟨hlo, hhi⟩
      · exact above_inBuf (by omega) (by omega)
      · exact above_outBuf (by omega) (by omega)
    exact ⟨step_read8 (by omega) (by omega) hread,
      fun v => writesByte_of_writeBytes (by omega) (by omega) (hwrite [v])⟩
  · rcases hrange with hreg | ⟨hlo, hhi⟩ | ⟨hlo, hhi⟩
    · exact writesWord_readOnly hreg s v
    · have hoff : (BitVec.ofNat 18 off : Offset).toNat = off := toNat_offset (by omega)
      exact writesWord_of_write32 h4 (write32_histw (by omega) (by omega) v)
    · have hoff : (BitVec.ofNat 18 off : Offset).toNat = off := toNat_offset (by omega)
      exact writesWord_of_write32 h4 (write32_romw (by omega) (by omega) v)

/-- Settles O51: the writes of CTRL and IN_LEN test BUSY, the write of STATUS clears flags at any time. -/
theorem registerWrites : Obligations.RegisterWrites := by
  intro s v
  have hctrl : WritesWord s 0x004 v (s.writeCtrl v) := writesWord_register (r := .ctrl) rfl rfl v
  have hinLen : WritesWord s 0x018 v (s.writeInLen v) := writesWord_register (r := .inLen) rfl rfl v
  refine ⟨fun hbusy => ?_, fun hbusy => ?_, writesWord_register (r := .status) rfl rfl v,
    fun off hoff => writesWord_readOnly hoff s v⟩
  · rw [State.writeCtrl, hbusy] at hctrl
    rw [State.writeInLen, hbusy] at hinLen
    rw [BitVec.ofNat_toNat]
    exact ⟨hctrl, hinLen⟩
  · rw [State.writeCtrl, hbusy] at hctrl
    rw [State.writeInLen, hbusy] at hinLen
    exact ⟨hctrl, hinLen⟩

/-- Settles O52: the access passes the bus checks and falls inside a buffer, where BUSY refuses it. -/
theorem bufferWriteWhileBusyRefused : Obligations.BufferWriteWhileBusyRefused := by
  intro s hwf hbusy
  obtain ⟨-, hin, -, hout⟩ := Params.sizes hwf
  refine ⟨fun i v hi => ?_, fun i v hi => ?_, fun j v hj => ?_, fun j v hj => ?_⟩
  · rw [step_write8 (by omega) (by omega), writeBytes_in hwf hi, writeBuffer_busy hbusy]
    rfl
  · rw [step_write8 (by omega) (by omega), writeBytes_out hwf hi, writeBuffer_busy hbusy]
    rfl
  · rw [step_write32 (by omega), write32_in hwf hj, writeBytes_in hwf hj, writeBuffer_busy hbusy]
    rfl
  · rw [step_write32 (by omega), write32_out hwf hj, writeBytes_out hwf hj, writeBuffer_busy hbusy]
    rfl

end Sys2Proof
end

section
/-! PROOFS. IRQ over a step: what a command's end and a register write do to it (spec/10_state.md R52,
spec/20_memory.md R95, spec/60_exceptions.md R278). -/

namespace Sys2Proof.Machine

section
variable {s t : State}

/-- A command's end sets DONE or ERR, so IRQ is then CTRL.IE (R274, R275, R52). -/
theorem exec_ends {i : Instr} (h : exec i s = .next t) : t.seq = .idle ∧ t.irq = s.ctrl.ie := by
  obtain ⟨u, hk, rfl | ⟨e, rfl⟩⟩ := exec_next h <;> simp [State.irq, hk.ctrl]

theorem coreTurn_ends (hrun : s.seq ≠ .idle) (h : coreTurn s = .next t) : t.irq = s.ctrl.ie := by
  unfold coreTurn at h
  split at h
  · exact absurd ‹_› hrun
  · exact (exec_ends h).2
  · cases h
    simp [State.irq]

theorem offset_of_regAt_ctrl {o : Offset} (h : regAt o = some .ctrl) : o = 0x004 := by
  apply BitVec.eq_of_toNat_eq
  unfold regAt at h
  split at h
  case h_2 heq => exact heq
  all_goals cases h

/-- A write of CTRL takes effect only while BUSY = 0, and IRQ is then the new IE under the flags. -/
theorem irq_writeCtrl_of_idle (h : s.status.busy = false) (w : Word) :
    (s.writeCtrl w).irq = (w.getLsbD 1 && (s.status.done || s.status.err)) := by
  rw [State.writeCtrl, h]
  rfl

/-- The one register write that raises IRQ is CTRL's, with DONE or ERR pending (R52, R278). -/
theorem ctrl_of_irq_writeReg {r : Reg} {w : Word} (h : s.irq = false) (ht : (s.writeReg r w).irq = true) :
    r = .ctrl ∧ w.getLsbD 1 = true ∧ (s.status.done = true ∨ s.status.err = true) := by
  have lost : s.setOvr.irq ≠ true := by rw [show s.setOvr.irq = s.irq from rfl, h]; decide
  cases r with
  | ctrl =>
    rw [State.writeReg] at ht
    cases hb : s.status.busy with
    | false => simpa [irq_writeCtrl_of_idle hb] using ht
    | true =>
      rw [State.writeCtrl, hb] at ht
      exact absurd ht lost
  | cmd =>
    rw [State.writeReg] at ht
    by_cases hidle : s.seq = .idle
    · simp [State.issue_of_idle hidle, State.irq] at ht
    · exact absurd (State.issue_of_busy hidle w ▸ ht) lost
  | status =>
    simp only [State.writeReg, State.writeStatus, State.irq, State.acknowledge_ctrl, State.acknowledge_status] at h ht
    grind
  | inLen =>
    rw [State.writeReg, State.writeInLen] at ht
    split at ht
    · exact absurd ht lost
    · exact absurd (h.symm.trans ht) (by decide)
  | _ => exact absurd (h.symm.trans ht) (by decide)

end

end Sys2Proof.Machine

namespace Sys2Proof

open Machine

/-- Settles O60: of the effects of a step only a command's end and the write of CTRL can raise IRQ
(`ctrl_of_irq_writeReg`); a command's end leaves it at IE (`coreTurn_ends`), and each falling write clears IE or both flags. -/
theorem irqRisesOnlyAtCompletionOrUnmask : Obligations.IrqRisesOnlyAtCompletionOrUnmask := by
  have hctrl (s : State) (v : Word) : WritesWord s 0x004 v (s.writeCtrl v) := writesWord_register (r := .ctrl) rfl rfl v
  refine ⟨fun s t h hlow hhigh => ?_, fun s t hrun hie h => ?_, fun s v hbusy hpend hv => ?_, fun s w hidle => ?_,
    fun s v hd he => ?_, fun s v hbusy hv => ?_⟩
  · have kept : ∀ u : State, u.ctrl = s.ctrl → u.status = s.status → u.irq ≠ true := by
      intro u hc hst
      rw [State.irq, hc, hst, ← State.irq, hlow]
      decide
    rcases step_next h with ⟨rest, rfl⟩ | ⟨rest, rfl⟩ | ⟨i, rest, hrun, hexec⟩ | ⟨w, rest, hrun, rfl⟩ | ⟨a, rest, hev, ha⟩
    · exact absurd hhigh (kept _ rfl rfl)
    · exact absurd hhigh (by simp [State.irq])
    · exact .inl ⟨by simp [hrun], (exec_ends hexec).1⟩
    · exact .inl ⟨by simp [hrun], rfl⟩
    · rcases hostAccess_next ha with ⟨r, d, rfl⟩ | ⟨u, hu, rfl, hreg, hword⟩
      · exact absurd hhigh (kept _ rfl rfl)
      cases hu with
      | nothing | input | output => exact absurd hhigh (kept _ rfl rfl)
      | register r w' hr =>
        obtain ⟨w, hw⟩ := hword.resolve_right fun hno => hno r hr
        rw [hreg r w hw hr] at hhigh
        obtain ⟨rfl, hv, hpend⟩ := ctrl_of_irq_writeReg (s := { s with events := rest }) hlow hhigh
        rw [offset_of_regAt_ctrl hr] at hw
        exact .inr ⟨w, rest, by rw [hev, hw], hv, hpend⟩
  · rcases h with h | ⟨hev, h⟩
    · exact (coreTurn_ends hrun h).trans hie
    · rw [step_of_no_event hev] at h
      exact (coreTurn_ends hrun h).trans hie
  · exact ⟨_, hctrl s v, by rw [irq_writeCtrl_of_idle hbusy, hv]; simpa using hpend⟩
  · exact ⟨_, writesWord_cmd s w, by simp [State.issue_of_idle hidle, State.irq]⟩
  · exact ⟨_, writesWord_register (r := .status) rfl rfl v,
      by simp [State.writeReg, State.writeStatus, State.irq, hd, he]⟩
  · exact ⟨_, hctrl s v, by rw [irq_writeCtrl_of_idle hbusy, hv]; rfl⟩

end Sys2Proof
end
